-- ==== Sys2Proof/Word.lean ====
section
/-! DEFINITION. The widths of the block's quantities: bytes, 16-bit values, 9-bit wire symbols
(00_scope.md R7, 30_encoding.md R60). Counts are `Nat`: exact, no wrap-around (43_window_pixels.md R146). -/
namespace Sys2Proof

/-- `u8`: an opcode, a parameter byte, a byte of the scratch buffer. -/
abbrev Byte := BitVec 8

/-- `u16`: a window coordinate or an RGB565 pixel. -/
abbrev U16 := BitVec 16

/-- A 16-bit value is determined by its two bytes. -/
theorem U16.eq_of_bytes {v v' : U16} (hi : v.extractLsb' 8 8 = v'.extractLsb' 8 8)
    (lo : v.extractLsb' 0 8 = v'.extractLsb' 0 8) : v = v' := by
  have h := congrArg BitVec.toNat hi
  have l := congrArg BitVec.toNat lo
  simp only [BitVec.extractLsb'_toNat, Nat.shiftRight_eq_div_pow] at h l
  bv_omega

end Sys2Proof
end

