-- ==== Sys2Proof/Config.lean ====
section
/-! DEFINITION. The configuration record `Cfg` that BOOT takes (00_scope.md R5), the small types its fields
have, the value it has before BOOT writes it, and the model's two constants without a body. -/
namespace Sys2Proof

/-- The level of an output line. -/
inductive Level where
  | low
  | high
  deriving DecidableEq, Repr, Inhabited

/-- The state of the chip-select line: never a level, because the polarity is open (10_state.md R22). -/
inductive ChipSelect where
  | deasserted
  | asserted
  deriving DecidableEq, Repr, Inhabited

/-- The three pins whose level the block holds and whose set calls it records (00_scope.md R8, 10_state.md R20). -/
inductive Pin where
  | rst
  | dc
  | bl
  deriving DecidableEq, Repr, Inhabited

/-- The four pin roles; `cs` is legal only as the operand of PIN_CONSTRUCT (30_encoding.md R70). -/
inductive PinRole where
  | rst
  | dc
  | bl
  | cs
  deriving DecidableEq, Repr, Inhabited

/-- The colour-channel order (10_state.md R14). -/
inductive ColorOrder where
  | rgb
  | bgr
  deriving DecidableEq, Repr, Inhabited

/-- The orientation: an OPEN finite type of which the spec names one value (10_state.md R14).
DESIGN CHOICE (log 15), safe: 256 further values without a name. -/
inductive Orientation where
  | landscape
  | other (id : Byte)
  deriving DecidableEq, Repr, Inhabited

/-- The five kinds of init-table entry (42_controller_init.md R125). -/
inductive EntryKind where
  | pwrctl
  | pixfmt
  | madctl
  | slpout
  | dispon
  deriving DecidableEq, Repr, Inhabited

/-- A panel command: opcode and parameters (00_scope.md R5). -/
structure Cmd where
  opcode : Byte
  params : List Byte
  deriving DecidableEq, Repr, Inhabited

/-- An entry of the init table (00_scope.md R5). -/
structure InitEntry where
  kind : EntryKind
  opcode : Byte
  params : List Byte
  postDelayMs : Nat
  deriving DecidableEq, Repr, Inhabited

/-- A coordinate of a window, as a layout of WINDOW_CMDS names it. -/
inductive Coord where
  | x0
  | y0
  | x1
  | y1
  deriving DecidableEq, Repr, Inhabited

/-- One parameter byte of a layout: a constant, or the more or less significant byte of a coordinate. -/
inductive WinByte where
  | lit (b : Byte)
  | hi (c : Coord)
  | lo (c : Coord)
  deriving DecidableEq, Repr, Inhabited

/-- The opcode of a window command: the parameter OPC_COLSET or OPC_ROWSET (30_encoding.md R66).
DESIGN CHOICE (log 12), safe: or another byte, since R68 leaves WINDOW_CMDS open. -/
inductive WinOpcode where
  | colset
  | rowset
  | other (b : Byte)
  deriving DecidableEq, Repr, Inhabited

/-- The byte of an opcode, for given OPC_COLSET and OPC_ROWSET. -/
def WinOpcode.byte (opcColset opcRowset : Byte) : WinOpcode → Byte
  | .colset => opcColset
  | .rowset => opcRowset
  | .other b => b

/-- One command of WINDOW_CMDS, its opcode named as above. -/
structure WinCmd (β : Type) where
  opcode : WinOpcode
  params : List β
  deriving DecidableEq, Repr, Inhabited

/-- The command as it is sent. -/
def WinCmd.sent (opcColset opcRowset : Byte) (c : WinCmd Byte) : Cmd :=
  ⟨c.opcode.byte opcColset opcRowset, c.params⟩

/-- WINDOW_CMDS as plain data (30_encoding.md R68: an OPEN function of the four coordinates).
DESIGN CHOICE (log 12), safe: either a layout written out, or the `id`-th free function, of which nothing is known
but what R68 requires. -/
inductive WindowScheme where
  | layout (cmds : List (WinCmd WinByte))
  | free (id : Nat)
  deriving DecidableEq, Repr, Inhabited

/-- A function that R68 admits as WINDOW_CMDS: of the four coordinates alone, its lists never empty, distinct for
distinct rectangles whatever bytes OPC_COLSET and OPC_ROWSET are. A rectangle has its start before its end, as
`in_bounds` asks (DEDUCED, log 12, safe). The field values written here show only that there is such a function. -/
structure WindowFn where
  cmds : U16 → U16 → U16 → U16 → List (WinCmd Byte) := fun x0 y0 x1 y1 =>
    [⟨.colset, [x0.extractLsb' 8 8, x0.extractLsb' 0 8, x1.extractLsb' 8 8, x1.extractLsb' 0 8]⟩,
     ⟨.rowset, [y0.extractLsb' 8 8, y0.extractLsb' 0 8, y1.extractLsb' 8 8, y1.extractLsb' 0 8]⟩]
  nonempty : ∀ x0 y0 x1 y1, cmds x0 y0 x1 y1 ≠ [] := by
    intro x0 y0 x1 y1
    exact List.cons_ne_nil _ _
  distinct : ∀ col row x0 y0 x1 y1 x0' y0' x1' y1', x0 ≤ x1 → y0 ≤ y1 → x0' ≤ x1' → y0' ≤ y1' →
      (cmds x0 y0 x1 y1).map (WinCmd.sent col row) = (cmds x0' y0' x1' y1').map (WinCmd.sent col row) →
      x0 = x0' ∧ y0 = y0' ∧ x1 = x1' ∧ y1 = y1' := by
    intro col row x0 y0 x1 y1 x0' y0' x1' y1' _ _ _ _ h
    simp only [List.map_cons, WinCmd.sent, List.cons.injEq, Cmd.mk.injEq, true_and, and_true] at h
    obtain ⟨⟨a, b, c, d⟩, e, f, g, i⟩ := h
    exact ⟨U16.eq_of_bytes a b, U16.eq_of_bytes e f, U16.eq_of_bytes c d, U16.eq_of_bytes g i⟩
  deriving Inhabited

/-- The configuration record of 00_scope.md R5, in its order: a field that R5 marks **source** has the source's value
as its default, a field that R5 marks **OPEN** has none.
`initTable` is INIT_TABLE(cfg), the function's value at this configuration (DEDUCED, log 14).
`madctlEnc` is MADCTL_ENC as the list of its arguments and values (DESIGN CHOICE, log 13).
`spiCfg` is the opaque bus configuration, which no rule reads (DESIGN CHOICE, log 16). -/
structure Cfg where
  bufSize : Nat := 512
  resetLowMs : Nat := 20
  resetSettleMs : Nat := 200
  idleMs : Nat := 500
  width : U16 := 320
  height : U16 := 240
  orient : Orientation := .landscape
  corder : ColorOrder := .bgr
  pixelBits : Nat := 16
  paramDc : Level
  pixelMsbFirst : Bool
  opcColset : Byte
  opcRowset : Byte
  opcMemwr : Byte
  windowCmds : WindowScheme
  initTable : List InitEntry
  madctlEnc : List ((Orientation × ColorOrder) × Byte)
  csActiveLevel : Level
  rstInit : Level
  dcInit : Level
  blInit : Level
  spiCfg : Nat
  fillColor : U16
  deriving DecidableEq, Repr, Inhabited

/-- What the configuration holds before BOOT writes it. DESIGN CHOICE (log 3), unsafe: CFG.* has no value there
(10_state.md R27); a parameter to which 00_scope.md R5 gives a source value has it, WINDOW_CMDS is a free function, the
others are zero, low, false or empty. -/
def Cfg.unset : Cfg where
  paramDc := .low
  pixelMsbFirst := false
  opcColset := 0
  opcRowset := 0
  opcMemwr := 0
  windowCmds := .free 0
  initTable := []
  madctlEnc := []
  csActiveLevel := .low
  rstInit := .low
  dcInit := .low
  blInit := .low
  spiCfg := 0
  fillColor := 0

/-- FREE VALUE (DESIGN CHOICE, log 10): the state of the chip-select line after the `k`-th transfer failed. It is
unspecified (60_exceptions.md R164, 93_implementation_defined.md U3), so nothing constrains it. -/
opaque Config.csAfterFault : Nat → ChipSelect

/-- FREE VALUE (DESIGN CHOICE, log 12): the window commands of a configuration that leaves WINDOW_CMDS open; what
30_encoding.md R68 requires of it is all that is known. -/
opaque Config.freeWindowCmds : Nat → WindowFn

end Sys2Proof
end

