-- ==== Sys2Proof/Syntax.lean ====
section
/-! DEFINITION. The instructions: one constructor per row of spec/opcode_table.json, operands as typed values
(30_encoding.md R71). -/
namespace Sys2Proof

/-- An operation of the block (00_scope.md R6), a panel command kind (30_encoding.md R66) or a wire symbol (R60). -/
inductive Instr where
  -- host-visible requests
  | boot (cfg : Cfg)
  | init
  | setWindow (x0 y0 x1 y1 : U16)
  | writePixels (pixels : List U16)
  | setPixels (x0 y0 x1 y1 : U16) (pixels : List U16)
  | fillRect (x0 y0 x1 y1 color : U16)
  | idle
  -- pins, transport, delay
  | pinConstruct (p : PinRole) (level : Level)
  | pinSetLow (p : Pin)
  | pinSetHigh (p : Pin)
  | spiConstruct (spiCfg : Nat)
  | spiWrite (bytes : List Byte)
  | delayMs (n : Nat)
  | spiBegin
  | spiXfer (bytes : List Byte)
  | spiEnd
  -- the framer
  | sendCommand (opcode : Byte) (params : List Byte)
  | sendPixels (pixels : List U16)
  -- the controller sequencer
  | resetPulse
  | configure
  | halt
  -- pseudo-operations
  | fillScreen (color : U16)
  | main (cfg : Cfg)
  -- panel command kinds sent by CONFIGURE: `idx` is the entry's place in the init table
  | pwrctl (idx : Nat) (opcode : Byte) (params : List Byte) (postDelayMs : Nat)
  | pixfmt (idx : Nat) (opcode : Byte) (params : List Byte) (postDelayMs : Nat)
  | madctl (idx : Nat) (opcode : Byte) (postDelayMs : Nat)
  | slpout (idx : Nat) (opcode : Byte) (postDelayMs : Nat)
  | dispon (idx : Nat) (opcode : Byte) (postDelayMs : Nat)
  -- panel command kinds sent by SET_WINDOW and WRITE_PIXELS
  | colset (opcode : Byte) (params : List Byte)
  | rowset (opcode : Byte) (params : List Byte)
  | memwr (opcode : Byte)
  -- wire symbols
  | symCommand (b : Byte)
  | symData (b : Byte)
  deriving DecidableEq, Repr

end Sys2Proof
end

