-- ==== Sys2Proof/WellFormed.lean ====
section
/-! DEFINITION. Which instructions are well-formed: the operand ranges the spec gives beyond the operands' types. -/
namespace Sys2Proof

/-- The layout sends this byte. -/
def sendsByte (cmds : List (WinCmd WinByte)) (b : WinByte) : Bool := cmds.any fun c => c.params.contains b

/-- What 30_encoding.md R68 requires of WINDOW_CMDS, a list that is not empty and distinct lists for distinct
rectangles: of a layout, that it sends both bytes of each coordinate; a free function has it by its type. -/
def WindowScheme.lawful : WindowScheme → Bool
  | .layout cmds =>
    sendsByte cmds (.hi .x0) && sendsByte cmds (.lo .x0) && sendsByte cmds (.hi .y0) && sendsByte cmds (.lo .y0) &&
    sendsByte cmds (.hi .x1) && sendsByte cmds (.lo .x1) && sendsByte cmds (.hi .y1) && sendsByte cmds (.lo .y1)
  | .free _ => true

/-- SPI_WRITE and SPI_XFER take 1 to BUF_SIZE bytes (30_encoding.md R70); the WINDOW_CMDS of a configuration is one
that R68 admits (DEDUCED, log 12); every other operand may be any value of its type (R72). -/
def Instr.wellFormed (bufSize : Nat) : Instr → Bool
  | .spiWrite bytes => decide (1 ≤ bytes.length ∧ bytes.length ≤ bufSize)
  | .spiXfer bytes => decide (1 ≤ bytes.length ∧ bytes.length ≤ bufSize)
  | .boot cfg => cfg.windowCmds.lawful
  | .init => true
  | .setWindow _ _ _ _ => true
  | .writePixels _ => true
  | .setPixels _ _ _ _ _ => true
  | .fillRect _ _ _ _ _ => true
  | .idle => true
  | .pinConstruct _ _ => true
  | .pinSetLow _ => true
  | .pinSetHigh _ => true
  | .spiConstruct _ => true
  | .delayMs _ => true
  | .spiBegin => true
  | .spiEnd => true
  | .sendCommand _ _ => true
  | .sendPixels _ => true
  | .resetPulse => true
  | .configure => true
  | .halt => true
  | .fillScreen _ => true
  | .main cfg => cfg.windowCmds.lawful
  | .pwrctl _ _ _ _ => true
  | .pixfmt _ _ _ _ => true
  | .madctl _ _ _ => true
  | .slpout _ _ _ => true
  | .dispon _ _ _ => true
  | .colset _ _ => true
  | .rowset _ _ => true
  | .memwr _ => true
  | .symCommand _ => true
  | .symData _ => true

end Sys2Proof
end

