-- ==== Sys2Proof/Decode.lean ====
section
/-! DEFINITION. Requests as they stand at the block's request interface, the total decoder that reads them and
rejects by name, and the encoder written from the same table (30_encoding.md R60, R66, R70, R71, R75). -/
namespace Sys2Proof

/-- A typed operand of a request: operands are typed values, not packed bits (30_encoding.md R71). -/
inductive Operand where
  | u8 (v : Byte)
  | u16 (v : U16)
  | nat (n : Nat)
  | level (l : Level)
  | pin (p : PinRole)
  | bytes (bs : List Byte)
  | pixels (ps : List U16)
  | cfg (c : Cfg)
  deriving DecidableEq, Repr

/-- The eight panel command kinds (30_encoding.md R66). -/
inductive CmdKind where
  | pwrctl
  | pixfmt
  | madctl
  | slpout
  | dispon
  | colset
  | rowset
  | memwr
  deriving DecidableEq, Repr

/-- What stands before the operands, by the formats of opcode_table.json (30_encoding.md R76): REQ, an 8-bit request
code; CMD, a panel command kind and the 9 bits of the transaction's symbol 0; SYM, the 9 bits of a wire symbol;
PSEUDO, a name without a code. DESIGN CHOICE (log 23), safe: the kind of a CMD row is named, since no bit gives it. -/
inductive Head where
  | req (op : Byte)
  | cmd (kind : CmdKind) (symbol0 : BitVec 9)
  | sym (symbol : BitVec 9)
  | fillScreen
  | main
  deriving DecidableEq, Repr

/-- A request as it is presented: its head and its operands (DESIGN CHOICE, log 1). -/
structure Packet where
  head : Head
  operands : List Operand
  deriving DecidableEq, Repr

/-- Why a packet is no instruction: the decoder rejects by name. `reservedCode` is 30_encoding.md R72's; the other two
are the model's (DESIGN CHOICE, log 35), safe. -/
inductive DecodeError where
  | reservedCode (op : Byte)
  | wrongOperands (mnemonic : String)
  | notACommandSymbol (symbol0 : BitVec 9)
  deriving DecidableEq, Repr

/-- The operations that have a request code (30_encoding.md R70). -/
inductive ReqOp where
  | boot
  | init
  | setWindow
  | writePixels
  | setPixels
  | fillRect
  | idle
  | pinConstruct
  | pinSetLow
  | pinSetHigh
  | spiConstruct
  | spiWrite
  | delayMs
  | spiBegin
  | spiXfer
  | spiEnd
  | sendCommand
  | sendPixels
  | resetPulse
  | configure
  | halt
  deriving DecidableEq, Repr

/-- The request codes (30_encoding.md R70). -/
def ReqOp.code : ReqOp → Byte
  | .boot => 0x01
  | .init => 0x02
  | .setWindow => 0x03
  | .writePixels => 0x04
  | .setPixels => 0x05
  | .fillRect => 0x06
  | .idle => 0x07
  | .pinConstruct => 0x10
  | .pinSetLow => 0x11
  | .pinSetHigh => 0x12
  | .spiConstruct => 0x13
  | .spiWrite => 0x14
  | .delayMs => 0x15
  | .spiBegin => 0x16
  | .spiXfer => 0x17
  | .spiEnd => 0x18
  | .sendCommand => 0x20
  | .sendPixels => 0x21
  | .resetPulse => 0x30
  | .configure => 0x31
  | .halt => 0x3F

/-- The mnemonics of the request codes (30_encoding.md R70). -/
def ReqOp.mnemonic : ReqOp → String
  | .boot => "BOOT"
  | .init => "INIT"
  | .setWindow => "SET_WINDOW"
  | .writePixels => "WRITE_PIXELS"
  | .setPixels => "SET_PIXELS"
  | .fillRect => "FILL_RECT"
  | .idle => "IDLE"
  | .pinConstruct => "PIN_CONSTRUCT"
  | .pinSetLow => "PIN_SET_LOW"
  | .pinSetHigh => "PIN_SET_HIGH"
  | .spiConstruct => "SPI_CONSTRUCT"
  | .spiWrite => "SPI_WRITE"
  | .delayMs => "DELAY_MS"
  | .spiBegin => "SPI_BEGIN"
  | .spiXfer => "SPI_XFER"
  | .spiEnd => "SPI_END"
  | .sendCommand => "SEND_COMMAND"
  | .sendPixels => "SEND_PIXELS"
  | .resetPulse => "RESET_PULSE"
  | .configure => "CONFIGURE"
  | .halt => "HALT"

/-- All operations with a code, in the order of 30_encoding.md R70. -/
def reqOps : List ReqOp :=
  [.boot, .init, .setWindow, .writePixels, .setPixels, .fillRect, .idle, .pinConstruct, .pinSetLow, .pinSetHigh,
   .spiConstruct, .spiWrite, .delayMs, .spiBegin, .spiXfer, .spiEnd, .sendCommand, .sendPixels, .resetPulse,
   .configure, .halt]

/-- The operation a request code stands for; a code not in the table is reserved (30_encoding.md R71, R72). -/
def reqOpOf (op : Byte) : Option ReqOp := reqOps.find? fun r => r.code == op

/-- A pin operand of PIN_SET_LOW and PIN_SET_HIGH: chip-select is not a legal one (40_pin_spi_delay.md R81). -/
def settablePin : PinRole → Option Pin
  | .rst => some .rst
  | .dc => some .dc
  | .bl => some .bl
  | .cs => none

/-- The role of a settable pin. -/
def Pin.role : Pin → PinRole
  | .rst => .rst
  | .dc => .dc
  | .bl => .bl

/-- The instruction of an operation without operands. -/
def noOperands (i : Instr) : List Operand → Option Instr
  | [] => some i
  | _ => none

/-- The instruction of an operation with one pixel list. -/
def pixelOperand (f : List U16 → Instr) : List Operand → Option Instr
  | [.pixels ps] => some (f ps)
  | _ => none

/-- The instruction of an operation with one byte list. -/
def byteOperand (f : List Byte → Instr) : List Operand → Option Instr
  | [.bytes bs] => some (f bs)
  | _ => none

/-- The instruction of an operation with one number. -/
def natOperand (f : Nat → Instr) : List Operand → Option Instr
  | [.nat n] => some (f n)
  | _ => none

/-- The instruction of an operation with one configuration record. -/
def cfgOperand (f : Cfg → Instr) : List Operand → Option Instr
  | [.cfg c] => some (f c)
  | _ => none

/-- The instruction of an operation with one pin that has a set call. -/
def pinOperand (f : Pin → Instr) : List Operand → Option Instr
  | [.pin p] => (settablePin p).map f
  | _ => none

/-- The instruction of an operation with a rectangle, and what follows it. -/
def rectOperands (f : U16 → U16 → U16 → U16 → List Operand → Option Instr) : List Operand → Option Instr
  | .u16 x0 :: .u16 y0 :: .u16 x1 :: .u16 y1 :: rest => f x0 y0 x1 y1 rest
  | _ => none

/-- The instruction of an operation with one 16-bit value. -/
def u16Operand (f : U16 → Instr) : List Operand → Option Instr
  | [.u16 v] => some (f v)
  | _ => none

/-- The operands of each request code (30_encoding.md R70). -/
def reqInstr (r : ReqOp) (os : List Operand) : Option Instr :=
  match r with
  | .boot => cfgOperand .boot os
  | .init => noOperands .init os
  | .setWindow => rectOperands (fun x0 y0 x1 y1 => noOperands (.setWindow x0 y0 x1 y1)) os
  | .writePixels => pixelOperand .writePixels os
  | .setPixels => rectOperands (fun x0 y0 x1 y1 => pixelOperand (.setPixels x0 y0 x1 y1)) os
  | .fillRect => rectOperands (fun x0 y0 x1 y1 => u16Operand (.fillRect x0 y0 x1 y1)) os
  | .idle => noOperands .idle os
  | .pinConstruct =>
    match os with
    | [.pin p, .level l] => some (.pinConstruct p l)
    | _ => none
  | .pinSetLow => pinOperand .pinSetLow os
  | .pinSetHigh => pinOperand .pinSetHigh os
  | .spiConstruct => natOperand .spiConstruct os
  | .spiWrite => byteOperand .spiWrite os
  | .delayMs => natOperand .delayMs os
  | .spiBegin => noOperands .spiBegin os
  | .spiXfer => byteOperand .spiXfer os
  | .spiEnd => noOperands .spiEnd os
  | .sendCommand =>
    match os with
    | [.u8 op, .bytes bs] => some (.sendCommand op bs)
    | _ => none
  | .sendPixels => pixelOperand .sendPixels os
  | .resetPulse => noOperands .resetPulse os
  | .configure => noOperands .configure os
  | .halt => noOperands .halt os

/-- The mnemonics of the panel command kinds (30_encoding.md R66). -/
def CmdKind.mnemonic : CmdKind → String
  | .pwrctl => "PWRCTL"
  | .pixfmt => "PIXFMT"
  | .madctl => "MADCTL"
  | .slpout => "SLPOUT"
  | .dispon => "DISPON"
  | .colset => "COLSET"
  | .rowset => "ROWSET"
  | .memwr => "MEMWR"

/-- The instruction of an init-table entry with parameters: its index, its parameters, its post-delay. -/
def entryOperands (f : Nat → List Byte → Nat → Instr) : List Operand → Option Instr
  | [.nat i, .bytes bs, .nat d] => some (f i bs d)
  | _ => none

/-- The instruction of an init-table entry whose parameters the spec fixes: its index, its post-delay. -/
def shortEntryOperands (f : Nat → Nat → Instr) : List Operand → Option Instr
  | [.nat i, .nat d] => some (f i d)
  | _ => none

/-- The operands of each panel command kind beyond its opcode (30_encoding.md R66; DESIGN CHOICE, log 21). -/
def cmdInstr (k : CmdKind) (op : Byte) (os : List Operand) : Option Instr :=
  match k with
  | .pwrctl => entryOperands (fun i bs d => .pwrctl i op bs d) os
  | .pixfmt => entryOperands (fun i bs d => .pixfmt i op bs d) os
  | .madctl => shortEntryOperands (fun i d => .madctl i op d) os
  | .slpout => shortEntryOperands (fun i d => .slpout i op d) os
  | .dispon => shortEntryOperands (fun i d => .dispon i op d) os
  | .colset => byteOperand (.colset op) os
  | .rowset => byteOperand (.rowset op) os
  | .memwr => noOperands (.memwr op) os

/-- Bit 8 of a symbol: the level of the DC line, 0 = low, 1 = high (30_encoding.md R60). -/
def symbolIsData (w : BitVec 9) : Bool := w.getLsbD 8

/-- Bits 7:0 of a symbol: the byte (30_encoding.md R60). -/
def symbolByte (w : BitVec 9) : Byte := w.setWidth 8

/-- The 9-bit word of a symbol with the DC line low (30_encoding.md R60). -/
def commandSymbol (b : Byte) : BitVec 9 := 0#1 ++ b

/-- The 9-bit word of a symbol with the DC line high (30_encoding.md R60). -/
def dataSymbol (b : Byte) : BitVec 9 := 1#1 ++ b

/-- An instruction, or why there is none. R71 and R72 speak of codes that are not in the table and say nothing of a
listed code whose operands have another number or type than its row; refusing such a packet by the row's mnemonic, and
a CMD packet whose symbol 0 has bit 8 set, is the model's choice (DESIGN CHOICE, log 35), safe. -/
def named (mnemonic : String) : Option Instr → Except DecodeError Instr
  | some i => .ok i
  | none => .error (.wrongOperands mnemonic)

/-- The decoder: total on every packet (30_encoding.md R71). -/
def decode (p : Packet) : Except DecodeError Instr :=
  match p.head with
  | .req op =>
    match reqOpOf op with
    | some r => named r.mnemonic (reqInstr r p.operands)
    | none => .error (.reservedCode op)
  | .cmd k w =>
    if symbolIsData w then .error (.notACommandSymbol w)
    else named k.mnemonic (cmdInstr k (symbolByte w) p.operands)
  | .sym w =>
    if symbolIsData w then
      named "SYM_DATA" (noOperands (.symData (symbolByte w)) p.operands)
    else
      named "SYM_COMMAND" (noOperands (.symCommand (symbolByte w)) p.operands)
  | .fillScreen => named "FILL_SCREEN" (u16Operand .fillScreen p.operands)
  | .main => named "MAIN" (cfgOperand .main p.operands)

/-- A packet of a coded request. -/
def reqPacket (r : ReqOp) (os : List Operand) : Packet := ⟨.req r.code, os⟩

/-- A packet of a panel command: symbol 0 carries the opcode with the DC line low (30_encoding.md R62). -/
def cmdPacket (k : CmdKind) (opcode : Byte) (os : List Operand) : Packet := ⟨.cmd k (commandSymbol opcode), os⟩

/-- The encoder, from the same tables. -/
def encode : Instr → Packet
  | .boot c => reqPacket .boot [.cfg c]
  | .init => reqPacket .init []
  | .setWindow x0 y0 x1 y1 => reqPacket .setWindow [.u16 x0, .u16 y0, .u16 x1, .u16 y1]
  | .writePixels ps => reqPacket .writePixels [.pixels ps]
  | .setPixels x0 y0 x1 y1 ps => reqPacket .setPixels [.u16 x0, .u16 y0, .u16 x1, .u16 y1, .pixels ps]
  | .fillRect x0 y0 x1 y1 c => reqPacket .fillRect [.u16 x0, .u16 y0, .u16 x1, .u16 y1, .u16 c]
  | .idle => reqPacket .idle []
  | .pinConstruct p l => reqPacket .pinConstruct [.pin p, .level l]
  | .pinSetLow p => reqPacket .pinSetLow [.pin p.role]
  | .pinSetHigh p => reqPacket .pinSetHigh [.pin p.role]
  | .spiConstruct c => reqPacket .spiConstruct [.nat c]
  | .spiWrite bs => reqPacket .spiWrite [.bytes bs]
  | .delayMs n => reqPacket .delayMs [.nat n]
  | .spiBegin => reqPacket .spiBegin []
  | .spiXfer bs => reqPacket .spiXfer [.bytes bs]
  | .spiEnd => reqPacket .spiEnd []
  | .sendCommand op bs => reqPacket .sendCommand [.u8 op, .bytes bs]
  | .sendPixels ps => reqPacket .sendPixels [.pixels ps]
  | .resetPulse => reqPacket .resetPulse []
  | .configure => reqPacket .configure []
  | .halt => reqPacket .halt []
  | .fillScreen c => ⟨.fillScreen, [.u16 c]⟩
  | .main c => ⟨.main, [.cfg c]⟩
  | .pwrctl i op bs d => cmdPacket .pwrctl op [.nat i, .bytes bs, .nat d]
  | .pixfmt i op bs d => cmdPacket .pixfmt op [.nat i, .bytes bs, .nat d]
  | .madctl i op d => cmdPacket .madctl op [.nat i, .nat d]
  | .slpout i op d => cmdPacket .slpout op [.nat i, .nat d]
  | .dispon i op d => cmdPacket .dispon op [.nat i, .nat d]
  | .colset op bs => cmdPacket .colset op [.bytes bs]
  | .rowset op bs => cmdPacket .rowset op [.bytes bs]
  | .memwr op => cmdPacket .memwr op []
  | .symCommand b => ⟨.sym (commandSymbol b), []⟩
  | .symData b => ⟨.sym (dataSymbol b), []⟩

/-- The operands whose every bit is zero; a list that must not be empty is one zero byte (DESIGN CHOICE, log 34). -/
def zeroOperands : ReqOp → List Operand
  | .boot => [.cfg .unset]
  | .init => []
  | .setWindow => [.u16 0, .u16 0, .u16 0, .u16 0]
  | .writePixels => [.pixels []]
  | .setPixels => [.u16 0, .u16 0, .u16 0, .u16 0, .pixels []]
  | .fillRect => [.u16 0, .u16 0, .u16 0, .u16 0, .u16 0]
  | .idle => []
  | .pinConstruct => [.pin .rst, .level .low]
  | .pinSetLow => [.pin .rst]
  | .pinSetHigh => [.pin .rst]
  | .spiConstruct => [.nat 0]
  | .spiWrite => [.bytes [0]]
  | .delayMs => [.nat 0]
  | .spiBegin => []
  | .spiXfer => [.bytes [0]]
  | .spiEnd => []
  | .sendCommand => [.u8 0, .bytes []]
  | .sendPixels => [.pixels []]
  | .resetPulse => []
  | .configure => []
  | .halt => []

/-- The packet of a word of the opcode table: 8 bits are a request code, 9 bits (16 in whole bytes) a wire symbol;
no packet where a bit above those is set (DESIGN CHOICE, log 23). -/
def tablePacket (nbits w : Nat) : Option Packet :=
  if nbits ≤ 8 then
    if w < 256 then
      some ⟨.req (BitVec.ofNat 8 w), ((reqOpOf (BitVec.ofNat 8 w)).map zeroOperands).getD []⟩
    else none
  else if nbits ≤ 16 then
    if w < 512 then some ⟨.sym (BitVec.ofNat 9 w), []⟩ else none
  else none

/-- The instruction the decoder reads from a word of the opcode table. -/
def decodeTableWord (nbits w : Nat) : Option Instr :=
  match tablePacket nbits w with
  | some p => (decode p).toOption
  | none => none

end Sys2Proof
end

