-- ==== Sys2Proof/Machine/State.lean ====
section
/-! DEFINITION. The state of the block as plain data (10_state.md), its value at power-on, the six fatal conditions
it records (60_exceptions.md R160), and the reasons a step of the model can end without a next state. -/
namespace Sys2Proof.Machine

/-- PHASE (10_state.md R11). -/
inductive Phase where
  | powerOn
  | uninitialized
  | resetting
  | configuringInterface
  | ready
  | halted
  deriving DecidableEq, Repr, Inhabited

/-- The fatal conditions the block records in FAULT (60_exceptions.md R160). -/
inductive FaultCode where
  | resourceUnavailable
  | invalidConfiguration
  | transferError
  | windowOutOfBounds
  | lengthMismatch
  | illegalState
  deriving DecidableEq, Repr, Inhabited

/-- The operations with a state check, as `IllegalState` names them (60_exceptions.md R160). -/
inductive CheckedOp where
  | boot
  | init
  | resetPulse
  | configure
  | setWindow
  | writePixels
  | setPixels
  | fillRect
  | idle
  deriving DecidableEq, Repr, Inhabited

/-- The info recorded with a fault code (60_exceptions.md R160). -/
inductive FaultInfo where
  | transport
  | clause (n : Nat)
  | transfer (k : Nat)
  | window (x0 y0 x1 y1 : U16)
  | lengths (given count : Nat)
  | operation (op : CheckedOp)
  | windowNotSet
  deriving DecidableEq, Repr, Inhabited

/-- The contents of FAULT when it is not `none` (10_state.md R15). -/
structure FaultRecord where
  code : FaultCode
  info : FaultInfo
  deriving DecidableEq, Repr, Inhabited

/-- The addressing window WIN (10_state.md R16). -/
structure Window where
  x0 : U16
  y0 : U16
  x1 : U16
  y1 : U16
  deriving DecidableEq, Repr, Inhabited

/-- PIN[RST], PIN[DC] and PIN[BL] (10_state.md R20). -/
structure Pins where
  rst : Level
  dc : Level
  bl : Level
  deriving DecidableEq, Repr, Inhabited

/-- The event alphabet of the output trace (00_scope.md R8). -/
inductive Event where
  | pin (p : Pin) (level : Level)
  | csAssert
  | csDeassert
  | xfer (dc : Level) (bytes : List Byte)
  | delay (ms : Nat)
  deriving DecidableEq, Repr, Inhabited

/-- The environment's answers (60_exceptions.md R163), inputs the block does not control: whether the construction
claim succeeds, and the transfers that fail, each as its number `k` and its prefix length (log 8). -/
structure Env where
  claimOk : Bool
  xferFaults : List (Nat × Nat)
  deriving DecidableEq, Repr, Inhabited

/-- Who issues a request (30_encoding.md R70: host-visible or internal; log 2). -/
inductive Issuer where
  | host
  | component
  deriving DecidableEq, Repr, Inhabited

/-- A request not yet accepted. -/
structure Request where
  issuer : Issuer
  packet : Packet
  deriving DecidableEq, Repr

/-- The scratch buffer's bytes: addresses strictly rising, no byte equal to what an unlisted address reads as. -/
abbrev Memory := List Host.Cell

/-- Everything the spec gives the block (10_state.md, summary table), the environment's answers, and the queue of
requests not yet accepted. -/
structure State where
  phase : Phase
  initIdx : Nat
  fault : Option FaultRecord
  cfg : Cfg
  win : Window
  winValid : Bool
  buf : Memory
  bufLen : Nat
  pins : Pins
  cs : ChipSelect
  trace : List Event
  xferCount : Nat
  env : Env
  idling : Bool
  requests : List Request
  deriving DecidableEq, Repr

/-- Faults of the model: the spec's own asserts, which no run from reset with requests of the host alone violates. -/
inductive Fault where
  /-- SPI_BEGIN (and SPI_WRITE, SEND_COMMAND, SEND_PIXELS and the panel commands through it) finds chip-select
  asserted: 40_pin_spi_delay.md R84 asks for a fault of the model. Safe. -/
  | chipSelectAsserted
  /-- SPI_XFER or SPI_END (or a symbol) finds chip-select deasserted: 40_pin_spi_delay.md R85, R87. Safe. -/
  | chipSelectDeasserted
  /-- SPI_XFER is handed no byte or more than BUF_SIZE bytes: 40_pin_spi_delay.md R85. Safe. -/
  | transferLength
  /-- A byte is stored at BUF[i] with i not below BUF_SIZE: there is no such byte (10_state.md R19). Safe. -/
  | bufferIndex
  deriving DecidableEq, Repr

/-- Why there is no step: the request is not accepted and nothing changes. -/
inductive Refusal where
  /-- An arm of exec without a meaning. Safe. No arm raises it. -/
  | notModelled (mnemonic : String)
  /-- The step finds a packet that is no instruction; a reserved code among them (30_encoding.md R72). Safe. -/
  | notAnInstruction (why : DecodeError)
  /-- The step finds an instruction outside its operand range: SPI_WRITE or SPI_XFER with no byte or more than
  BUF_SIZE bytes (30_encoding.md R70; log 25), BOOT or MAIN with a WINDOW_CMDS that R68 does not admit (log 12). Safe. -/
  | illFormed
  /-- The host requests an internal operation (30_encoding.md R72). Safe. -/
  | internalOperation
  /-- The host drives BL before BOOT has constructed it (60_exceptions.md R172; log 20). Safe. -/
  | pinNotConstructed
  /-- Any operation in Halted (43_window_pixels.md R152). Safe. -/
  | halted
  /-- Any operation after IDLE was accepted (43_window_pixels.md R150). Safe. -/
  | idling
  deriving DecidableEq, Repr

/-- What a shared operation of the block leaves: it went on, it raised a fault and the block is halted
(60_exceptions.md R168), or an assert of the spec is broken. -/
inductive Result where
  | ok (s : State)
  | raised (s : State)
  | broken (f : Fault)
  deriving DecidableEq, Repr

/-- The block at power-on (10_state.md R27). CFG.*, WIN.*, PIN[*] and CS hold no value in the spec: the values here
are DESIGN CHOICES (log 3 to log 6), unsafe; so are the environment's answers (log 8), the empty queue (log 1) and
`idling` (log 17). -/
def State.reset : State where
  phase := .powerOn
  initIdx := 0
  fault := none
  cfg := .unset
  win := ⟨0, 0, 0, 0⟩
  winValid := false
  buf := []
  bufLen := 0
  pins := ⟨.low, .low, .low⟩
  cs := .deasserted
  trace := []
  xferCount := 0
  env := ⟨true, []⟩
  idling := false
  requests := []

end Sys2Proof.Machine
end

