-- ==== Sys2Proof/Machine/Operands.lean ====
section
/-! DEFINITION. The operand forms and the computations on operands: bytes of 16-bit values, pixel bytes, window
commands, the memory-access-control byte, the bounds and the pixel count of a rectangle, the validity of a
configuration. -/
namespace Sys2Proof.Machine

/-- `v[15:8]`. -/
def hiByte (v : U16) : Byte := v.extractLsb' 8 8

/-- `v[7:0]`. -/
def loByte (v : U16) : Byte := v.extractLsb' 0 8

/-- The two wire bytes of a pixel, the first transferred first (20_memory.md R40). -/
def pixBytes (cfg : Cfg) (p : U16) : Byte × Byte :=
  if cfg.pixelMsbFirst then (hiByte p, loByte p) else (loByte p, hiByte p)

/-- The payload of a pixel sequence: two bytes a pixel, in sequence order (30_encoding.md R63). -/
def pixelPayload (cfg : Cfg) : List U16 → List Byte
  | [] => []
  | p :: ps => (pixBytes cfg p).1 :: (pixBytes cfg p).2 :: pixelPayload cfg ps

/-- The value of a coordinate of a window. -/
def coordOf (w : Window) : Coord → U16
  | .x0 => w.x0
  | .y0 => w.y0
  | .x1 => w.x1
  | .y1 => w.y1

/-- One parameter byte of a layout for a window. -/
def winByte (w : Window) : WinByte → Byte
  | .lit b => b
  | .hi c => hiByte (coordOf w c)
  | .lo c => loByte (coordOf w c)

/-- WINDOW_CMDS with its opcodes still named (30_encoding.md R66, R68; log 12). -/
def windowScheme (w : Window) : WindowScheme → List (WinCmd Byte)
  | .layout cmds => cmds.map fun c => ⟨c.opcode, c.params.map (winByte w)⟩
  | .free id => (Config.freeWindowCmds id).cmds w.x0 w.y0 w.x1 w.y1

/-- WINDOW_CMDS: the commands that set the panel's addressing window, COLSET and ROWSET with the opcodes OPC_COLSET and
OPC_ROWSET (30_encoding.md R66, R68). -/
def windowCmds (cfg : Cfg) (w : Window) : List Cmd :=
  (windowScheme w cfg.windowCmds).map (WinCmd.sent cfg.opcColset cfg.opcRowset)

/-- REF.WINDOW_CMDS (30_encoding.md R68). -/
def referenceWindow : WindowScheme :=
  .layout [⟨.colset, [.hi .x0, .lo .x0, .hi .x1, .lo .x1]⟩, ⟨.rowset, [.hi .y0, .lo .y0, .hi .y1, .lo .y1]⟩]

/-- The value of a finite function given as the list of its arguments and values, 0 where it lists none. -/
def madctlLookup (o : Orientation) (c : ColorOrder) : List ((Orientation × ColorOrder) × Byte) → Byte
  | [] => 0
  | ((o', c'), b) :: rest => if o' = o ∧ c' = c then b else madctlLookup o c rest

/-- MADCTL_ENC(orient, corder) of a configuration (30_encoding.md R69; log 13). -/
def madctlByte (cfg : Cfg) : Byte := madctlLookup cfg.orient cfg.corder cfg.madctlEnc

/-- The bounds predicate of a rectangle (43_window_pixels.md R141). -/
def inBounds (cfg : Cfg) (w : Window) : Bool :=
  decide (w.x0.toNat ≤ w.x1.toNat ∧ w.x1.toNat < cfg.width.toNat ∧
    w.y0.toNat ≤ w.y1.toNat ∧ w.y1.toNat < cfg.height.toNat)

/-- The pixel count of a rectangle, on `Nat` (43_window_pixels.md R141, R146). -/
def pixelCount (w : Window) : Nat :=
  (w.x1.toNat - w.x0.toNat + 1) * (w.y1.toNat - w.y0.toNat + 1)

/-- The rectangle of the whole screen: 0, 0, CFG.WIDTH-1, CFG.HEIGHT-1 (43_window_pixels.md R148). -/
def screen (cfg : Cfg) : Window := ⟨0, 0, cfg.width - 1, cfg.height - 1⟩

/-- The kinds after the leading PWRCTL entries. -/
def afterPwrctl : List EntryKind → List EntryKind
  | .pwrctl :: rest => afterPwrctl rest
  | ks => ks

/-- The kinds match PWRCTL+ PIXFMT MADCTL SLPOUT DISPON (42_controller_init.md R125). -/
def kindsOk : List EntryKind → Bool
  | .pwrctl :: rest => decide (afterPwrctl rest = [.pixfmt, .madctl, .slpout, .dispon])
  | _ => false

/-- The parameters the kind of an entry asks for (42_controller_init.md R125). -/
def entryParamsOk (cfg : Cfg) (e : InitEntry) : Bool :=
  match e.kind with
  | .pwrctl => true
  | .pixfmt => true
  | .madctl => decide (e.params = [madctlByte cfg])
  | .slpout => decide (e.params = [])
  | .dispon => decide (e.params = [])

/-- A well-formed init table (42_controller_init.md R125). -/
def tableOk (cfg : Cfg) : Bool :=
  kindsOk (cfg.initTable.map (·.kind)) && cfg.initTable.all (entryParamsOk cfg)

/-- The first clause of valid(cfg) that fails (42_controller_init.md R120). -/
def firstFailingClause (cfg : Cfg) : Option Nat :=
  if ¬ (1 ≤ cfg.width.toNat ∧ 1 ≤ cfg.height.toNat) then some 1
  else if ¬ (2 ≤ cfg.bufSize ∧ cfg.bufSize % 2 = 0) then some 2
  else if tableOk cfg = false then some 3
  else if cfg.pixelBits ≠ 16 then some 4
  else none

/-- The DC level of command parameters' class is PARAM_DC; the level of a class (30_encoding.md R64). -/
inductive ByteClass where
  | command
  | data
  deriving DecidableEq, Repr

/-- The DC pin mux: low = command, high = data (30_encoding.md R64). -/
def dcLevel : ByteClass → Level
  | .command => .low
  | .data => .high

/-- The number of a fault code (60_exceptions.md R160). -/
def faultNumber : FaultCode → Nat
  | .resourceUnavailable => 1
  | .invalidConfiguration => 2
  | .transferError => 3
  | .windowOutOfBounds => 4
  | .lengthMismatch => 5
  | .illegalState => 6

/-- The other level. -/
def opposite : Level → Level
  | .low => .high
  | .high => .low

/-- The physical level of the chip-select line (10_state.md R22). -/
def csLevel (cfg : Cfg) : ChipSelect → Level
  | .asserted => cfg.csActiveLevel
  | .deasserted => opposite cfg.csActiveLevel

end Sys2Proof.Machine
end

