-- ==== Sys2Proof/Machine/Ops.lean ====
section
/-! DEFINITION. The named operations over state: sequencing, raising a fault, the scratch buffer, the pins, the
environment's answers, and which requests are accepted. -/
namespace Sys2Proof.Machine

/-- One operation after another: nothing runs after a raise (60_exceptions.md R168) or a broken assert. -/
def Result.andThen (r : Result) (f : State → Result) : Result :=
  match r with
  | .ok s => f s
  | .raised s => .raised s
  | .broken e => .broken e

/-- A raise is a next state: the halted one. -/
def Result.outcome (r : Result) : Host.Outcome State Fault Refusal :=
  match r with
  | .ok s => .next s
  | .raised s => .next s
  | .broken e => .fault e

/-- `emit(e)` (00_scope.md R8). -/
def emit (e : Event) (s : State) : State := { s with trace := s.trace ++ [e] }

/-- HALT's effect on the state (43_window_pixels.md R152). -/
def enterHalt (s : State) : State := { s with phase := .halted }

/-- `raise F(info)`, the only trap mechanism: the first fault is kept, the block halts (60_exceptions.md R168). -/
def raise (code : FaultCode) (info : FaultInfo) (s : State) : Result :=
  .raised (enterHalt { s with fault := some (s.fault.getD ⟨code, info⟩) })

/-- An operation is accepted unless the block is halted (43_window_pixels.md R152) or IDLE runs (R150). -/
def admitted (body : State → Result) (s : State) : Host.Outcome State Fault Refusal :=
  if s.phase = .halted then .refused .halted
  else if s.idling then .refused .idling
  else (body s).outcome

/-- The byte at an address; an unlisted address reads 0 (DESIGN CHOICE, log 7, unsafe: 10_state.md R19 gives none). -/
def Memory.read (m : Memory) (a : Nat) : Byte :=
  match m with
  | [] => 0
  | c :: rest => if c.1 = a then c.2 else Memory.read rest a

/-- A memory without the entry of an address. -/
def Memory.erase (m : Memory) (a : Nat) : Memory :=
  match m with
  | [] => []
  | c :: rest => if c.1 = a then Memory.erase rest a else c :: Memory.erase rest a

/-- An entry put at its place in a rising list. -/
def Memory.insert (m : Memory) (a : Nat) (b : Byte) : Memory :=
  match m with
  | [] => [(a, b)]
  | c :: rest => if a < c.1 then (a, b) :: c :: rest else c :: Memory.insert rest a b

/-- `BUF[a] <- b`: writing what an unlisted address reads as removes the entry. -/
def Memory.write (m : Memory) (a : Nat) (b : Byte) : Memory :=
  if b = 0 then m.erase a else (m.erase a).insert a b

/-- The canonical form: addresses strictly rising, no entry equal to what an unlisted address reads as. -/
abbrev Memory.wf (m : Memory) : Prop :=
  m.Pairwise (fun c d => c.1 < d.1) ∧ ∀ c ∈ m, c.2 ≠ 0

/-- `BUF[0:n]` in index order (20_memory.md R41). -/
def Memory.slice (m : Memory) (n : Nat) : List Byte := (List.range n).map m.read

/-- `BUF[BUF_LEN] <- b ; BUF_LEN <- BUF_LEN + 1` (41_framer.md R102); there is no byte at BUF_SIZE and above. -/
def bufStore (b : Byte) (s : State) : Result :=
  if s.bufLen < s.cfg.bufSize then .ok { s with buf := s.buf.write s.bufLen b, bufLen := s.bufLen + 1 }
  else .broken .bufferIndex

/-- The pins with one level written. -/
def Pins.set (ps : Pins) (p : Pin) (v : Level) : Pins :=
  match p with
  | .rst => { ps with rst := v }
  | .dc => { ps with dc := v }
  | .bl => { ps with bl := v }

/-- The level of a pin. -/
def Pins.get (ps : Pins) : Pin → Level
  | .rst => ps.rst
  | .dc => ps.dc
  | .bl => ps.bl

/-- `pin[p] <- v`: the event is emitted even when the level does not change (40_pin_spi_delay.md R81, R82). -/
def setPin (p : Pin) (v : Level) (s : State) : State :=
  emit (.pin p v) { s with pins := s.pins.set p v }

/-- PIN_CONSTRUCT: no event; chip-select is handed to the transport (40_pin_spi_delay.md R80). -/
def constructPin (p : PinRole) (v : Level) (s : State) : State :=
  match p with
  | .rst => { s with pins := s.pins.set .rst v }
  | .dc => { s with pins := s.pins.set .dc v }
  | .bl => { s with pins := s.pins.set .bl v }
  | .cs => s

/-- `delay_ms(n)` (40_pin_spi_delay.md R88). -/
def delay (n : Nat) (s : State) : State := emit (.delay n) s

/-- The entry of a number in the list of failing transfers. -/
def faultEntry (k : Nat) : List (Nat × Nat) → Option Nat
  | [] => none
  | f :: rest => if f.1 = k then some f.2 else faultEntry k rest

/-- Env.xfer_ok(k) is `none`; otherwise Env.xfer_prefix(k) (60_exceptions.md R163). -/
def Env.xferFault (env : Env) (k : Nat) : Option Nat := faultEntry k env.xferFaults

/-- Which instructions the host may request (30_encoding.md R70): the host-visible operations, the
pseudo-operations made of them, and the set calls of the one pin the host owns. -/
def hostVisible : Instr → Bool
  | .boot _ => true
  | .init => true
  | .setWindow _ _ _ _ => true
  | .writePixels _ => true
  | .setPixels _ _ _ _ _ => true
  | .fillRect _ _ _ _ _ => true
  | .idle => true
  | .pinSetLow p => decide (p = .bl)
  | .pinSetHigh p => decide (p = .bl)
  | .fillScreen _ => true
  | .main _ => true
  | .pinConstruct _ _ => false
  | .spiConstruct _ => false
  | .spiWrite _ => false
  | .delayMs _ => false
  | .spiBegin => false
  | .spiXfer _ => false
  | .spiEnd => false
  | .sendCommand _ _ => false
  | .sendPixels _ => false
  | .resetPulse => false
  | .configure => false
  | .halt => false
  | .pwrctl _ _ _ _ => false
  | .pixfmt _ _ _ _ => false
  | .madctl _ _ _ => false
  | .slpout _ _ _ => false
  | .dispon _ _ _ => false
  | .colset _ _ => false
  | .rowset _ _ => false
  | .memwr _ => false
  | .symCommand _ => false
  | .symData _ => false

/-- A set call of a pin, the one host-visible kind that needs a phase from Uninitialized on (60_exceptions.md R172). -/
def isPinSet : Instr → Bool
  | .pinSetLow _ => true
  | .pinSetHigh _ => true
  | _ => false

/-- The instruction a request asks for, or why it is refused with no step (30_encoding.md R72). -/
def requested (r : Request) (s : State) : Except Refusal Instr :=
  match decode r.packet with
  | .error e => .error (.notAnInstruction e)
  | .ok i =>
    if i.wellFormed s.cfg.bufSize = false then .error .illFormed
    else if r.issuer = .host ∧ hostVisible i = false then .error .internalOperation
    else if r.issuer = .host ∧ isPinSet i = true ∧ s.phase = .powerOn then .error .pinNotConstructed
    else .ok i

/-- What the block does when no request waits: HALT's no-op loop, IDLE's heartbeat, or nothing
(43_window_pixels.md R150, R152; log 17 to log 19). -/
def quiet (s : State) : State :=
  if s.phase = .halted then s
  else if s.idling then delay s.cfg.idleMs s
  else s

/-- A request for a packet's instruction by whoever may issue it. -/
def requestFor (p : Packet) : Request :=
  match decode p with
  | .ok i => ⟨if hostVisible i then .host else .component, p⟩
  | .error _ => ⟨.host, p⟩

end Sys2Proof.Machine
end

