-- ==== Sys2Proof/Machine/Flags.lean ====
section
/-! DEFINITION. The checks an operation makes on state. There are no condition codes (10_state.md R18): the only
bits an operation tests are PHASE, FAULT and WIN_VALID. -/
namespace Sys2Proof.Machine

/-- `require c else F(info)` (00_scope.md R8). -/
def require (c : Bool) (code : FaultCode) (info : FaultInfo) (body : State → Result) (s : State) : Result :=
  if c then body s else raise code info s

/-- `require PHASE = ph else IllegalState(op)` (60_exceptions.md R160). -/
def requirePhase (ph : Phase) (op : CheckedOp) (body : State → Result) (s : State) : Result :=
  require (decide (s.phase = ph)) .illegalState (.operation op) body s

/-- `require WIN_VALID else IllegalState(WindowNotSet)` (43_window_pixels.md R142). -/
def requireWindow (body : State → Result) (s : State) : Result :=
  require s.winValid .illegalState .windowNotSet body s

/-- `require in_bounds(w) else WindowOutOfBounds(w)` (43_window_pixels.md R140). -/
def requireInBounds (w : Window) (body : State → Result) (s : State) : Result :=
  require (inBounds s.cfg w) .windowOutOfBounds (.window w.x0 w.y0 w.x1 w.y1) body s

/-- `require len(pixels) = n else LengthMismatch(len(pixels), n)` (43_window_pixels.md R142). -/
def requireCount (given n : Nat) (body : State → Result) (s : State) : Result :=
  require (decide (given = n)) .lengthMismatch (.lengths given n) body s

end Sys2Proof.Machine
end

