-- ==== Sys2Proof/Machine/Transport.lean ====
section
/-! DEFINITION. The pin, transport and delay operations (40_pin_spi_delay.md). None of them checks PHASE (R89). -/
namespace Sys2Proof.Machine

/-- SPI_CONSTRUCT: no rule reads its operand (40_pin_spi_delay.md R83). -/
def constructSpi (s : State) : Result :=
  if s.env.claimOk then .ok { s with cs := .deasserted }
  else raise .resourceUnavailable .transport s

/-- `cs_assert()` (40_pin_spi_delay.md R84). -/
def csAssert (s : State) : Result :=
  match s.cs with
  | .deasserted => .ok (emit .csAssert { s with cs := .asserted })
  | .asserted => .broken .chipSelectAsserted

/-- `cs_deassert()` (40_pin_spi_delay.md R87). -/
def csDeassert (s : State) : Result :=
  match s.cs with
  | .asserted => .ok (emit .csDeassert { s with cs := .deasserted })
  | .deasserted => .broken .chipSelectDeasserted

/-- What a failing transfer puts on the wire: the bytes before the fault, if any (40_pin_spi_delay.md R85). -/
def emitPrefix (bytes : List Byte) (s : State) : State :=
  if bytes = [] then s else emit (.xfer s.pins.dc bytes) s

/-- The state at a TransferError: the transfer was made, chip-select holds no value (60_exceptions.md R164; log 10). -/
def transferFailed (k : Nat) (s : State) : Result :=
  raise .transferError (.transfer k) { s with cs := Config.csAfterFault k, xferCount := k + 1 }

/-- `xfer(bytes)` (40_pin_spi_delay.md R85). -/
def xfer (bytes : List Byte) (s : State) : Result :=
  if s.cs = .deasserted then .broken .chipSelectDeasserted
  else if bytes.length = 0 ∨ s.cfg.bufSize < bytes.length then .broken .transferLength
  else
    match s.env.xferFault s.xferCount with
    | none => .ok (emit (.xfer s.pins.dc bytes) { s with xferCount := s.xferCount + 1 })
    | some j => transferFailed s.xferCount (emitPrefix (bytes.take j) s)

/-- PIN_CONSTRUCT p, level (40_pin_spi_delay.md R80). -/
def execPinConstruct (p : PinRole) (level : Level) (s : State) : Host.Outcome State Fault Refusal :=
  admitted (fun s => .ok (constructPin p level s)) s

/-- PIN_SET_LOW p (40_pin_spi_delay.md R81). -/
def execPinSetLow (p : Pin) (s : State) : Host.Outcome State Fault Refusal :=
  admitted (fun s => .ok (setPin p .low s)) s

/-- PIN_SET_HIGH p (40_pin_spi_delay.md R82). -/
def execPinSetHigh (p : Pin) (s : State) : Host.Outcome State Fault Refusal :=
  admitted (fun s => .ok (setPin p .high s)) s

/-- SPI_CONSTRUCT spi_cfg (40_pin_spi_delay.md R83). -/
def execSpiConstruct (_spiCfg : Nat) (s : State) : Host.Outcome State Fault Refusal :=
  admitted constructSpi s

/-- SPI_WRITE bytes = SPI_BEGIN ; SPI_XFER bytes ; SPI_END (40_pin_spi_delay.md R86). -/
def execSpiWrite (bytes : List Byte) (s : State) : Host.Outcome State Fault Refusal :=
  admitted (fun s => ((csAssert s).andThen (xfer bytes)).andThen csDeassert) s

/-- DELAY_MS n (40_pin_spi_delay.md R88). -/
def execDelayMs (n : Nat) (s : State) : Host.Outcome State Fault Refusal :=
  admitted (fun s => .ok (delay n s)) s

/-- SPI_BEGIN (40_pin_spi_delay.md R84). -/
def execSpiBegin (s : State) : Host.Outcome State Fault Refusal :=
  admitted csAssert s

/-- SPI_XFER bytes (40_pin_spi_delay.md R85). -/
def execSpiXfer (bytes : List Byte) (s : State) : Host.Outcome State Fault Refusal :=
  admitted (xfer bytes) s

/-- SPI_END (40_pin_spi_delay.md R87). -/
def execSpiEnd (s : State) : Host.Outcome State Fault Refusal :=
  admitted csDeassert s

end Sys2Proof.Machine
end

