-- ==== Sys2Proof/Machine/Framer.lean ====
section
/-! DEFINITION. The framing layer (41_framer.md): the chunking loop, SEND_COMMAND and SEND_PIXELS. -/
namespace Sys2Proof.Machine

/-- `xfer(BUF[0:BUF_LEN]) ; BUF_LEN <- 0` (41_framer.md R102). -/
def flush (s : State) : Result :=
  (xfer (s.buf.slice s.bufLen) s).andThen fun s => .ok { s with bufLen := 0 }

/-- `if BUF_LEN = BUF_SIZE then` flush (41_framer.md R102). -/
def flushIfFull (s : State) : Result :=
  if s.bufLen = s.cfg.bufSize then flush s else .ok s

/-- `if BUF_LEN > 0 then` flush (41_framer.md R102). -/
def flushRest (s : State) : Result :=
  if 0 < s.bufLen then flush s else .ok s

/-- The loop of `stream_bytes` (41_framer.md R102). -/
def putBytes : List Byte → State → Result
  | [], s => .ok s
  | b :: bs, s => ((bufStore b s).andThen flushIfFull).andThen (putBytes bs)

/-- `stream_bytes(bytes)` (41_framer.md R102). -/
def streamBytes (bytes : List Byte) (s : State) : Result :=
  (putBytes bytes s).andThen flushRest

/-- The loop of SEND_PIXELS: two bytes a pixel, then the check for a full buffer (41_framer.md R104). -/
def putPixels : List U16 → State → Result
  | [], s => .ok s
  | p :: ps, s =>
    (((bufStore (pixBytes s.cfg p).1 s).andThen (bufStore (pixBytes s.cfg p).2)).andThen flushIfFull).andThen
      (putPixels ps)

/-- The pixel stream of SEND_PIXELS between chip-select's two edges (41_framer.md R104). -/
def streamPixels (pixels : List U16) (s : State) : Result :=
  (putPixels pixels s).andThen flushRest

/-- The parameters of a command when PARAM_DC = high: DC is raised once, if there are any (41_framer.md R101). -/
def streamDataParams (params : List Byte) (s : State) : Result :=
  if params = [] then .ok s else streamBytes params (setPin .dc .high s)

/-- The bytes of a command between chip-select's two edges (41_framer.md R101). -/
def streamCommand (opcode : Byte) (params : List Byte) (s : State) : Result :=
  match s.cfg.paramDc with
  | .low => streamBytes (opcode :: params) s
  | .high => (streamBytes [opcode] s).andThen (streamDataParams params)

/-- SEND_COMMAND as the other operations use it (41_framer.md R101). -/
def sendCommand (opcode : Byte) (params : List Byte) (s : State) : Result :=
  ((csAssert (setPin .dc .low s)).andThen (streamCommand opcode params)).andThen csDeassert

/-- SEND_PIXELS as the other operations use it (41_framer.md R104). -/
def sendPixels (pixels : List U16) (s : State) : Result :=
  ((csAssert (setPin .dc .high s)).andThen (streamPixels pixels)).andThen csDeassert

/-- SEND_COMMAND for every command of a list, in order. -/
def sendCommands : List Cmd → State → Result
  | [], s => .ok s
  | c :: cs, s => (sendCommand c.opcode c.params s).andThen (sendCommands cs)

/-- SEND_COMMAND opcode, params (41_framer.md R101). -/
def execSendCommand (opcode : Byte) (params : List Byte) (s : State) : Host.Outcome State Fault Refusal :=
  admitted (sendCommand opcode params) s

/-- SEND_PIXELS pixels (41_framer.md R104). -/
def execSendPixels (pixels : List U16) (s : State) : Host.Outcome State Fault Refusal :=
  admitted (sendPixels pixels) s

end Sys2Proof.Machine
end

