-- ==== Sys2Proof/Machine/Controller.lean ====
section
/-! DEFINITION. Construction and the init state machine (42_controller_init.md): BOOT, INIT, RESET_PULSE, CONFIGURE,
and HALT (43_window_pixels.md R152). -/
namespace Sys2Proof.Machine

/-- PIN_CONSTRUCT of the four pins, in the order of 42_controller_init.md R120. -/
def constructPins (cfg : Cfg) (s : State) : State :=
  constructPin .cs (opposite cfg.csActiveLevel)
    (constructPin .bl cfg.blInit (constructPin .dc cfg.dcInit (constructPin .rst cfg.rstInit s)))

/-- `require valid(cfg) else InvalidConfiguration(first failing clause)` (42_controller_init.md R120). -/
def requireValid (cfg : Cfg) (body : State → Result) (s : State) : Result :=
  match firstFailingClause cfg with
  | none => body s
  | some n => raise .invalidConfiguration (.clause n) s

/-- BOOT as MAIN uses it (42_controller_init.md R120). -/
def boot (cfg : Cfg) (s : State) : Result :=
  requirePhase .powerOn .boot
    (requireValid cfg fun s =>
      (constructSpi (constructPins cfg s)).andThen fun s => .ok { s with cfg := cfg, phase := .uninitialized })
    s

/-- The pulse and the settle delay of RESET_PULSE (42_controller_init.md R123). -/
def pulse (s : State) : State :=
  delay s.cfg.resetSettleMs (setPin .rst .high (delay s.cfg.resetLowMs (setPin .rst .low s)))

/-- RESET_PULSE as INIT uses it (42_controller_init.md R123). -/
def resetPulse (s : State) : Result :=
  requirePhase .uninitialized .resetPulse (fun s => .ok (pulse { s with phase := .resetting })) s

/-- The post-delay of an entry; 0 emits no event (42_controller_init.md R124). -/
def postDelay (ms : Nat) (s : State) : State :=
  if 0 < ms then delay ms s else s

/-- One round of CONFIGURE's loop (42_controller_init.md R124). -/
def sendEntry (idx : Nat) (opcode : Byte) (params : List Byte) (postDelayMs : Nat) (s : State) : Result :=
  (sendCommand opcode params { s with initIdx := idx }).andThen fun s => .ok (postDelay postDelayMs s)

/-- CONFIGURE's loop from entry `idx` on (42_controller_init.md R124). -/
def sendEntries : Nat → List InitEntry → State → Result
  | _, [], s => .ok s
  | idx, e :: es, s => (sendEntry idx e.opcode e.params e.postDelayMs s).andThen (sendEntries (idx + 1) es)

/-- CONFIGURE as INIT uses it: the table is evaluated once (42_controller_init.md R124). -/
def configure (s : State) : Result :=
  requirePhase .resetting .configure
    (fun s => (sendEntries 0 s.cfg.initTable { s with phase := .configuringInterface }).andThen fun t =>
      .ok { t with initIdx := s.cfg.initTable.length, phase := .ready })
    s

/-- INIT as MAIN uses it (42_controller_init.md R122). -/
def initialise (s : State) : Result :=
  requirePhase .uninitialized .init (fun s => (resetPulse s).andThen configure) s

/-- BOOT cfg (42_controller_init.md R120). -/
def execBoot (cfg : Cfg) (s : State) : Host.Outcome State Fault Refusal :=
  admitted (boot cfg) s

/-- INIT (42_controller_init.md R122). -/
def execInit (s : State) : Host.Outcome State Fault Refusal :=
  admitted initialise s

/-- RESET_PULSE (42_controller_init.md R123). -/
def execResetPulse (s : State) : Host.Outcome State Fault Refusal :=
  admitted resetPulse s

/-- CONFIGURE (42_controller_init.md R124). -/
def execConfigure (s : State) : Host.Outcome State Fault Refusal :=
  admitted configure s

/-- HALT: PHASE <- Halted; the endless loop is what the block does in Halted (43_window_pixels.md R152; log 26). -/
def execHalt (s : State) : Host.Outcome State Fault Refusal :=
  admitted (fun s => .ok (enterHalt s)) s

end Sys2Proof.Machine
end

