-- ==== Sys2Proof/Machine/Drawing.lean ====
section
/-! DEFINITION. Window addressing, pixel write, frame fill and idle (43_window_pixels.md), and the two
pseudo-operations (30_encoding.md R75). -/
namespace Sys2Proof.Machine

/-- SET_WINDOW as the other operations use it (43_window_pixels.md R140). -/
def setWindow (w : Window) (s : State) : Result :=
  requirePhase .ready .setWindow
    (requireInBounds w fun s =>
      (sendCommands (windowCmds s.cfg w) { s with winValid := false, win := w }).andThen fun s =>
        .ok { s with winValid := true })
    s

/-- WRITE_PIXELS as the other operations use it (43_window_pixels.md R142). -/
def writePixels (pixels : List U16) (s : State) : Result :=
  requirePhase .ready .writePixels
    (requireWindow fun s =>
      requireCount pixels.length (pixelCount s.win)
        (fun s => (sendCommand s.cfg.opcMemwr [] { s with winValid := false }).andThen (sendPixels pixels))
        s)
    s

/-- SET_PIXELS as the other operations use it (43_window_pixels.md R144). -/
def setPixels (w : Window) (pixels : List U16) (s : State) : Result :=
  requirePhase .ready .setPixels
    (requireInBounds w
      (requireCount pixels.length (pixelCount w) fun s => (setWindow w s).andThen (writePixels pixels)))
    s

/-- FILL_RECT as the pseudo-operations use it (43_window_pixels.md R147). -/
def fillRect (w : Window) (color : U16) (s : State) : Result :=
  requirePhase .ready .fillRect
    (requireInBounds w (setPixels w (List.replicate (pixelCount w) color)))
    s

/-- FILL_SCREEN as MAIN uses it (43_window_pixels.md R148). -/
def fillScreen (color : U16) (s : State) : Result :=
  fillRect (screen s.cfg) color s

/-- IDLE as MAIN uses it: it never completes; the heartbeat is what the block does from then on
(43_window_pixels.md R150; log 17). -/
def idle (s : State) : Result :=
  requirePhase .ready .idle (fun s => .ok { s with idling := true }) s

/-- SET_WINDOW x0, y0, x1, y1 (43_window_pixels.md R140). -/
def execSetWindow (x0 y0 x1 y1 : U16) (s : State) : Host.Outcome State Fault Refusal :=
  admitted (setWindow ⟨x0, y0, x1, y1⟩) s

/-- WRITE_PIXELS pixels (43_window_pixels.md R142). -/
def execWritePixels (pixels : List U16) (s : State) : Host.Outcome State Fault Refusal :=
  admitted (writePixels pixels) s

/-- SET_PIXELS x0, y0, x1, y1, pixels (43_window_pixels.md R144). -/
def execSetPixels (x0 y0 x1 y1 : U16) (pixels : List U16) (s : State) : Host.Outcome State Fault Refusal :=
  admitted (setPixels ⟨x0, y0, x1, y1⟩ pixels) s

/-- FILL_RECT x0, y0, x1, y1, color (43_window_pixels.md R147). -/
def execFillRect (x0 y0 x1 y1 color : U16) (s : State) : Host.Outcome State Fault Refusal :=
  admitted (fillRect ⟨x0, y0, x1, y1⟩ color) s

/-- IDLE (43_window_pixels.md R150). -/
def execIdle (s : State) : Host.Outcome State Fault Refusal :=
  admitted idle s

/-- FILL_SCREEN color (43_window_pixels.md R148). -/
def execFillScreen (color : U16) (s : State) : Host.Outcome State Fault Refusal :=
  admitted (fillScreen color) s

/-- MAIN cfg = BOOT cfg ; INIT ; FILL_SCREEN FILL_COLOR ; IDLE (43_window_pixels.md R151). -/
def execMain (cfg : Cfg) (s : State) : Host.Outcome State Fault Refusal :=
  admitted (fun s => (((boot cfg s).andThen initialise).andThen (fillScreen cfg.fillColor)).andThen idle) s

end Sys2Proof.Machine
end

