-- ==== Sys2Proof/Machine/PanelCommands.lean ====
section
/-! DEFINITION. The panel command kinds (30_encoding.md R66) as the block sends them: an init-table kind is one
round of CONFIGURE's loop, a window or memory-write kind one SEND_COMMAND (log 21). -/
namespace Sys2Proof.Machine

/-- PWRCTL entry (42_controller_init.md R126). -/
def execPwrctl (idx : Nat) (opcode : Byte) (params : List Byte) (postDelayMs : Nat) (s : State) :
    Host.Outcome State Fault Refusal :=
  admitted (sendEntry idx opcode params postDelayMs) s

/-- PIXFMT entry (42_controller_init.md R127). -/
def execPixfmt (idx : Nat) (opcode : Byte) (params : List Byte) (postDelayMs : Nat) (s : State) :
    Host.Outcome State Fault Refusal :=
  admitted (sendEntry idx opcode params postDelayMs) s

/-- MADCTL entry: exactly one parameter byte, MADCTL_ENC(CFG.ORIENT, CFG.CORDER) (42_controller_init.md R128). -/
def execMadctl (idx : Nat) (opcode : Byte) (postDelayMs : Nat) (s : State) : Host.Outcome State Fault Refusal :=
  admitted (fun s => sendEntry idx opcode [madctlByte s.cfg] postDelayMs s) s

/-- SLPOUT entry: no parameters (42_controller_init.md R129). -/
def execSlpout (idx : Nat) (opcode : Byte) (postDelayMs : Nat) (s : State) : Host.Outcome State Fault Refusal :=
  admitted (sendEntry idx opcode [] postDelayMs) s

/-- DISPON entry: no parameters (42_controller_init.md R130). -/
def execDispon (idx : Nat) (opcode : Byte) (postDelayMs : Nat) (s : State) : Host.Outcome State Fault Refusal :=
  admitted (sendEntry idx opcode [] postDelayMs) s

/-- COLSET, the x extent of the addressing window (30_encoding.md R66). -/
def execColset (opcode : Byte) (params : List Byte) (s : State) : Host.Outcome State Fault Refusal :=
  admitted (sendCommand opcode params) s

/-- ROWSET, the y extent of the addressing window (30_encoding.md R66). -/
def execRowset (opcode : Byte) (params : List Byte) (s : State) : Host.Outcome State Fault Refusal :=
  admitted (sendCommand opcode params) s

/-- MEMWR, the pixel-write command, without parameters (30_encoding.md R66, 43_window_pixels.md R142). -/
def execMemwr (opcode : Byte) (s : State) : Host.Outcome State Fault Refusal :=
  admitted (sendCommand opcode []) s

end Sys2Proof.Machine
end

