-- ==== Sys2Proof/Machine/Symbols.lean ====
section
/-! DEFINITION. The wire symbols (30_encoding.md R60): one byte transferred with the DC line at its class's level. -/
namespace Sys2Proof.Machine

/-- One symbol inside the open transaction; outside a transaction none is ever sent (30_encoding.md R61). The sequencer
writes PIN[DC] before the transfer (R64), and reads no level to decide it (10_state.md R20, 40_pin_spi_delay.md R89). A
set call for every symbol is a DESIGN CHOICE (log 22), safe. -/
def sendSymbol (c : ByteClass) (b : Byte) (s : State) : Result :=
  xfer [b] (setPin .dc (dcLevel c) s)

/-- SYM_COMMAND: the byte with the DC line low (30_encoding.md R60). -/
def execSymCommand (b : Byte) (s : State) : Host.Outcome State Fault Refusal :=
  admitted (sendSymbol .command b) s

/-- SYM_DATA: the byte with the DC line high (30_encoding.md R60). -/
def execSymData (b : Byte) (s : State) : Host.Outcome State Fault Refusal :=
  admitted (sendSymbol .data b) s

end Sys2Proof.Machine
end

