-- ==== Sys2Proof/Machine/Dispatch.lean ====
section
/-! DEFINITION. The dispatch: one arm per instruction, each one direct call of its meaning. -/
namespace Sys2Proof.Machine

def exec (i : Instr) (s : State) : Host.Outcome State Fault Refusal :=
  match i with
  | .boot cfg => Sys2Proof.Machine.execBoot cfg s
  | .init => Sys2Proof.Machine.execInit s
  | .setWindow x0 y0 x1 y1 => Sys2Proof.Machine.execSetWindow x0 y0 x1 y1 s
  | .writePixels pixels => Sys2Proof.Machine.execWritePixels pixels s
  | .setPixels x0 y0 x1 y1 pixels => Sys2Proof.Machine.execSetPixels x0 y0 x1 y1 pixels s
  | .fillRect x0 y0 x1 y1 color => Sys2Proof.Machine.execFillRect x0 y0 x1 y1 color s
  | .idle => Sys2Proof.Machine.execIdle s
  | .pinConstruct p level => Sys2Proof.Machine.execPinConstruct p level s
  | .pinSetLow p => Sys2Proof.Machine.execPinSetLow p s
  | .pinSetHigh p => Sys2Proof.Machine.execPinSetHigh p s
  | .spiConstruct spiCfg => Sys2Proof.Machine.execSpiConstruct spiCfg s
  | .spiWrite bytes => Sys2Proof.Machine.execSpiWrite bytes s
  | .delayMs n => Sys2Proof.Machine.execDelayMs n s
  | .spiBegin => Sys2Proof.Machine.execSpiBegin s
  | .spiXfer bytes => Sys2Proof.Machine.execSpiXfer bytes s
  | .spiEnd => Sys2Proof.Machine.execSpiEnd s
  | .sendCommand opcode params => Sys2Proof.Machine.execSendCommand opcode params s
  | .sendPixels pixels => Sys2Proof.Machine.execSendPixels pixels s
  | .resetPulse => Sys2Proof.Machine.execResetPulse s
  | .configure => Sys2Proof.Machine.execConfigure s
  | .halt => Sys2Proof.Machine.execHalt s
  | .fillScreen color => Sys2Proof.Machine.execFillScreen color s
  | .main cfg => Sys2Proof.Machine.execMain cfg s
  | .pwrctl idx opcode params postDelayMs => Sys2Proof.Machine.execPwrctl idx opcode params postDelayMs s
  | .pixfmt idx opcode params postDelayMs => Sys2Proof.Machine.execPixfmt idx opcode params postDelayMs s
  | .madctl idx opcode postDelayMs => Sys2Proof.Machine.execMadctl idx opcode postDelayMs s
  | .slpout idx opcode postDelayMs => Sys2Proof.Machine.execSlpout idx opcode postDelayMs s
  | .dispon idx opcode postDelayMs => Sys2Proof.Machine.execDispon idx opcode postDelayMs s
  | .colset opcode params => Sys2Proof.Machine.execColset opcode params s
  | .rowset opcode params => Sys2Proof.Machine.execRowset opcode params s
  | .memwr opcode => Sys2Proof.Machine.execMemwr opcode s
  | .symCommand b => Sys2Proof.Machine.execSymCommand b s
  | .symData b => Sys2Proof.Machine.execSymData b s

end Sys2Proof.Machine
end

