-- ==== Sys2Proof/Machine/Step.lean ====
section
/-! DEFINITION. One step: the block takes the next request and runs it to completion (20_memory.md R50); without a
request it does what `quiet` says. -/
namespace Sys2Proof.Machine

def step (s : State) : Host.Outcome State Fault Refusal :=
  match s.requests with
  | [] => .next (quiet s)
  | r :: rest =>
    match requested r s with
    | .ok i => exec i { s with requests := rest }
    | .error why => .refused why

/-- `s` with a word of the opcode table as its next request, issued by whoever may issue it (log 1, log 2). A word
that is no packet leaves `s` as it is. -/
def State.withFetchWord (s : State) (nbits w : Nat) : State :=
  match tablePacket nbits w with
  | some p => { s with requests := requestFor p :: s.requests }
  | none => s

end Sys2Proof.Machine
end

