-- ==== Sys2Proof/Machine/Trace.lean ====
section
/-! DEFINITION. The views of the output trace (00_scope.md R8), the transaction formats (30_encoding.md R62, R63) as
lists of events, and the replay of a trace on the wires. -/
namespace Sys2Proof.Machine

/-- A wire symbol: a byte with the level of the DC line while it is transferred (30_encoding.md R60). -/
structure Sym where
  dc : Level
  byte : Byte
  deriving DecidableEq, Repr

/-- The 9-bit word of a symbol: bit 8 the DC level, bits 7:0 the byte (30_encoding.md R60). -/
def symWord (y : Sym) : BitVec 9 :=
  match y.dc with
  | .low => commandSymbol y.byte
  | .high => dataSymbol y.byte

/-- An item of the view `wire`. -/
inductive WireItem where
  | sym (y : Sym)
  | event (e : Event)
  deriving DecidableEq, Repr

/-- `wire(T)`: each transfer replaced by its symbols; chunk boundaries are forgotten (00_scope.md R8). -/
def wire : List Event → List WireItem
  | [] => []
  | .xfer dc bytes :: es => bytes.map (fun b => .sym ⟨dc, b⟩) ++ wire es
  | e :: es => .event e :: wire es

/-- The symbols of `wire(T)` alone. -/
def symbols : List Event → List Sym
  | [] => []
  | .xfer dc bytes :: es => bytes.map (fun b => ⟨dc, b⟩) ++ symbols es
  | _ :: es => symbols es

/-- `levels(T)` from the pins' levels before it: the pin events that change no level are dropped (00_scope.md R8). -/
def levels : Pins → List Event → List Event
  | _, [] => []
  | ps, .pin p v :: es => if ps.get p = v then levels ps es else .pin p v :: levels (ps.set p v) es
  | ps, e :: es => e :: levels ps es

/-- The number of transfers of a payload: ceil(len / BUF_SIZE) (41_framer.md R102). -/
def chunkCount (bufSize len : Nat) : Nat := (len + bufSize - 1) / bufSize

/-- Chunk `i` of a payload: the bytes from `i * BUF_SIZE` on, at most BUF_SIZE of them. -/
def chunk (bufSize : Nat) (payload : List Byte) (i : Nat) : List Byte := (payload.drop (i * bufSize)).take bufSize

/-- The chunks of a payload: floor(n / BUF_SIZE) of BUF_SIZE bytes, then the rest if any (41_framer.md R102). -/
def chunks (bufSize : Nat) (payload : List Byte) : List (List Byte) :=
  (List.range (chunkCount bufSize payload.length)).map (chunk bufSize payload)

/-- The transfers of a payload at one DC level. -/
def streamEvents (cfg : Cfg) (dc : Level) (payload : List Byte) : List Event :=
  (chunks cfg.bufSize payload).map (.xfer dc)

/-- The part of a CMD transaction between chip-select's edges (30_encoding.md R62, 41_framer.md R101). -/
def commandBody (cfg : Cfg) (opcode : Byte) (params : List Byte) : List Event :=
  match cfg.paramDc with
  | .low => streamEvents cfg .low (opcode :: params)
  | .high =>
    streamEvents cfg .low [opcode] ++
      (if params = [] then [] else .pin .dc .high :: streamEvents cfg .high params)

/-- The events of a CMD transaction (30_encoding.md R62, 41_framer.md R101). -/
def commandEvents (cfg : Cfg) (opcode : Byte) (params : List Byte) : List Event :=
  [.pin .dc .low, .csAssert] ++ commandBody cfg opcode params ++ [.csDeassert]

/-- The events of a PIX transaction (30_encoding.md R63, 41_framer.md R104). -/
def pixelEvents (cfg : Cfg) (pixels : List U16) : List Event :=
  [.pin .dc .high, .csAssert] ++ streamEvents cfg .high (pixelPayload cfg pixels) ++ [.csDeassert]

/-- The event of a post-delay; 0 gives none (42_controller_init.md R124). -/
def postDelayEvents (ms : Nat) : List Event := if 0 < ms then [.delay ms] else []

/-- The events of an init-table entry (42_controller_init.md R124). -/
def entryEvents (cfg : Cfg) (e : InitEntry) : List Event :=
  commandEvents cfg e.opcode e.params ++ postDelayEvents e.postDelayMs

/-- The events of RESET_PULSE (42_controller_init.md R123). -/
def pulseEvents (cfg : Cfg) : List Event :=
  [.pin .rst .low, .delay cfg.resetLowMs, .pin .rst .high, .delay cfg.resetSettleMs]

/-- The events of CONFIGURE: the table's entries in order (42_controller_init.md R124, R132). -/
def tableEvents (cfg : Cfg) : List Event := cfg.initTable.flatMap (entryEvents cfg)

/-- The events of INIT (42_controller_init.md R122, R132). -/
def initEvents (cfg : Cfg) : List Event := pulseEvents cfg ++ tableEvents cfg

/-- The events of SET_WINDOW (43_window_pixels.md R140). -/
def windowEvents (cfg : Cfg) (w : Window) : List Event :=
  (windowCmds cfg w).flatMap fun c => commandEvents cfg c.opcode c.params

/-- The events of WRITE_PIXELS (43_window_pixels.md R142). -/
def writeEvents (cfg : Cfg) (pixels : List U16) : List Event :=
  commandEvents cfg cfg.opcMemwr [] ++ pixelEvents cfg pixels

/-- The events of SET_PIXELS (43_window_pixels.md R144). -/
def drawEvents (cfg : Cfg) (w : Window) (pixels : List U16) : List Event :=
  windowEvents cfg w ++ writeEvents cfg pixels

/-- The lines the trace speaks of: the pins and chip-select. -/
structure Lines where
  pins : Pins
  cs : ChipSelect
  deriving DecidableEq, Repr

/-- The lines after a trace, or `none` where an event cannot stand: a transfer outside a chip-select bracket, at
another DC level than the line's, of no byte or of more than BUF_SIZE bytes; a chip-select edge that is none. -/
def replay (bufSize : Nat) : Lines → List Event → Option Lines
  | l, [] => some l
  | l, .pin p v :: es => replay bufSize { l with pins := l.pins.set p v } es
  | l, .csAssert :: es => if l.cs = .deasserted then replay bufSize { l with cs := .asserted } es else none
  | l, .csDeassert :: es => if l.cs = .asserted then replay bufSize { l with cs := .deasserted } es else none
  | l, .xfer dc bytes :: es =>
    if l.cs = .asserted ∧ l.pins.dc = dc ∧ 1 ≤ bytes.length ∧ bytes.length ≤ bufSize then replay bufSize l es else none
  | l, .delay _ :: es => replay bufSize l es

end Sys2Proof.Machine
end

