-- ==== Sys2Proof/Machine/Peer.lean ====
section
/-! DEFINITION. The informative peer of 20_memory.md R47: how a panel of this class fills its frame memory from a
pixel stream. It is outside the block, no field of State and no part of the step (00_scope.md R4 (c)); a claim about
the picture takes it as a hypothesis. PRESUMED (log 30): R47 marks it as general knowledge. -/
namespace Sys2Proof.Machine

/-- The frame memory FM: one 16-bit pixel for each x and y (10_state.md R24). -/
abbrev FrameMemory := Nat → Nat → U16

/-- `FM[x, y] <- p`. -/
def frameWrite (fm : FrameMemory) (x y : Nat) (p : U16) : FrameMemory :=
  fun x' y' => if x' = x ∧ y' = y then p else fm x' y'

/-- The write pointer after a pixel: x first, then the next row, then back to the first (20_memory.md R47). -/
def nextCell (w : Window) (x y : Nat) : Nat × Nat :=
  if x < w.x1.toNat then (x + 1, y)
  else (w.x0.toNat, if y < w.y1.toNat then y + 1 else w.y0.toNat)

/-- The loop of PeerWrite from a write pointer on (20_memory.md R47). -/
def peerFill (w : Window) : List U16 → Nat → Nat → FrameMemory → FrameMemory
  | [], _, _, fm => fm
  | p :: ps, x, y, fm => peerFill w ps (nextCell w x y).1 (nextCell w x y).2 (frameWrite fm x y p)

/-- PeerWrite(win, pixels) (20_memory.md R47). -/
def peerWrite (w : Window) (pixels : List U16) (fm : FrameMemory) : FrameMemory :=
  peerFill w pixels w.x0.toNat w.y0.toNat fm

end Sys2Proof.Machine
end

