-- ==== Sys2Proof/Safety.lean ====
section
/-! DEFINITION. The terms claims are made in: when the block accepts an operation, when its transfers succeed, what
an operation leaves, which states are well-formed (10_state.md R33). -/
namespace Sys2Proof.Machine

/-- The block accepts operations: it is not halted and IDLE does not run. -/
abbrev Live (s : State) : Prop := s.phase ≠ .halted ∧ s.idling = false

/-- The framer may begin a transaction: no operation is in progress (10_state.md R19, R22, R33) and the buffer has
a byte. -/
abbrev FramerReady (s : State) : Prop := s.cs = .deasserted ∧ s.bufLen = 0 ∧ 0 < s.cfg.bufSize

/-- The next `n` transfers succeed. -/
abbrev TransfersOk (s : State) (n : Nat) : Prop := ∀ j, j < n → s.env.xferFault (s.xferCount + j) = none

/-- Every transfer succeeds: the named premise of 60_exceptions.md R163. -/
def AllTransfersOk (s : State) : Prop := ∀ k, s.env.xferFault k = none

/-- The buffer after a payload went through it: byte `i` was stored at BUF[i mod BUF_SIZE] (41_framer.md R102). -/
def storeWrapped (bufSize : Nat) : Nat → List Byte → Memory → Memory
  | _, [], m => m
  | i, b :: bs, m => storeWrapped bufSize (i + 1) bs (m.write (i % bufSize) b)

/-- The buffer after a command. -/
def commandBuf (cfg : Cfg) (opcode : Byte) (params : List Byte) (m : Memory) : Memory :=
  match cfg.paramDc with
  | .low => storeWrapped cfg.bufSize 0 (opcode :: params) m
  | .high => storeWrapped cfg.bufSize 0 params (storeWrapped cfg.bufSize 0 [opcode] m)

/-- The number of transfers of a command (41_framer.md R101). -/
def commandTransfers (cfg : Cfg) (params : List Byte) : Nat :=
  match cfg.paramDc with
  | .low => chunkCount cfg.bufSize (params.length + 1)
  | .high => 1 + chunkCount cfg.bufSize params.length

/-- The level a command leaves the DC line at (41_framer.md R101). -/
def commandDc (cfg : Cfg) (params : List Byte) : Level :=
  match cfg.paramDc with
  | .low => .low
  | .high => if params = [] then .low else .high

/-- The state SEND_COMMAND leaves when its transfers succeed (41_framer.md R101). -/
def afterCommand (opcode : Byte) (params : List Byte) (s : State) : State :=
  { s with
    pins := s.pins.set .dc (commandDc s.cfg params)
    cs := .deasserted
    buf := commandBuf s.cfg opcode params s.buf
    bufLen := 0
    trace := s.trace ++ commandEvents s.cfg opcode params
    xferCount := s.xferCount + commandTransfers s.cfg params }

/-- The state SEND_PIXELS leaves when its transfers succeed (41_framer.md R104). -/
def afterPixels (pixels : List U16) (s : State) : State :=
  { s with
    pins := s.pins.set .dc .high
    cs := .deasserted
    buf := storeWrapped s.cfg.bufSize 0 (pixelPayload s.cfg pixels) s.buf
    bufLen := 0
    trace := s.trace ++ pixelEvents s.cfg pixels
    xferCount := s.xferCount + chunkCount s.cfg.bufSize (2 * pixels.length) }

/-- The state a list of commands leaves. -/
def afterCommands (cmds : List Cmd) (s : State) : State :=
  cmds.foldl (fun t c => afterCommand c.opcode c.params t) s

/-- The state an init-table entry leaves (42_controller_init.md R124). -/
def afterEntry (idx : Nat) (opcode : Byte) (params : List Byte) (postDelayMs : Nat) (s : State) : State :=
  { afterCommand opcode params { s with initIdx := idx } with
    trace := s.trace ++ commandEvents s.cfg opcode params ++ postDelayEvents postDelayMs }

/-- The state the entries of a table leave, from entry `idx` on. -/
def afterEntries : Nat → List InitEntry → State → State
  | _, [], s => s
  | idx, e :: es, s => afterEntries (idx + 1) es (afterEntry idx e.opcode e.params e.postDelayMs s)

/-- The state RESET_PULSE leaves from Uninitialized (42_controller_init.md R123). -/
def afterResetPulse (s : State) : State :=
  { s with phase := .resetting, pins := s.pins.set .rst .high, trace := s.trace ++ pulseEvents s.cfg }

/-- The state CONFIGURE leaves from Resetting (42_controller_init.md R124). -/
def afterConfigure (s : State) : State :=
  { afterEntries 0 s.cfg.initTable s with initIdx := s.cfg.initTable.length, phase := .ready }

/-- The state SET_WINDOW leaves (43_window_pixels.md R140). -/
def afterSetWindow (w : Window) (s : State) : State :=
  { afterCommands (windowCmds s.cfg w) { s with win := w } with winValid := true }

/-- The state WRITE_PIXELS leaves (43_window_pixels.md R142). -/
def afterWritePixels (pixels : List U16) (s : State) : State :=
  { afterPixels pixels (afterCommand s.cfg.opcMemwr [] s) with winValid := false }

/-- The state SET_PIXELS leaves (43_window_pixels.md R144). -/
def afterSetPixels (w : Window) (pixels : List U16) (s : State) : State :=
  afterWritePixels pixels (afterSetWindow w s)

/-- The state BOOT leaves when it succeeds (42_controller_init.md R120). -/
def afterBoot (cfg : Cfg) (s : State) : State :=
  { s with cfg := cfg, phase := .uninitialized, pins := ⟨cfg.rstInit, cfg.dcInit, cfg.blInit⟩, cs := .deasserted }

/-- The state a raise leaves: the first fault is kept (60_exceptions.md R168). -/
def afterRaise (code : FaultCode) (info : FaultInfo) (s : State) : State :=
  { s with fault := some (s.fault.getD ⟨code, info⟩), phase := .halted }

/-- The state a failing transfer leaves: the bytes before the fault are on the wire, chip-select holds no value
(40_pin_spi_delay.md R85, 60_exceptions.md R164). -/
def afterTransferFault (bytes : List Byte) (j : Nat) (s : State) : State :=
  afterRaise .transferError (.transfer s.xferCount)
    { s with
      trace := s.trace ++ (if bytes.take j = [] then [] else [.xfer s.pins.dc (bytes.take j)])
      cs := Config.csAfterFault s.xferCount
      xferCount := s.xferCount + 1 }

/-- A well-formed state between operations (10_state.md R33), with what the model adds: the configuration BOOT
accepted, the phases in which an operation rests, the buffer's canonical form, and a WINDOW_CMDS that 30_encoding.md R68
admits. -/
structure WellFormedState (s : State) : Prop where
  fault_iff_halted : s.fault ≠ none ↔ s.phase = .halted
  booted_cfg_valid : s.phase ≠ .powerOn → s.phase ≠ .halted → firstFailingClause s.cfg = none
  window_valid : s.winValid = true → (s.phase = .ready ∨ s.phase = .halted) ∧ inBounds s.cfg s.win = true
  at_rest : s.phase ≠ .halted → s.bufLen = 0 ∧ s.cs = .deasserted
  index_in_table : s.initIdx ≤ s.cfg.initTable.length
  index_when_ready : s.phase = .ready → s.initIdx = s.cfg.initTable.length
  index_at_power_on : s.phase = .powerOn → s.initIdx = 0
  rests : s.phase ≠ .resetting ∧ s.phase ≠ .configuringInterface
  idle_is_ready : s.idling = true → s.phase = .ready
  length_in_buffer : s.bufLen ≤ s.cfg.bufSize
  buffer_canonical : s.buf.wf
  buffer_in_range : ∀ c ∈ s.buf, c.1 < s.cfg.bufSize
  buffer_at_power_on : s.phase = .powerOn → s.buf = []
  window_cmds_lawful : s.cfg.windowCmds.lawful = true

/-- Every request that waits is the host's. -/
abbrev HostOnly (s : State) : Prop := ∀ r ∈ s.requests, r.issuer = .host

/-- How many bytes of BUF, from BUF[0] on, a command's payload reaches before it wraps (41_framer.md R101, R102). -/
def commandReach (cfg : Cfg) (params : List Byte) : Nat :=
  match cfg.paramDc with
  | .low => params.length + 1
  | .high => max 1 params.length

/-- The same for a list of commands: each begins again at BUF[0]. -/
def commandsReach (cfg : Cfg) (cmds : List Cmd) : Nat :=
  (cmds.map fun c => commandReach cfg c.params).foldr max 0

/-- The same for the init table. -/
def tableReach (cfg : Cfg) : Nat :=
  (cfg.initTable.map fun e => commandReach cfg e.params).foldr max 0

/-- The same for a pixel write: the memory-write command, then two bytes a pixel. -/
def writeReach (cfg : Cfg) (n : Nat) : Nat := max (commandReach cfg []) (2 * n)

/-- The same for a window and a pixel write. -/
def drawReach (cfg : Cfg) (w : Window) (n : Nat) : Nat :=
  max (commandsReach cfg (windowCmds cfg w)) (writeReach cfg n)

/-- The bytes an instruction stores to lie below this address: BUF is filled from index 0 in every chunk
(20_memory.md R43), and a payload shorter than the buffer reaches only as far as its length. -/
def storeLimit (cfg : Cfg) : Instr → Nat
  | .sendCommand _ ps => min cfg.bufSize (commandReach cfg ps)
  | .sendPixels px => min cfg.bufSize (2 * px.length)
  | .pwrctl _ _ ps _ => min cfg.bufSize (commandReach cfg ps)
  | .pixfmt _ _ ps _ => min cfg.bufSize (commandReach cfg ps)
  | .madctl _ _ _ => min cfg.bufSize (commandReach cfg [madctlByte cfg])
  | .slpout _ _ _ => min cfg.bufSize (commandReach cfg [])
  | .dispon _ _ _ => min cfg.bufSize (commandReach cfg [])
  | .colset _ ps => min cfg.bufSize (commandReach cfg ps)
  | .rowset _ ps => min cfg.bufSize (commandReach cfg ps)
  | .memwr _ => min cfg.bufSize (commandReach cfg [])
  | .init => min cfg.bufSize (tableReach cfg)
  | .configure => min cfg.bufSize (tableReach cfg)
  | .setWindow x0 y0 x1 y1 => min cfg.bufSize (commandsReach cfg (windowCmds cfg ⟨x0, y0, x1, y1⟩))
  | .writePixels px => min cfg.bufSize (writeReach cfg px.length)
  | .setPixels x0 y0 x1 y1 px => min cfg.bufSize (drawReach cfg ⟨x0, y0, x1, y1⟩ px.length)
  | .fillRect x0 y0 x1 y1 _ =>
    min cfg.bufSize (drawReach cfg ⟨x0, y0, x1, y1⟩ (pixelCount ⟨x0, y0, x1, y1⟩))
  | .fillScreen _ => min cfg.bufSize (drawReach cfg (screen cfg) (pixelCount (screen cfg)))
  | .main c => min c.bufSize (max (tableReach c) (drawReach c (screen c) (pixelCount (screen c))))
  | .boot _ => 0
  | .idle => 0
  | .pinConstruct _ _ => 0
  | .pinSetLow _ => 0
  | .pinSetHigh _ => 0
  | .spiConstruct _ => 0
  | .spiWrite _ => 0
  | .delayMs _ => 0
  | .spiBegin => 0
  | .spiXfer _ => 0
  | .spiEnd => 0
  | .resetPulse => 0
  | .halt => 0
  | .symCommand _ => 0
  | .symData _ => 0

/-- The instructions that write CFG: BOOT, and MAIN through it (10_state.md R13). -/
def writesCfg : Instr → Bool
  | .boot _ => true
  | .main _ => true
  | _ => false

/-- The instructions that write WIN (10_state.md R16). -/
def writesWin : Instr → Bool
  | .setWindow _ _ _ _ => true
  | .setPixels _ _ _ _ _ => true
  | .fillRect _ _ _ _ _ => true
  | .fillScreen _ => true
  | .main _ => true
  | _ => false

/-- The instructions that write WIN_VALID (10_state.md R17). -/
def writesWinValid (i : Instr) : Bool :=
  writesWin i || (match i with
    | .writePixels _ => true
    | _ => false)

/-- The instructions that write INIT_IDX (10_state.md R12, 42_controller_init.md R126 to R130). -/
def writesInitIdx : Instr → Bool
  | .init => true
  | .configure => true
  | .main _ => true
  | .pwrctl _ _ _ _ => true
  | .pixfmt _ _ _ _ => true
  | .madctl _ _ _ => true
  | .slpout _ _ _ => true
  | .dispon _ _ _ => true
  | _ => false

/-- The instructions that write PIN[RST] (10_state.md R20). -/
def writesRst : Instr → Bool
  | .boot _ => true
  | .main _ => true
  | .init => true
  | .resetPulse => true
  | .pinConstruct p _ => decide (p = .rst)
  | .pinSetLow p => decide (p = .rst)
  | .pinSetHigh p => decide (p = .rst)
  | _ => false

/-- The instructions that write PIN[BL] (10_state.md R20). -/
def writesBl : Instr → Bool
  | .boot _ => true
  | .main _ => true
  | .pinConstruct p _ => decide (p = .bl)
  | .pinSetLow p => decide (p = .bl)
  | .pinSetHigh p => decide (p = .bl)
  | _ => false

/-- The instructions that write no level to PIN[DC] (10_state.md R20). -/
def leavesDc : Instr → Bool
  | .pinConstruct p _ => decide (p ≠ .dc)
  | .pinSetLow p => decide (p ≠ .dc)
  | .pinSetHigh p => decide (p ≠ .dc)
  | .spiConstruct _ => true
  | .spiWrite _ => true
  | .delayMs _ => true
  | .spiBegin => true
  | .spiXfer _ => true
  | .spiEnd => true
  | .resetPulse => true
  | .halt => true
  | .idle => true
  | _ => false

/-- The instructions that leave chip-select elsewhere than they found it without a fault. -/
def movesCs : Instr → Bool
  | .boot _ => true
  | .main _ => true
  | .spiConstruct _ => true
  | .spiBegin => true
  | .spiEnd => true
  | _ => false

/-- The instructions that begin the endless idle loop. -/
def startsIdling : Instr → Bool
  | .idle => true
  | .main _ => true
  | _ => false

/-- The instructions that construct a pin or the transport: they move a line without an event
(40_pin_spi_delay.md R80, R83). -/
def constructs : Instr → Bool
  | .boot _ => true
  | .main _ => true
  | .pinConstruct _ _ => true
  | .spiConstruct _ => true
  | _ => false

/-- The number of transfers of a table's first entries. -/
def tableTransfers (cfg : Cfg) (es : List InitEntry) : Nat :=
  (es.map fun e => commandTransfers cfg e.params).sum

/-- One request after another, as a composite operation makes them: a halted block accepts nothing more
(30_encoding.md R75, 43_window_pixels.md R152). -/
def followedBy (o : Host.Outcome State Fault Refusal) (f : State → Host.Outcome State Fault Refusal) :
    Host.Outcome State Fault Refusal :=
  match o with
  | .next m => if m.phase = .halted then .next m else f m
  | .fault e => .fault e
  | .refused r => .refused r

/-- The one phase change an instruction makes when it raises nothing, from and to (10_state.md R11): a composite
operation passes through the phases between. -/
def movesPhase : Instr → Option (Phase × Phase)
  | .boot _ => some (.powerOn, .uninitialized)
  | .resetPulse => some (.uninitialized, .resetting)
  | .configure => some (.resetting, .ready)
  | .init => some (.uninitialized, .ready)
  | .main _ => some (.powerOn, .ready)
  | _ => none

/-- The symbols of a CMD transaction (30_encoding.md R62). -/
def commandSymbols (cfg : Cfg) (opcode : Byte) (params : List Byte) : List Sym :=
  ⟨.low, opcode⟩ :: params.map fun b => ⟨cfg.paramDc, b⟩

/-- The symbols of a PIX transaction (30_encoding.md R63). -/
def pixelSymbols (cfg : Cfg) (pixels : List U16) : List Sym :=
  (pixelPayload cfg pixels).map fun b => ⟨.high, b⟩

/-- The number of events a command adds beyond the four of a command sent in one write (42_controller_init.md
R132 (g)). -/
def extraEvents (cfg : Cfg) (params : List Byte) : Nat :=
  commandTransfers cfg params - 1 + (if cfg.paramDc = .high ∧ params ≠ [] then 1 else 0)

/-- How far the block's life has come; no transition leads back (10_state.md R11). -/
def phaseRank : Phase → Nat
  | .powerOn => 0
  | .uninitialized => 1
  | .resetting => 2
  | .configuringInterface => 3
  | .ready => 4
  | .halted => 5

/-- The next state of an outcome, if it has one. -/
def nextState (o : Host.Outcome State Fault Refusal) : Option State :=
  match o with
  | .next s => some s
  | .fault _ => none
  | .refused _ => none

end Sys2Proof.Machine
end

