-- ==== Sys2Proof/Certificates/Slice0/Obligations.lean ====
section
/-! DEFINITION. The statements for the provers. Each docstring names the rule of spec/ that the statement formalises;
one that rests on a choice of the model names its log entry. -/
open Sys2Proof Sys2Proof.Machine

/-! ## Pins, transport, delay -/

/-- 40_pin_spi_delay.md R80: code 0x10; construction writes the level and emits no event; the chip-select pin is
skipped; the host cannot ask for it, in any way. -/
def Obligations.PinConstructSetsTheLevel : Prop :=
  ∀ (s : State) (v : Level), Live s →
    exec (.pinConstruct .rst v) s = .next { s with pins := { s.pins with rst := v } } ∧
    exec (.pinConstruct .dc v) s = .next { s with pins := { s.pins with dc := v } } ∧
    exec (.pinConstruct .bl v) s = .next { s with pins := { s.pins with bl := v } } ∧
    exec (.pinConstruct .cs v) s = .next s ∧
    (∀ p, decode ⟨.req 0x10, [.pin p, .level v]⟩ = .ok (.pinConstruct p v)) ∧
    ∀ (r : Request) (p : PinRole), r.issuer = .host → requested r s ≠ .ok (.pinConstruct p v)

/-- 40_pin_spi_delay.md R81, code 0x11: the pin is low and the event is emitted even if it was low already, where the
view `levels` drops it; chip-select is no legal operand. -/
def Obligations.PinSetLowDrivesTheLine : Prop :=
  ∀ (s : State) (p : Pin), Live s →
    (∃ t, exec (.pinSetLow p) s = .next t ∧
      t = { s with pins := t.pins, trace := s.trace ++ [.pin p .low] } ∧
      t.pins.get p = .low ∧ ∀ q, q ≠ p → t.pins.get q = s.pins.get q) ∧
    levels s.pins [.pin p .low] = (if s.pins.get p = .low then [] else [.pin p .low]) ∧
    decode ⟨.req 0x11, [.pin p.role]⟩ = .ok (.pinSetLow p) ∧
    ∀ i, decode ⟨.req 0x11, [.pin .cs]⟩ ≠ .ok i

/-- 40_pin_spi_delay.md R82: as R81 with the level high, code 0x12. -/
def Obligations.PinSetHighDrivesTheLine : Prop :=
  ∀ (s : State) (p : Pin), Live s →
    (∃ t, exec (.pinSetHigh p) s = .next t ∧
      t = { s with pins := t.pins, trace := s.trace ++ [.pin p .high] } ∧
      t.pins.get p = .high ∧ ∀ q, q ≠ p → t.pins.get q = s.pins.get q) ∧
    levels s.pins [.pin p .high] = (if s.pins.get p = .high then [] else [.pin p .high]) ∧
    decode ⟨.req 0x12, [.pin p.role]⟩ = .ok (.pinSetHigh p) ∧
    ∀ i, decode ⟨.req 0x12, [.pin .cs]⟩ ≠ .ok i

/-- 40_pin_spi_delay.md R83, code 0x13: with a claim that succeeds chip-select is deasserted, without an event; with
one that fails ResourceUnavailable(transport) is raised before anything else happens. No rule reads the operand. -/
def Obligations.SpiConstructClaimsTheTransport : Prop :=
  ∀ (s : State) (spiCfg : Nat), Live s →
    (s.env.claimOk = true → exec (.spiConstruct spiCfg) s = .next { s with cs := .deasserted }) ∧
    (s.env.claimOk = false → exec (.spiConstruct spiCfg) s =
      .next { s with fault := some (s.fault.getD ⟨.resourceUnavailable, .transport⟩), phase := .halted }) ∧
    decode ⟨.req 0x13, [.nat spiCfg]⟩ = .ok (.spiConstruct spiCfg) ∧
    ∀ r : Request, r.issuer = .host → requested r s ≠ .ok (.spiConstruct spiCfg)

/-- 40_pin_spi_delay.md R84, code 0x16: chip-select is asserted and the event emitted; from an asserted chip-select it
is a fault of the model, not a no-op. -/
def Obligations.SpiBeginAssertsChipSelect : Prop :=
  decode ⟨.req 0x16, []⟩ = .ok .spiBegin ∧ ∀ s : State, Live s →
    (s.cs = .deasserted →
      exec .spiBegin s = .next { s with cs := .asserted, trace := s.trace ++ [.csAssert] }) ∧
    (s.cs = .asserted → exec .spiBegin s = .fault .chipSelectAsserted)

/-- 40_pin_spi_delay.md R85, code 0x17, under its assert: a transfer that succeeds emits one event with the DC line's
level; one that fails emits the prefix that reached the wire, if any, and raises TransferError(k). What chip-select
and the transfer counter hold then is left open here. -/
def Obligations.SpiXferTransfersOrFails : Prop :=
  (∀ bytes, decode ⟨.req 0x17, [.bytes bytes]⟩ = .ok (.spiXfer bytes)) ∧
  ∀ (s : State) (bytes : List Byte), Live s → s.cs = .asserted → 1 ≤ bytes.length → bytes.length ≤ s.cfg.bufSize →
    (s.env.xferFault s.xferCount = none → exec (.spiXfer bytes) s =
      .next { s with trace := s.trace ++ [.xfer s.pins.dc bytes], xferCount := s.xferCount + 1 }) ∧
    ∀ j, s.env.xferFault s.xferCount = some j → j ≤ bytes.length → ∃ c n, exec (.spiXfer bytes) s =
      .next { s with
        trace := s.trace ++ (if 0 < j then [.xfer s.pins.dc (bytes.take j)] else [])
        fault := some (s.fault.getD ⟨.transferError, .transfer s.xferCount⟩)
        phase := .halted
        cs := c
        xferCount := n }

/-- 40_pin_spi_delay.md R86, code 0x14: SPI_WRITE is SPI_BEGIN, SPI_XFER, SPI_END, and nothing of them after a
TransferError; when its transfer succeeds it appends the bracketed event. -/
def Obligations.SpiWriteIsBeginXferEnd : Prop :=
  (∀ bytes, decode ⟨.req 0x14, [.bytes bytes]⟩ = .ok (.spiWrite bytes)) ∧
  ∀ (s : State) (bytes : List Byte), Live s →
    exec (.spiWrite bytes) s =
      followedBy (followedBy (exec .spiBegin s) (exec (.spiXfer bytes))) (exec .spiEnd) ∧
    (s.cs = .deasserted → 1 ≤ bytes.length → bytes.length ≤ s.cfg.bufSize → s.env.xferFault s.xferCount = none →
      exec (.spiWrite bytes) s = .next { s with
        trace := s.trace ++ [.csAssert, .xfer s.pins.dc bytes, .csDeassert]
        xferCount := s.xferCount + 1 })

/-- 40_pin_spi_delay.md R87, code 0x18, under its assert: chip-select is deasserted and the event emitted. -/
def Obligations.SpiEndDeassertsChipSelect : Prop :=
  decode ⟨.req 0x18, []⟩ = .ok .spiEnd ∧ ∀ s : State, Live s → s.cs = .asserted →
    exec .spiEnd s = .next { s with cs := .deasserted, trace := s.trace ++ [.csDeassert] }

/-- The asserts of 40_pin_spi_delay.md R85 and R87, and of R84 where SPI_WRITE, SEND_COMMAND and SEND_PIXELS begin
their transaction, are faults of the model (log 24), never no-ops. -/
def Obligations.BrokenAssertsAreModelFaults : Prop :=
  ∀ s : State, Live s →
    (s.cs = .deasserted → exec .spiEnd s = .fault .chipSelectDeasserted ∧
      ∀ bytes, exec (.spiXfer bytes) s = .fault .chipSelectDeasserted) ∧
    (s.cs = .asserted →
      (∀ bytes, ¬ (1 ≤ bytes.length ∧ bytes.length ≤ s.cfg.bufSize) →
        exec (.spiXfer bytes) s = .fault .transferLength) ∧
      (∀ bytes, exec (.spiWrite bytes) s = .fault .chipSelectAsserted) ∧
      (∀ opcode params, exec (.sendCommand opcode params) s = .fault .chipSelectAsserted) ∧
      ∀ pixels, exec (.sendPixels pixels) s = .fault .chipSelectAsserted)

/-- 40_pin_spi_delay.md R88, code 0x15: DELAY_MS appends its event, of 0 too, and changes nothing else; two in a row
append both. -/
def Obligations.DelayMsEmitsADelay : Prop :=
  (∀ n, decode ⟨.req 0x15, [.nat n]⟩ = .ok (.delayMs n)) ∧
  ∀ (s : State) (m n : Nat), Live s →
    exec (.delayMs n) s = .next { s with trace := s.trace ++ [.delay n] } ∧
    followedBy (exec (.delayMs m) s) (exec (.delayMs n)) =
      .next { s with trace := s.trace ++ [.delay m, .delay n] }

/-! ## Wire symbols -/

/-- 30_encoding.md R60: bit 8 of a symbol is the level of the DC line, bits 7:0 the byte; every byte is legal in either
class, and every 9-bit word is exactly one symbol. -/
def Obligations.SymbolWordLayout : Prop :=
  (∀ b : Byte, (symWord ⟨.low, b⟩).toNat = b.toNat ∧ (symWord ⟨.high, b⟩).toNat = 0x100 + b.toNat) ∧
  (∀ w : BitVec 9, (∃! y : Sym, symWord y = w) ∧
    (w.toNat < 0x100 → decode ⟨.sym w, []⟩ = .ok (.symCommand (BitVec.ofNat 8 w.toNat))) ∧
    (0x100 ≤ w.toNat → decode ⟨.sym w, []⟩ = .ok (.symData (BitVec.ofNat 8 (w.toNat - 0x100)))))

/-- The two symbol instructions (30_encoding.md R60, R64): PIN[DC] is written at the level of the byte's class, then one
byte is transferred, whatever level the line had. That a symbol is an instruction with a set call of its own is the
model's choice (log 22); that one outside a transaction is a fault of the model is log 24, from R61's derived
sentence. -/
def Obligations.SymbolsTransferAtTheirClass : Prop :=
  ∀ (s : State) (b : Byte), Live s →
    (s.cs = .asserted → 1 ≤ s.cfg.bufSize → s.env.xferFault s.xferCount = none →
      exec (.symCommand b) s = .next { s with
        pins := { s.pins with dc := .low }
        trace := s.trace ++ [.pin .dc .low, .xfer .low [b]]
        xferCount := s.xferCount + 1 } ∧
      exec (.symData b) s = .next { s with
        pins := { s.pins with dc := .high }
        trace := s.trace ++ [.pin .dc .high, .xfer .high [b]]
        xferCount := s.xferCount + 1 }) ∧
    (s.cs = .deasserted →
      exec (.symCommand b) s = .fault .chipSelectDeasserted ∧ exec (.symData b) s = .fault .chipSelectDeasserted)

/-! ## The framer -/

/-- SEND_COMMAND (41_framer.md R101) when its transfers succeed: its events, the DC line at its last level,
chip-select released, the buffer empty. -/
def Obligations.SendCommandCompletes : Prop :=
  ∀ (s : State) (opcode : Byte) (params : List Byte), Live s → FramerReady s →
    TransfersOk s (commandTransfers s.cfg params) →
    exec (.sendCommand opcode params) s = .next (afterCommand opcode params s)

/-- SEND_COMMAND (41_framer.md R101, 60_exceptions.md R164) when its transfer `j` is the first to fail: the transfers
before it and the prefix are on the wire, chip-select is not deasserted by an event, the chunk stands in the buffer.
What chip-select then holds is the free value of log 10; that the counter counts the failing transfer is log 11. -/
def Obligations.SendCommandFirstFailingTransfer : Prop :=
  ∀ (s : State) (opcode : Byte) (params : List Byte) (j p : Nat), Live s → FramerReady s → TransfersOk s j →
    s.env.xferFault (s.xferCount + j) = some p →
    (s.cfg.paramDc = .low → j < chunkCount s.cfg.bufSize (params.length + 1) →
      ∃ m : Memory, m.slice (chunk s.cfg.bufSize (opcode :: params) j).length =
          chunk s.cfg.bufSize (opcode :: params) j ∧
        exec (.sendCommand opcode params) s =
          .next (afterTransferFault (chunk s.cfg.bufSize (opcode :: params) j) p { s with
            pins := { s.pins with dc := .low }
            cs := .asserted
            buf := m
            bufLen := (chunk s.cfg.bufSize (opcode :: params) j).length
            trace := s.trace ++ [.pin .dc .low, .csAssert] ++
              ((chunks s.cfg.bufSize (opcode :: params)).take j).map (.xfer .low)
            xferCount := s.xferCount + j })) ∧
    (s.cfg.paramDc = .high → j = 0 →
      ∃ m : Memory, m.slice 1 = [opcode] ∧
        exec (.sendCommand opcode params) s = .next (afterTransferFault [opcode] p { s with
          pins := { s.pins with dc := .low }
          cs := .asserted
          buf := m
          bufLen := 1
          trace := s.trace ++ [.pin .dc .low, .csAssert] })) ∧
    (s.cfg.paramDc = .high → ∀ i, j = i + 1 → i < chunkCount s.cfg.bufSize params.length →
      ∃ m : Memory, m.slice (chunk s.cfg.bufSize params i).length = chunk s.cfg.bufSize params i ∧
        exec (.sendCommand opcode params) s =
          .next (afterTransferFault (chunk s.cfg.bufSize params i) p { s with
            pins := { s.pins with dc := .high }
            cs := .asserted
            buf := m
            bufLen := (chunk s.cfg.bufSize params i).length
            trace := s.trace ++ [.pin .dc .low, .csAssert, .xfer .low [opcode], .pin .dc .high] ++
              ((chunks s.cfg.bufSize params).take i).map (.xfer .high)
            xferCount := s.xferCount + j }))

/-- SEND_PIXELS (41_framer.md R104, R102) when its transfers succeed, with the even buffer that BOOT asks for. -/
def Obligations.SendPixelsCompletes : Prop :=
  ∀ (s : State) (pixels : List U16), Live s → FramerReady s → s.cfg.bufSize % 2 = 0 →
    TransfersOk s (chunkCount s.cfg.bufSize (2 * pixels.length)) →
    exec (.sendPixels pixels) s = .next (afterPixels pixels s)

/-- SEND_PIXELS (41_framer.md R104, 60_exceptions.md R164) when its transfer `j` is the first to fail. What chip-select
then holds is the free value of log 10; that the counter counts the failing transfer is log 11. -/
def Obligations.SendPixelsFirstFailingTransfer : Prop :=
  ∀ (s : State) (pixels : List U16) (j p : Nat), Live s → FramerReady s → s.cfg.bufSize % 2 = 0 → TransfersOk s j →
    s.env.xferFault (s.xferCount + j) = some p → j < chunkCount s.cfg.bufSize (2 * pixels.length) →
    ∃ m : Memory, m.slice (chunk s.cfg.bufSize (pixelPayload s.cfg pixels) j).length =
        chunk s.cfg.bufSize (pixelPayload s.cfg pixels) j ∧
      exec (.sendPixels pixels) s =
        .next (afterTransferFault (chunk s.cfg.bufSize (pixelPayload s.cfg pixels) j) p { s with
          pins := { s.pins with dc := .high }
          cs := .asserted
          buf := m
          bufLen := (chunk s.cfg.bufSize (pixelPayload s.cfg pixels) j).length
          trace := s.trace ++ [.pin .dc .high, .csAssert] ++
            ((chunks s.cfg.bufSize (pixelPayload s.cfg pixels)).take j).map (.xfer .high)
          xferCount := s.xferCount + j })

/-- 30_encoding.md R65: on the wire, what SEND_COMMAND and SEND_PIXELS append is what they would append if each payload
went out in one transport write. -/
def Obligations.ChunkingInvisibleOnWire : Prop :=
  ∀ (s : State) (opcode : Byte) (params : List Byte) (pixels : List U16), Live s → FramerReady s →
    s.cfg.bufSize % 2 = 0 → AllTransfersOk s →
    (s.cfg.paramDc = .low → ∃ t es, exec (.sendCommand opcode params) s = .next t ∧ t.trace = s.trace ++ es ∧
      wire es = wire [.pin .dc .low, .csAssert, .xfer .low (opcode :: params), .csDeassert]) ∧
    (s.cfg.paramDc = .high → params ≠ [] → ∃ t es, exec (.sendCommand opcode params) s = .next t ∧
      t.trace = s.trace ++ es ∧
      wire es = wire [.pin .dc .low, .csAssert, .xfer .low [opcode], .pin .dc .high, .xfer .high params,
        .csDeassert]) ∧
    (s.cfg.paramDc = .high → ∃ t es, exec (.sendCommand opcode []) s = .next t ∧ t.trace = s.trace ++ es ∧
      wire es = wire [.pin .dc .low, .csAssert, .xfer .low [opcode], .csDeassert]) ∧
    (∃ t es, exec (.sendPixels pixels) s = .next t ∧ t.trace = s.trace ++ es ∧
      wire es = wire [.pin .dc .high, .csAssert, .xfer .high (pixelPayload s.cfg pixels), .csDeassert])

/-! ## Construction and initialisation -/

/-- 42_controller_init.md R120, code 0x01: BOOT's checks in their order, what each raises, and what a BOOT that passes
them leaves: the pins at their initial levels, chip-select deasserted, the configuration, no event. -/
def Obligations.BootOutcome : Prop :=
  (∀ cfg, decode ⟨.req 0x01, [.cfg cfg]⟩ = .ok (.boot cfg)) ∧
  ∀ (s : State) (cfg : Cfg), Live s →
    exec (.boot cfg) s = .next (
      if s.phase ≠ .powerOn then afterRaise .illegalState (.operation .boot) s
      else if ¬ (1 ≤ cfg.width.toNat ∧ 1 ≤ cfg.height.toNat) then
        afterRaise .invalidConfiguration (.clause 1) s
      else if ¬ (2 ≤ cfg.bufSize ∧ cfg.bufSize % 2 = 0) then
        afterRaise .invalidConfiguration (.clause 2) s
      else if tableOk cfg = false then
        afterRaise .invalidConfiguration (.clause 3) s
      else if cfg.pixelBits ≠ 16 then
        afterRaise .invalidConfiguration (.clause 4) s
      else if s.env.claimOk = false then
        afterRaise .resourceUnavailable .transport { s with pins := ⟨cfg.rstInit, cfg.dcInit, cfg.blInit⟩ }
      else
        { s with
          cfg := cfg
          phase := .uninitialized
          pins := ⟨cfg.rstInit, cfg.dcInit, cfg.blInit⟩
          cs := .deasserted })

/-- 42_controller_init.md R125: a table is well-formed exactly when its kinds are one or more PWRCTL, then PIXFMT,
MADCTL, SLPOUT, DISPON, with the parameters R125 asks for; with any other table BOOT raises. -/
def Obligations.WellFormedTables : Prop :=
  (∀ cfg : Cfg, tableOk cfg = true ↔
    ∃ (power : List InitEntry) (pixfmt madctl slpout dispon : InitEntry),
      cfg.initTable = power ++ [pixfmt, madctl, slpout, dispon] ∧ power ≠ [] ∧ (∀ e ∈ power, e.kind = .pwrctl) ∧
      pixfmt.kind = .pixfmt ∧ madctl.kind = .madctl ∧ slpout.kind = .slpout ∧ dispon.kind = .dispon ∧
      madctl.params = [madctlByte cfg] ∧ slpout.params = [] ∧ dispon.params = []) ∧
  ∀ (s : State) (cfg : Cfg), Live s → s.phase = .powerOn → tableOk cfg = false →
    ∃ n, n ≤ 3 ∧ exec (.boot cfg) s = .next (afterRaise .invalidConfiguration (.clause n) s)

/-- 42_controller_init.md R123, code 0x30: RESET_PULSE appends exactly its four events, leaves RST high and PHASE
Resetting, and nothing else changes, DC and chip-select not; in any other phase it raises IllegalState. -/
def Obligations.ResetPulseDrivesTheResetLine : Prop :=
  decode ⟨.req 0x30, []⟩ = .ok .resetPulse ∧
  (∀ (r : Request) (s : State), r.issuer = .host → requested r s ≠ .ok .resetPulse) ∧
  ∀ s : State, Live s →
    (s.phase = .uninitialized → exec .resetPulse s = .next { s with
      phase := .resetting
      pins := { s.pins with rst := .high }
      trace := s.trace ++
        [.pin .rst .low, .delay s.cfg.resetLowMs, .pin .rst .high, .delay s.cfg.resetSettleMs] }) ∧
    (s.phase ≠ .uninitialized →
      exec .resetPulse s = .next (afterRaise .illegalState (.operation .resetPulse) s))

/-- CONFIGURE (42_controller_init.md R124) when every transfer succeeds: the table's commands and delays in order,
INIT_IDX at the table's length, PHASE Ready; from any phase but Resetting it raises. -/
def Obligations.ConfigureReplaysTheTable : Prop :=
  ∀ s : State, Live s →
    (s.phase = .resetting → FramerReady s → AllTransfersOk s →
      exec .configure s = .next (afterConfigure s) ∧
      (afterConfigure s).trace =
        s.trace ++ s.cfg.initTable.flatMap (fun e =>
          commandEvents s.cfg e.opcode e.params ++ (if 0 < e.postDelayMs then [.delay e.postDelayMs] else [])) ∧
      (afterConfigure s).phase = .ready ∧ (afterConfigure s).initIdx = s.cfg.initTable.length ∧
      (afterConfigure s).cs = .deasserted ∧ (afterConfigure s).bufLen = 0 ∧
      (afterConfigure s).pins.rst = s.pins.rst ∧ (afterConfigure s).pins.bl = s.pins.bl) ∧
    (s.phase ≠ .resetting → exec .configure s = .next (afterRaise .illegalState (.operation .configure) s))

/-- A TransferError during CONFIGURE (42_controller_init.md R124, 10_state.md R12, 60_exceptions.md R164): INIT_IDX
keeps the index of the entry being sent, FAULT holds the failing transfer, the entries before it are on the wire. -/
def Obligations.ConfigureFaultKeepsTheEntry : Prop :=
  ∀ (s : State) (sent rest : List InitEntry) (e : InitEntry) (j p : Nat), Live s → s.phase = .resetting →
    FramerReady s → s.fault = none → s.cfg.initTable = sent ++ e :: rest → j < commandTransfers s.cfg e.params →
    TransfersOk s (tableTransfers s.cfg sent + j) →
    s.env.xferFault (s.xferCount + (tableTransfers s.cfg sent + j)) = some p →
    ∃ t es, exec .configure s = .next t ∧ t.phase = .halted ∧ t.initIdx = sent.length ∧
      t.fault = some ⟨.transferError, .transfer (s.xferCount + (tableTransfers s.cfg sent + j))⟩ ∧
      t.trace = s.trace ++ sent.flatMap (entryEvents s.cfg) ++ es ∧ (∀ ms, .delay ms ∉ es) ∧ .csDeassert ∉ es

/-- 42_controller_init.md R122, code 0x02: INIT is RESET_PULSE, then CONFIGURE; from any phase but Uninitialized it
raises; when every transfer succeeds it ends in Ready with the events of both parts. -/
def Obligations.InitRunsTheStateMachine : Prop :=
  decode ⟨.req 0x02, []⟩ = .ok .init ∧ ∀ s : State, Live s →
    (s.phase = .uninitialized → exec .init s = followedBy (exec .resetPulse s) (exec .configure)) ∧
    (s.phase ≠ .uninitialized → exec .init s = .next (afterRaise .illegalState (.operation .init) s)) ∧
    (s.phase = .uninitialized → FramerReady s → AllTransfersOk s →
      ∃ t, exec .init s = .next t ∧ t.phase = .ready ∧ t.initIdx = s.cfg.initTable.length ∧
        t.trace = s.trace ++ initEvents s.cfg)

/-- The shape of INIT's events (42_controller_init.md section 4, which the spec marks derived): the reset pulse and the
settle delay first, no reset event after them, and the number of events. -/
def Obligations.InitEventShape : Prop :=
  ∀ s : State, Live s → s.phase = .uninitialized → FramerReady s → AllTransfersOk s →
    ∃ t es, exec .init s = .next t ∧
      t.trace = s.trace ++
        [.pin .rst .low, .delay s.cfg.resetLowMs, .pin .rst .high, .delay s.cfg.resetSettleMs] ++ es ∧
      (∀ v, .pin .rst v ∉ es) ∧
      4 + es.length = 4 + (s.cfg.initTable.map fun e =>
        4 + extraEvents s.cfg e.params + (if 0 < e.postDelayMs then 1 else 0)).sum

/-- The init-table kinds as instructions (42_controller_init.md R126 to R130): one CMD transaction with the entry's
opcode and parameters, the post-delay, and INIT_IDX. That each is one instruction with the entry's index as an operand
is the model's choice (log 21). -/
def Obligations.InitEntriesComplete : Prop :=
  ∀ (s : State) (idx : Nat) (opcode : Byte) (params : List Byte) (ms : Nat), Live s → FramerReady s →
    (TransfersOk s (commandTransfers s.cfg params) →
      exec (.pwrctl idx opcode params ms) s = .next (afterEntry idx opcode params ms s) ∧
      exec (.pixfmt idx opcode params ms) s = .next (afterEntry idx opcode params ms s)) ∧
    (TransfersOk s (commandTransfers s.cfg [madctlByte s.cfg]) →
      exec (.madctl idx opcode ms) s = .next (afterEntry idx opcode [madctlByte s.cfg] ms s)) ∧
    (TransfersOk s (commandTransfers s.cfg []) →
      exec (.slpout idx opcode ms) s = .next (afterEntry idx opcode [] ms s) ∧
      exec (.dispon idx opcode ms) s = .next (afterEntry idx opcode [] ms s))

/-! ## Window addressing, pixel write, fill -/

/-- The window and memory-write kinds as instructions (30_encoding.md R66): one CMD transaction each. That each is one
instruction is the model's choice (log 21). -/
def Obligations.WindowCommandsComplete : Prop :=
  ∀ (s : State) (opcode : Byte) (params : List Byte), Live s → FramerReady s →
    (TransfersOk s (commandTransfers s.cfg params) →
      exec (.colset opcode params) s = .next (afterCommand opcode params s) ∧
      exec (.rowset opcode params) s = .next (afterCommand opcode params s)) ∧
    (TransfersOk s (commandTransfers s.cfg []) → exec (.memwr opcode) s = .next (afterCommand opcode [] s))

/-- 43_window_pixels.md R140, code 0x03: SET_WINDOW's two checks in order; when every transfer succeeds the
window's commands are appended and the window is valid; after a TransferError WIN holds the rectangle and
WIN_VALID is false. -/
def Obligations.SetWindowOutcome : Prop :=
  (∀ x0 y0 x1 y1, decode ⟨.req 0x03, [.u16 x0, .u16 y0, .u16 x1, .u16 y1]⟩ = .ok (.setWindow x0 y0 x1 y1)) ∧
  ∀ (s : State) (x0 y0 x1 y1 : U16), Live s →
    (s.phase ≠ .ready →
      exec (.setWindow x0 y0 x1 y1) s = .next (afterRaise .illegalState (.operation .setWindow) s)) ∧
    (s.phase = .ready → ¬ (x0 ≤ x1 ∧ x1 < s.cfg.width ∧ y0 ≤ y1 ∧ y1 < s.cfg.height) →
      exec (.setWindow x0 y0 x1 y1) s = .next (afterRaise .windowOutOfBounds (.window x0 y0 x1 y1) s)) ∧
    (s.phase = .ready → (x0 ≤ x1 ∧ x1 < s.cfg.width ∧ y0 ≤ y1 ∧ y1 < s.cfg.height) →
      (FramerReady s → AllTransfersOk s →
        ∃ t, exec (.setWindow x0 y0 x1 y1) s = .next t ∧ t = afterSetWindow ⟨x0, y0, x1, y1⟩ s ∧
          t.win = ⟨x0, y0, x1, y1⟩ ∧ t.winValid = true ∧ t.phase = .ready ∧
          t.trace = s.trace ++ windowEvents s.cfg ⟨x0, y0, x1, y1⟩) ∧
      ∀ t, exec (.setWindow x0 y0 x1 y1) s = .next t → t.phase = .halted →
        t.win = ⟨x0, y0, x1, y1⟩ ∧ t.winValid = false)

/-- 43_window_pixels.md R142, code 0x04: WRITE_PIXELS' three checks in order; when every transfer succeeds the
memory-write command and the pixel stream are appended, and WIN_VALID is false; after a TransferError it is
false too. -/
def Obligations.WritePixelsOutcome : Prop :=
  (∀ pixels, decode ⟨.req 0x04, [.pixels pixels]⟩ = .ok (.writePixels pixels)) ∧
  ∀ (s : State) (pixels : List U16), Live s →
    (s.phase ≠ .ready →
      exec (.writePixels pixels) s = .next (afterRaise .illegalState (.operation .writePixels) s)) ∧
    (s.phase = .ready → s.winValid = false →
      exec (.writePixels pixels) s = .next (afterRaise .illegalState .windowNotSet s)) ∧
    (s.phase = .ready → s.winValid = true → pixels.length ≠ pixelCount s.win →
      exec (.writePixels pixels) s =
        .next (afterRaise .lengthMismatch (.lengths pixels.length (pixelCount s.win)) s)) ∧
    (s.phase = .ready → s.winValid = true → pixels.length = pixelCount s.win →
      (FramerReady s → s.cfg.bufSize % 2 = 0 → AllTransfersOk s →
        exec (.writePixels pixels) s = .next (afterWritePixels pixels s) ∧
        (afterWritePixels pixels s).trace =
          s.trace ++ commandEvents s.cfg s.cfg.opcMemwr [] ++ pixelEvents s.cfg pixels) ∧
      ∀ t, exec (.writePixels pixels) s = .next t → t.winValid = false)

/-- 43_window_pixels.md R144, code 0x05: SET_PIXELS' three checks in order, all before any output; then it is
SET_WINDOW followed by WRITE_PIXELS; when every transfer succeeds the events of both are appended and WIN_VALID is
false. -/
def Obligations.SetPixelsOutcome : Prop :=
  (∀ x0 y0 x1 y1 pixels, decode ⟨.req 0x05, [.u16 x0, .u16 y0, .u16 x1, .u16 y1, .pixels pixels]⟩ =
    .ok (.setPixels x0 y0 x1 y1 pixels)) ∧
  ∀ (s : State) (x0 y0 x1 y1 : U16) (pixels : List U16), Live s →
    (s.phase ≠ .ready →
      exec (.setPixels x0 y0 x1 y1 pixels) s = .next (afterRaise .illegalState (.operation .setPixels) s)) ∧
    (s.phase = .ready → inBounds s.cfg ⟨x0, y0, x1, y1⟩ = false →
      exec (.setPixels x0 y0 x1 y1 pixels) s = .next (afterRaise .windowOutOfBounds (.window x0 y0 x1 y1) s)) ∧
    (s.phase = .ready → inBounds s.cfg ⟨x0, y0, x1, y1⟩ = true → pixels.length ≠ pixelCount ⟨x0, y0, x1, y1⟩ →
      exec (.setPixels x0 y0 x1 y1 pixels) s =
        .next (afterRaise .lengthMismatch (.lengths pixels.length (pixelCount ⟨x0, y0, x1, y1⟩)) s)) ∧
    (s.phase = .ready → inBounds s.cfg ⟨x0, y0, x1, y1⟩ = true → pixels.length = pixelCount ⟨x0, y0, x1, y1⟩ →
      exec (.setPixels x0 y0 x1 y1 pixels) s =
        followedBy (exec (.setWindow x0 y0 x1 y1) s) (exec (.writePixels pixels)) ∧
      (FramerReady s → s.cfg.bufSize % 2 = 0 → AllTransfersOk s →
        ∃ t, exec (.setPixels x0 y0 x1 y1 pixels) s = .next t ∧ t.win = ⟨x0, y0, x1, y1⟩ ∧ t.winValid = false ∧
          t.trace = s.trace ++ windowEvents s.cfg ⟨x0, y0, x1, y1⟩ ++ writeEvents s.cfg pixels))

/-- 43_window_pixels.md R147, code 0x06: FILL_RECT's two checks; then it is SET_PIXELS of the rectangle's count of the
colour, and LengthMismatch cannot occur; when every transfer succeeds it completes. -/
def Obligations.FillRectOutcome : Prop :=
  (∀ x0 y0 x1 y1 color, decode ⟨.req 0x06, [.u16 x0, .u16 y0, .u16 x1, .u16 y1, .u16 color]⟩ =
    .ok (.fillRect x0 y0 x1 y1 color)) ∧
  ∀ (s : State) (x0 y0 x1 y1 color : U16), Live s →
    (s.phase ≠ .ready →
      exec (.fillRect x0 y0 x1 y1 color) s = .next (afterRaise .illegalState (.operation .fillRect) s)) ∧
    (s.phase = .ready → inBounds s.cfg ⟨x0, y0, x1, y1⟩ = false →
      exec (.fillRect x0 y0 x1 y1 color) s = .next (afterRaise .windowOutOfBounds (.window x0 y0 x1 y1) s)) ∧
    (s.phase = .ready → inBounds s.cfg ⟨x0, y0, x1, y1⟩ = true →
      exec (.fillRect x0 y0 x1 y1 color) s =
        exec (.setPixels x0 y0 x1 y1 (List.replicate (pixelCount ⟨x0, y0, x1, y1⟩) color)) s ∧
      (∀ t given count, s.fault = none → exec (.fillRect x0 y0 x1 y1 color) s = .next t →
        t.fault ≠ some ⟨.lengthMismatch, .lengths given count⟩) ∧
      (FramerReady s → s.cfg.bufSize % 2 = 0 → AllTransfersOk s →
        ∃ t, exec (.fillRect x0 y0 x1 y1 color) s = .next t ∧ t.phase = .ready ∧ t.win = ⟨x0, y0, x1, y1⟩ ∧
          t.winValid = false ∧ t.trace = s.trace ++ windowEvents s.cfg ⟨x0, y0, x1, y1⟩ ++
            writeEvents s.cfg (List.replicate (pixelCount ⟨x0, y0, x1, y1⟩) color)))

/-- FILL_SCREEN (43_window_pixels.md R148) is FILL_RECT of the whole screen, on the geometry of at least one pixel that
BOOT asks for; when every transfer succeeds it completes. Its steps' mnemonics in FAULT are log 29. -/
def Obligations.FillScreenFillsTheWholeScreen : Prop :=
  ∀ (s : State) (color : U16), Live s → 1 ≤ s.cfg.width.toNat → 1 ≤ s.cfg.height.toNat →
    exec (.fillScreen color) s = exec (.fillRect 0 0 (s.cfg.width - 1) (s.cfg.height - 1) color) s ∧
    (s.phase = .ready → FramerReady s → s.cfg.bufSize % 2 = 0 → AllTransfersOk s →
      ∃ t, exec (.fillScreen color) s = .next t ∧ t.phase = .ready ∧ t.winValid = false ∧
        t.win = ⟨0, 0, s.cfg.width - 1, s.cfg.height - 1⟩ ∧
        t.trace = s.trace ++ windowEvents s.cfg ⟨0, 0, s.cfg.width - 1, s.cfg.height - 1⟩ ++
          writeEvents s.cfg (List.replicate (s.cfg.width.toNat * s.cfg.height.toNat) color))

/-- MAIN (43_window_pixels.md R151) is BOOT, INIT, FILL_SCREEN, IDLE, and nothing of them after a fault; with a valid
configuration, a claim and transfers that succeed it reaches the idle loop, a flag of the model (log 17). -/
def Obligations.MainRunsTheWholePath : Prop :=
  ∀ (s : State) (cfg : Cfg), Live s →
    exec (.main cfg) s =
      followedBy (followedBy (followedBy (exec (.boot cfg) s) (exec .init)) (exec (.fillScreen cfg.fillColor)))
        (exec .idle) ∧
    (s.phase = .powerOn → firstFailingClause cfg = none → s.env.claimOk = true → s.bufLen = 0 → AllTransfersOk s →
      ∃ t, exec (.main cfg) s = .next t ∧ t.phase = .ready ∧ t.idling = true ∧ t.cfg = cfg ∧
        t.trace = s.trace ++ initEvents cfg ++ windowEvents cfg (screen cfg) ++
          writeEvents cfg (List.replicate (cfg.width.toNat * cfg.height.toNat) cfg.fillColor))

/-- What a pixel write puts on the wire (43_window_pixels.md section 5, which the spec marks derived): the window's
commands, the memory-write opcode, then two data symbols for each pixel of the window, and nothing between. -/
def Obligations.PixelWriteFollowsItsWindow : Prop :=
  ∀ (s : State) (x0 y0 x1 y1 : U16) (pixels : List U16), Live s → s.phase = .ready →
    inBounds s.cfg ⟨x0, y0, x1, y1⟩ = true → pixels.length = pixelCount ⟨x0, y0, x1, y1⟩ → FramerReady s →
    s.cfg.bufSize % 2 = 0 → AllTransfersOk s →
    ∃ t es, exec (.setPixels x0 y0 x1 y1 pixels) s = .next t ∧ t.trace = s.trace ++ es ∧
      symbols es = (windowCmds s.cfg ⟨x0, y0, x1, y1⟩).flatMap (fun c => commandSymbols s.cfg c.opcode c.params) ++
        [⟨.low, s.cfg.opcMemwr⟩] ++ pixelSymbols s.cfg pixels ∧
      (pixelSymbols s.cfg pixels).length =
        2 * ((x1.toNat - x0.toNat + 1) * (y1.toNat - y0.toNat + 1))

/-- Idempotence (41_framer.md section 5, which the spec marks derived): the same fill from any two states with the same
configuration appends the same events. -/
def Obligations.SameFillSameEvents : Prop :=
  ∀ (s s' : State) (x0 y0 x1 y1 color : U16), Live s → Live s' → s.phase = .ready → s'.phase = .ready →
    s'.cfg = s.cfg → inBounds s.cfg ⟨x0, y0, x1, y1⟩ = true → FramerReady s → FramerReady s' →
    s.cfg.bufSize % 2 = 0 → AllTransfersOk s → AllTransfersOk s' →
    ∃ t t' es, exec (.fillRect x0 y0 x1 y1 color) s = .next t ∧ exec (.fillRect x0 y0 x1 y1 color) s' = .next t' ∧
      t.trace = s.trace ++ es ∧ t'.trace = s'.trace ++ es

/-- The informative peer of 20_memory.md R47 (PRESUMED, log 30), outside the block: with the window's count of pixels,
cell (x, y) of the window holds the pixel of its place in row order and no other cell changes. -/
def Obligations.PeerWritesEachCellOnce : Prop :=
  ∀ (w : Window) (pixels : List U16) (fm : FrameMemory) (x y : Nat), w.x0 ≤ w.x1 → w.y0 ≤ w.y1 →
    pixels.length = pixelCount w →
    (w.x0.toNat ≤ x → x ≤ w.x1.toNat → w.y0.toNat ≤ y → y ≤ w.y1.toNat →
      some (peerWrite w pixels fm x y) =
        pixels[(y - w.y0.toNat) * (w.x1.toNat - w.x0.toNat + 1) + (x - w.x0.toNat)]?) ∧
    (¬ (w.x0.toNat ≤ x ∧ x ≤ w.x1.toNat ∧ w.y0.toNat ≤ y ∧ y ≤ w.y1.toNat) → peerWrite w pixels fm x y = fm x y)

/-! ## The two ends of a run -/

/-- IDLE (43_window_pixels.md R150): accepted only in Ready; from then on no operation is accepted and the block
appends its heartbeat, and changes nothing else. The flag that says so is the model's (log 17). -/
def Obligations.IdleNeverCompletes : Prop :=
  ∀ s : State, Live s →
    (s.phase ≠ .ready → exec .idle s = .next (afterRaise .illegalState (.operation .idle) s)) ∧
    (s.phase = .ready →
      exec .idle s = .next { s with idling := true } ∧
      (∀ i es, exec i { s with idling := true, trace := es } = .refused .idling) ∧
      ∀ es, step { s with idling := true, requests := [], trace := es } =
        .next { s with idling := true, requests := [], trace := es ++ [.delay s.cfg.idleMs] })

/-- 43_window_pixels.md R152, code 0x3F: HALT sets PHASE; in Halted no operation is accepted, and with no request the
block changes nothing, for ever. -/
def Obligations.HaltedForEver : Prop :=
  decode ⟨.req 0x3F, []⟩ = .ok .halt ∧
  (∀ (r : Request) (s : State), r.issuer = .host → requested r s ≠ .ok .halt) ∧
  ∀ s : State,
    (Live s → exec .halt s = .next { s with phase := .halted }) ∧
    (s.phase = .halted → (∀ i, exec i s = .refused .halted) ∧ (s.requests = [] → step s = .next s) ∧
      ∀ t, step s = .next t → t = s)

/-! ## Rules of the whole machine -/

/-- 60_exceptions.md R167: a fault other than TransferError is raised before the operation changed anything, so the
state at the fault is the state before, plus FAULT and PHASE; of ResourceUnavailable, plus the pins as well. -/
def Obligations.ChecksArePrecise : Prop :=
  ∀ (i : Instr) (s t : State) (f : FaultRecord), s.fault = none → exec i s = .next t → t.fault = some f →
    f.code ≠ .transferError →
    t = { s with fault := some f, phase := .halted, pins := t.pins } ∧
    (f.code ≠ .resourceUnavailable → t.pins = s.pins)

/-- TransferError over all instructions (60_exceptions.md R164, R166, R163): it is the first transfer the environment
fails, it halts the block, and after an operation of the host from a well-formed state the window is not valid. That
the counter counts the failing transfer is log 11. -/
def Obligations.TransferErrorIsTheFirstFailure : Prop :=
  ∀ (i : Instr) (s t : State) (info : FaultInfo), s.fault = none → exec i s = .next t →
    t.fault = some ⟨.transferError, info⟩ →
    t.phase = .halted ∧
    (∃ k, info = .transfer k ∧ s.xferCount ≤ k ∧ t.xferCount = k + 1 ∧ s.env.xferFault k ≠ none ∧
      ∀ k', s.xferCount ≤ k' → k' < k → s.env.xferFault k' = none) ∧
    (WellFormedState s → hostVisible i = true → t.winValid = false)

/-- The transitions of PHASE (10_state.md R11; a composite operation passes through the phases between): no other
change of PHASE is made, and none leads back. -/
def Obligations.PhasesMoveOnlyForward : Prop :=
  (∀ (i : Instr) (s t : State), exec i s = .next t →
    t.phase = s.phase ∨ t.phase = .halted ∨ movesPhase i = some (s.phase, t.phase)) ∧
  ∀ s t : State, step s = .next t →
    phaseRank s.phase ≤ phaseRank t.phase ∧ (s.phase = .halted → t.phase = .halted)

/-- The frame of PHASE and FAULT (10_state.md R15, 60_exceptions.md R168): FAULT is written only by a raise, which
halts, and a fault once recorded is kept. -/
def Obligations.FirstFaultIsKept : Prop :=
  ∀ (i : Instr) (s t : State), exec i s = .next t →
    (∀ f, s.fault = some f → t.fault = some f) ∧ (t.phase ≠ .halted → t.fault = s.fault) ∧
    s.phase ≠ .halted

/-- The frame of the control registers (10_state.md R12, R13, R14): only BOOT (and MAIN) writes CFG, only CONFIGURE, INIT
and MAIN write INIT_IDX. The rest is the model's choice: the init entries write INIT_IDX as instructions of their own
(log 21), nothing writes the environment's answers (log 8) or the queue of requests (log 1), only IDLE and MAIN set the
idle flag (log 17). -/
def Obligations.ControlRegistersFrame : Prop :=
  ∀ (i : Instr) (s t : State), exec i s = .next t →
    (writesCfg i = false → t.cfg = s.cfg) ∧ (writesInitIdx i = false → t.initIdx = s.initIdx) ∧
    t.env = s.env ∧ t.requests = s.requests ∧ (startsIdling i = false → t.idling = s.idling)

/-- The frame of the window registers (10_state.md R16, R17): only SET_WINDOW and what is made of it writes WIN, only
these and WRITE_PIXELS write WIN_VALID. -/
def Obligations.WindowRegistersFrame : Prop :=
  ∀ (i : Instr) (s t : State), exec i s = .next t →
    (writesWin i = false → t.win = s.win) ∧ (writesWinValid i = false → t.winValid = s.winValid)

/-- The frame of the lines (10_state.md R20, R22): which instructions write each pin, and that an instruction which is
no half of a transaction leaves chip-select as it found it unless it halts. -/
def Obligations.LinesFrame : Prop :=
  ∀ (i : Instr) (s t : State), exec i s = .next t →
    (writesRst i = false → t.pins.rst = s.pins.rst) ∧ (writesBl i = false → t.pins.bl = s.pins.bl) ∧
    (leavesDc i = true → t.pins.dc = s.pins.dc) ∧
    (movesCs i = false → t.phase ≠ .halted → t.cs = s.cs)

/-- The frame of the buffer (10_state.md R19, 20_memory.md R43): from an empty buffer an instruction stores only below
`storeLimit`, every byte from there on reads as before, and the buffer is empty again unless the block halts. -/
def Obligations.BufferFrame : Prop :=
  ∀ (i : Instr) (s t : State), s.bufLen = 0 → exec i s = .next t →
    (∀ a, storeLimit s.cfg i ≤ a → t.buf.read a = s.buf.read a) ∧ (t.phase ≠ .halted → t.bufLen = 0)

/-- Every instruction keeps the buffer's memory in its canonical form (the model's form of 10_state.md R19). -/
def Obligations.BufferStaysCanonical : Prop :=
  ∀ (i : Instr) (s t : State), s.buf.wf → exec i s = .next t → t.buf.wf

/-- 10_state.md R26: no instruction reads the trace, removes an event or changes one: what it appends does not depend
on the trace before, and nor does anything else it leaves. At reset the trace is empty. -/
def Obligations.TraceIsOnlyAppended : Prop :=
  State.reset.trace = [] ∧
  ∀ (i : Instr) (s t : State), exec i s = .next t →
    ∃ es, t.trace = s.trace ++ es ∧ ∀ T, exec i { s with trace := T } = .next { t with trace := T ++ es }

/-- The trace tells the lines (00_scope.md R8, 20_memory.md R50, 30_encoding.md R61, R64): of an instruction that
constructs nothing, the appended events replay from the lines before to the lines after, every transfer lies inside a
chip-select bracket, at the DC line's level, with 1 to BUF_SIZE bytes. After a halt chip-select is left open. -/
def Obligations.TraceReplaysTheLines : Prop :=
  ∀ (i : Instr) (s t : State), constructs i = false → exec i s = .next t →
    ∃ es l, t.trace = s.trace ++ es ∧ replay s.cfg.bufSize ⟨s.pins, s.cs⟩ es = some l ∧ l.pins = t.pins ∧
      (t.phase ≠ .halted → l.cs = t.cs)

/-! ## Steps, decoding, reset -/

/-- A step with a request that is accepted at the interface is exec of its instruction on the state without that
request (20_memory.md R50, 30_encoding.md R71). The queue is log 1; that a waiting request of a component is run for any
operation is log 2; well-formedness is logs 12 and 25. -/
def Obligations.StepRunsTheDecodedInstruction : Prop :=
  ∀ (s : State) (r : Request) (rest : List Request) (i : Instr), s.requests = r :: rest → decode r.packet = .ok i →
    i.wellFormed s.cfg.bufSize = true →
    (r.issuer = .component ∨ hostVisible i = true ∧ ¬ (isPinSet i = true ∧ s.phase = .powerOn)) →
    step s = exec i { s with requests := rest }

/-- 30_encoding.md R72: a request with a reserved code is refused, whoever asks, and so is an internal operation asked
for by the host; a refusal is no step, so nothing changes. SEND_COMMAND takes any opcode and parameters. -/
def Obligations.ReservedAndInternalAreRefused : Prop :=
  (∀ (s : State) (r : Request) (rest : List Request) (op : Byte), s.requests = r :: rest → r.packet.head = .req op →
    op ∉ [0x01, 0x02, 0x03, 0x04, 0x05, 0x06, 0x07, 0x10, 0x11, 0x12, 0x13, 0x14, 0x15, 0x16, 0x17, 0x18, 0x20, 0x21,
      0x30, 0x31, 0x3F] →
    step s = .refused (.notAnInstruction (.reservedCode op))) ∧
  (∀ (s : State) (r : Request) (rest : List Request) (op : Byte), s.requests = r :: rest → r.issuer = .host →
    r.packet.head = .req op →
    op ∉ [0x01, 0x02, 0x03, 0x04, 0x05, 0x06, 0x07, 0x11, 0x12] → ∃ why, step s = .refused why) ∧
  (∀ (s : State) (r : Request) (rest : List Request) (p : PinRole), s.requests = r :: rest → r.issuer = .host →
    (r.packet = ⟨.req 0x11, [.pin p]⟩ ∨ r.packet = ⟨.req 0x12, [.pin p]⟩) → p ≠ .bl → ∃ why, step s = .refused why) ∧
  ∀ (opcode : Byte) (params : List Byte), decode ⟨.req 0x20, [.u8 opcode, .bytes params]⟩ =
    .ok (.sendCommand opcode params)

/-- What else a step refuses: a list of no byte or of more than BUF_SIZE bytes (30_encoding.md R70; log 25), a BOOT or MAIN
whose WINDOW_CMDS R68 does not admit (log 12), and the host's set call of BL before BOOT (60_exceptions.md R172;
log 20). -/
def Obligations.IllFormedAndEarlyAreRefused : Prop :=
  ∀ (s : State) (r : Request) (rest : List Request), s.requests = r :: rest →
    (∀ bytes : List Byte, (bytes = [] ∨ s.cfg.bufSize < bytes.length) →
      (r.packet = encode (.spiWrite bytes) ∨ r.packet = encode (.spiXfer bytes)) → step s = .refused .illFormed) ∧
    (∀ cfg : Cfg, cfg.windowCmds.lawful = false →
      (r.packet = encode (.boot cfg) ∨ r.packet = encode (.main cfg)) → step s = .refused .illFormed) ∧
    (s.phase = .powerOn → r.issuer = .host →
      (r.packet = encode (.pinSetLow .bl) ∨ r.packet = encode (.pinSetHigh .bl)) →
      step s = .refused .pinNotConstructed)

/-- What a step does when no request waits (43_window_pixels.md R150, R152; log 17 to log 19). -/
def Obligations.StepWithoutARequest : Prop :=
  ∀ s : State, s.requests = [] →
    (s.phase = .halted ∨ s.idling = false → step s = .next s) ∧
    (s.phase ≠ .halted → s.idling = true → step s = .next { s with trace := s.trace ++ [.delay s.cfg.idleMs] })

/-- Decoding an encoded instruction gives it back, for every instruction and every operand (30_encoding.md R70, R71,
R66, R60; the packet's form is log 1 and log 23). -/
def Obligations.DecodeAfterEncode : Prop :=
  ∀ i : Instr, decode (encode i) = .ok i

/-- Each instruction has one packet: what decodes to it is its encoding (30_encoding.md R70, R71; log 1, log 23). -/
def Obligations.EncodeAfterDecode : Prop :=
  ∀ (p : Packet) (i : Instr), decode p = .ok i → encode i = p

/-- Request codes, a wire symbol and a panel command's symbol 0, written out from the spec (30_encoding.md R70, R71; R60;
R62, R66), decode to what they stand for. The packet's form is log 1; of the SLPOUT packet, the kind in its head is
log 23, its index and its post-delay as operands of an instruction of its own are log 21. -/
def Obligations.WordsDecodeAsTheSpecWrites : Prop :=
  decode ⟨.req 0x03, [.u16 0, .u16 0, .u16 319, .u16 239]⟩ = .ok (.setWindow 0 0 319 239) ∧
  decode ⟨.req 0x05, [.u16 0, .u16 0, .u16 1, .u16 0, .pixels [0xF800, 0x07E0]]⟩ =
    .ok (.setPixels 0 0 1 0 [0xF800, 0x07E0]) ∧
  decode ⟨.req 0x12, [.pin .bl]⟩ = .ok (.pinSetHigh .bl) ∧
  decode ⟨.req 0x15, [.nat 20]⟩ = .ok (.delayMs 20) ∧
  decode ⟨.req 0x20, [.u8 0x2A, .bytes [0x00, 0x00, 0x01, 0x3F]]⟩ =
    .ok (.sendCommand 0x2A [0x00, 0x00, 0x01, 0x3F]) ∧
  decode ⟨.sym 0x11F, []⟩ = .ok (.symData 0x1F) ∧
  decode ⟨.cmd .slpout 0x011, [.nat 4, .nat 120]⟩ = .ok (.slpout 4 0x11 120)

/-- What reset leaves (10_state.md section 12): the values the spec gives. The elements it leaves without a value hold
the model's (log 3 to log 7), of which nothing is said here. -/
def Obligations.ResetValues : Prop :=
  State.reset.phase = .powerOn ∧ State.reset.initIdx = 0 ∧ State.reset.fault = none ∧
  State.reset.winValid = false ∧ State.reset.bufLen = 0 ∧ State.reset.trace = []

/-- The reset state is well-formed (10_state.md section 13, which the spec marks derived), and so is what it rests on:
no request of a component waits. -/
def Obligations.ResetIsWellFormed : Prop :=
  WellFormedState State.reset ∧ HostOnly State.reset

/-- Well-formedness (10_state.md section 13, which the spec marks derived; with the model's own clauses of
`WellFormedState`) is kept by every step on requests of the host, whatever the environment answers. -/
def Obligations.StepKeepsWellFormed : Prop :=
  ∀ s t : State, WellFormedState s → HostOnly s → step s = .next t → WellFormedState t ∧ HostOnly t

/-- No request of the host breaks an assert of the spec (40_pin_spi_delay.md sections 2 and 4, 10_state.md section 13):
from a well-formed state no step ends in a fault of the model (log 24). -/
def Obligations.HostRequestsNeverBreakAnAssert : Prop :=
  ∀ (s : State) (f : Fault), WellFormedState s → HostOnly s → step s ≠ .fault f

/-! ## WINDOW_CMDS -/

/-- WINDOW_CMDS (30_encoding.md sections 3 and 4): `lawful` says that its lists are never empty and are distinct for
distinct rectangles; nothing but its scheme and the two opcodes goes into it; the reference scheme sends the column
command with OPC_COLSET, then the row command with OPC_ROWSET. That the model refuses a WINDOW_CMDS which is not lawful,
and calls a rectangle what has its start before its end, is log 12. -/
def Obligations.WindowCommandsAreLawful : Prop :=
  (∀ cfg : Cfg, cfg.windowCmds.lawful = true ↔
    (∀ w, windowCmds cfg w ≠ []) ∧
    ∀ w w' : Window, w.x0 ≤ w.x1 → w.y0 ≤ w.y1 → w'.x0 ≤ w'.x1 → w'.y0 ≤ w'.y1 →
      windowCmds cfg w = windowCmds cfg w' → w = w') ∧
  (∀ (cfg cfg' : Cfg) (w : Window), cfg'.windowCmds = cfg.windowCmds → cfg'.opcColset = cfg.opcColset →
    cfg'.opcRowset = cfg.opcRowset → windowCmds cfg' w = windowCmds cfg w) ∧
  ∀ (cfg : Cfg) (w : Window), cfg.windowCmds = referenceWindow →
    windowCmds cfg w =
      [⟨cfg.opcColset, [.ofNat 8 (w.x0.toNat / 256), .ofNat 8 (w.x0.toNat % 256),
          .ofNat 8 (w.x1.toNat / 256), .ofNat 8 (w.x1.toNat % 256)]⟩,
       ⟨cfg.opcRowset, [.ofNat 8 (w.y0.toNat / 256), .ofNat 8 (w.y0.toNat % 256),
          .ofNat 8 (w.y1.toNat / 256), .ofNat 8 (w.y1.toNat % 256)]⟩]
end

