-- ==== Sys2Proof/Laws/State.lean ====
section
/-! SUPPORT. One lemma per field of State and per update, so that no proof unfolds a record update. -/
namespace Sys2Proof.Machine

@[simp] theorem emit_phase (e : Event) (s : State) : (emit e s).phase = s.phase := rfl
@[simp] theorem emit_initIdx (e : Event) (s : State) : (emit e s).initIdx = s.initIdx := rfl
@[simp] theorem emit_fault (e : Event) (s : State) : (emit e s).fault = s.fault := rfl
@[simp] theorem emit_cfg (e : Event) (s : State) : (emit e s).cfg = s.cfg := rfl
@[simp] theorem emit_win (e : Event) (s : State) : (emit e s).win = s.win := rfl
@[simp] theorem emit_winValid (e : Event) (s : State) : (emit e s).winValid = s.winValid := rfl
@[simp] theorem emit_buf (e : Event) (s : State) : (emit e s).buf = s.buf := rfl
@[simp] theorem emit_bufLen (e : Event) (s : State) : (emit e s).bufLen = s.bufLen := rfl
@[simp] theorem emit_pins (e : Event) (s : State) : (emit e s).pins = s.pins := rfl
@[simp] theorem emit_cs (e : Event) (s : State) : (emit e s).cs = s.cs := rfl
@[simp] theorem emit_trace (e : Event) (s : State) : (emit e s).trace = s.trace ++ [e] := rfl
@[simp] theorem emit_xferCount (e : Event) (s : State) : (emit e s).xferCount = s.xferCount := rfl
@[simp] theorem emit_env (e : Event) (s : State) : (emit e s).env = s.env := rfl
@[simp] theorem emit_idling (e : Event) (s : State) : (emit e s).idling = s.idling := rfl
@[simp] theorem emit_requests (e : Event) (s : State) : (emit e s).requests = s.requests := rfl

@[simp] theorem setPin_phase (p : Pin) (v : Level) (s : State) : (setPin p v s).phase = s.phase := rfl
@[simp] theorem setPin_initIdx (p : Pin) (v : Level) (s : State) : (setPin p v s).initIdx = s.initIdx := rfl
@[simp] theorem setPin_fault (p : Pin) (v : Level) (s : State) : (setPin p v s).fault = s.fault := rfl
@[simp] theorem setPin_cfg (p : Pin) (v : Level) (s : State) : (setPin p v s).cfg = s.cfg := rfl
@[simp] theorem setPin_win (p : Pin) (v : Level) (s : State) : (setPin p v s).win = s.win := rfl
@[simp] theorem setPin_winValid (p : Pin) (v : Level) (s : State) : (setPin p v s).winValid = s.winValid := rfl
@[simp] theorem setPin_buf (p : Pin) (v : Level) (s : State) : (setPin p v s).buf = s.buf := rfl
@[simp] theorem setPin_bufLen (p : Pin) (v : Level) (s : State) : (setPin p v s).bufLen = s.bufLen := rfl
@[simp] theorem setPin_pins (p : Pin) (v : Level) (s : State) : (setPin p v s).pins = s.pins.set p v := rfl
@[simp] theorem setPin_cs (p : Pin) (v : Level) (s : State) : (setPin p v s).cs = s.cs := rfl
@[simp] theorem setPin_trace (p : Pin) (v : Level) (s : State) : (setPin p v s).trace = s.trace ++ [.pin p v] := rfl
@[simp] theorem setPin_xferCount (p : Pin) (v : Level) (s : State) : (setPin p v s).xferCount = s.xferCount := rfl
@[simp] theorem setPin_env (p : Pin) (v : Level) (s : State) : (setPin p v s).env = s.env := rfl
@[simp] theorem setPin_idling (p : Pin) (v : Level) (s : State) : (setPin p v s).idling = s.idling := rfl
@[simp] theorem setPin_requests (p : Pin) (v : Level) (s : State) : (setPin p v s).requests = s.requests := rfl

@[simp] theorem delay_phase (n : Nat) (s : State) : (delay n s).phase = s.phase := rfl
@[simp] theorem delay_initIdx (n : Nat) (s : State) : (delay n s).initIdx = s.initIdx := rfl
@[simp] theorem delay_fault (n : Nat) (s : State) : (delay n s).fault = s.fault := rfl
@[simp] theorem delay_cfg (n : Nat) (s : State) : (delay n s).cfg = s.cfg := rfl
@[simp] theorem delay_win (n : Nat) (s : State) : (delay n s).win = s.win := rfl
@[simp] theorem delay_winValid (n : Nat) (s : State) : (delay n s).winValid = s.winValid := rfl
@[simp] theorem delay_buf (n : Nat) (s : State) : (delay n s).buf = s.buf := rfl
@[simp] theorem delay_bufLen (n : Nat) (s : State) : (delay n s).bufLen = s.bufLen := rfl
@[simp] theorem delay_pins (n : Nat) (s : State) : (delay n s).pins = s.pins := rfl
@[simp] theorem delay_cs (n : Nat) (s : State) : (delay n s).cs = s.cs := rfl
@[simp] theorem delay_trace (n : Nat) (s : State) : (delay n s).trace = s.trace ++ [.delay n] := rfl
@[simp] theorem delay_xferCount (n : Nat) (s : State) : (delay n s).xferCount = s.xferCount := rfl
@[simp] theorem delay_env (n : Nat) (s : State) : (delay n s).env = s.env := rfl
@[simp] theorem delay_idling (n : Nat) (s : State) : (delay n s).idling = s.idling := rfl
@[simp] theorem delay_requests (n : Nat) (s : State) : (delay n s).requests = s.requests := rfl

@[simp] theorem enterHalt_phase (s : State) : (enterHalt s).phase = .halted := rfl
@[simp] theorem enterHalt_initIdx (s : State) : (enterHalt s).initIdx = s.initIdx := rfl
@[simp] theorem enterHalt_fault (s : State) : (enterHalt s).fault = s.fault := rfl
@[simp] theorem enterHalt_cfg (s : State) : (enterHalt s).cfg = s.cfg := rfl
@[simp] theorem enterHalt_win (s : State) : (enterHalt s).win = s.win := rfl
@[simp] theorem enterHalt_winValid (s : State) : (enterHalt s).winValid = s.winValid := rfl
@[simp] theorem enterHalt_buf (s : State) : (enterHalt s).buf = s.buf := rfl
@[simp] theorem enterHalt_bufLen (s : State) : (enterHalt s).bufLen = s.bufLen := rfl
@[simp] theorem enterHalt_pins (s : State) : (enterHalt s).pins = s.pins := rfl
@[simp] theorem enterHalt_cs (s : State) : (enterHalt s).cs = s.cs := rfl
@[simp] theorem enterHalt_trace (s : State) : (enterHalt s).trace = s.trace := rfl
@[simp] theorem enterHalt_xferCount (s : State) : (enterHalt s).xferCount = s.xferCount := rfl
@[simp] theorem enterHalt_env (s : State) : (enterHalt s).env = s.env := rfl
@[simp] theorem enterHalt_idling (s : State) : (enterHalt s).idling = s.idling := rfl
@[simp] theorem enterHalt_requests (s : State) : (enterHalt s).requests = s.requests := rfl

@[simp] theorem afterRaise_phase (c : FaultCode) (n : FaultInfo) (s : State) : (afterRaise c n s).phase = .halted := rfl
@[simp] theorem afterRaise_initIdx (c : FaultCode) (n : FaultInfo) (s : State) : (afterRaise c n s).initIdx = s.initIdx := rfl
@[simp] theorem afterRaise_fault (c : FaultCode) (n : FaultInfo) (s : State) : (afterRaise c n s).fault = some (s.fault.getD ⟨c, n⟩) := rfl
@[simp] theorem afterRaise_cfg (c : FaultCode) (n : FaultInfo) (s : State) : (afterRaise c n s).cfg = s.cfg := rfl
@[simp] theorem afterRaise_win (c : FaultCode) (n : FaultInfo) (s : State) : (afterRaise c n s).win = s.win := rfl
@[simp] theorem afterRaise_winValid (c : FaultCode) (n : FaultInfo) (s : State) : (afterRaise c n s).winValid = s.winValid := rfl
@[simp] theorem afterRaise_buf (c : FaultCode) (n : FaultInfo) (s : State) : (afterRaise c n s).buf = s.buf := rfl
@[simp] theorem afterRaise_bufLen (c : FaultCode) (n : FaultInfo) (s : State) : (afterRaise c n s).bufLen = s.bufLen := rfl
@[simp] theorem afterRaise_pins (c : FaultCode) (n : FaultInfo) (s : State) : (afterRaise c n s).pins = s.pins := rfl
@[simp] theorem afterRaise_cs (c : FaultCode) (n : FaultInfo) (s : State) : (afterRaise c n s).cs = s.cs := rfl
@[simp] theorem afterRaise_trace (c : FaultCode) (n : FaultInfo) (s : State) : (afterRaise c n s).trace = s.trace := rfl
@[simp] theorem afterRaise_xferCount (c : FaultCode) (n : FaultInfo) (s : State) : (afterRaise c n s).xferCount = s.xferCount := rfl
@[simp] theorem afterRaise_env (c : FaultCode) (n : FaultInfo) (s : State) : (afterRaise c n s).env = s.env := rfl
@[simp] theorem afterRaise_idling (c : FaultCode) (n : FaultInfo) (s : State) : (afterRaise c n s).idling = s.idling := rfl
@[simp] theorem afterRaise_requests (c : FaultCode) (n : FaultInfo) (s : State) : (afterRaise c n s).requests = s.requests := rfl

@[simp] theorem afterCommand_phase (op : Byte) (ps : List Byte) (s : State) : (afterCommand op ps s).phase = s.phase := rfl
@[simp] theorem afterCommand_initIdx (op : Byte) (ps : List Byte) (s : State) : (afterCommand op ps s).initIdx = s.initIdx := rfl
@[simp] theorem afterCommand_fault (op : Byte) (ps : List Byte) (s : State) : (afterCommand op ps s).fault = s.fault := rfl
@[simp] theorem afterCommand_cfg (op : Byte) (ps : List Byte) (s : State) : (afterCommand op ps s).cfg = s.cfg := rfl
@[simp] theorem afterCommand_win (op : Byte) (ps : List Byte) (s : State) : (afterCommand op ps s).win = s.win := rfl
@[simp] theorem afterCommand_winValid (op : Byte) (ps : List Byte) (s : State) : (afterCommand op ps s).winValid = s.winValid := rfl
@[simp] theorem afterCommand_buf (op : Byte) (ps : List Byte) (s : State) : (afterCommand op ps s).buf = commandBuf s.cfg op ps s.buf := rfl
@[simp] theorem afterCommand_bufLen (op : Byte) (ps : List Byte) (s : State) : (afterCommand op ps s).bufLen = 0 := rfl
@[simp] theorem afterCommand_pins (op : Byte) (ps : List Byte) (s : State) : (afterCommand op ps s).pins = s.pins.set .dc (commandDc s.cfg ps) := rfl
@[simp] theorem afterCommand_cs (op : Byte) (ps : List Byte) (s : State) : (afterCommand op ps s).cs = .deasserted := rfl
@[simp] theorem afterCommand_trace (op : Byte) (ps : List Byte) (s : State) : (afterCommand op ps s).trace = s.trace ++ commandEvents s.cfg op ps := rfl
@[simp] theorem afterCommand_xferCount (op : Byte) (ps : List Byte) (s : State) : (afterCommand op ps s).xferCount = s.xferCount + commandTransfers s.cfg ps := rfl
@[simp] theorem afterCommand_env (op : Byte) (ps : List Byte) (s : State) : (afterCommand op ps s).env = s.env := rfl
@[simp] theorem afterCommand_idling (op : Byte) (ps : List Byte) (s : State) : (afterCommand op ps s).idling = s.idling := rfl
@[simp] theorem afterCommand_requests (op : Byte) (ps : List Byte) (s : State) : (afterCommand op ps s).requests = s.requests := rfl

@[simp] theorem afterPixels_phase (px : List U16) (s : State) : (afterPixels px s).phase = s.phase := rfl
@[simp] theorem afterPixels_initIdx (px : List U16) (s : State) : (afterPixels px s).initIdx = s.initIdx := rfl
@[simp] theorem afterPixels_fault (px : List U16) (s : State) : (afterPixels px s).fault = s.fault := rfl
@[simp] theorem afterPixels_cfg (px : List U16) (s : State) : (afterPixels px s).cfg = s.cfg := rfl
@[simp] theorem afterPixels_win (px : List U16) (s : State) : (afterPixels px s).win = s.win := rfl
@[simp] theorem afterPixels_winValid (px : List U16) (s : State) : (afterPixels px s).winValid = s.winValid := rfl
@[simp] theorem afterPixels_buf (px : List U16) (s : State) : (afterPixels px s).buf = storeWrapped s.cfg.bufSize 0 (pixelPayload s.cfg px) s.buf := rfl
@[simp] theorem afterPixels_bufLen (px : List U16) (s : State) : (afterPixels px s).bufLen = 0 := rfl
@[simp] theorem afterPixels_pins (px : List U16) (s : State) : (afterPixels px s).pins = s.pins.set .dc .high := rfl
@[simp] theorem afterPixels_cs (px : List U16) (s : State) : (afterPixels px s).cs = .deasserted := rfl
@[simp] theorem afterPixels_trace (px : List U16) (s : State) : (afterPixels px s).trace = s.trace ++ pixelEvents s.cfg px := rfl
@[simp] theorem afterPixels_xferCount (px : List U16) (s : State) : (afterPixels px s).xferCount = s.xferCount + chunkCount s.cfg.bufSize (2 * px.length) := rfl
@[simp] theorem afterPixels_env (px : List U16) (s : State) : (afterPixels px s).env = s.env := rfl
@[simp] theorem afterPixels_idling (px : List U16) (s : State) : (afterPixels px s).idling = s.idling := rfl
@[simp] theorem afterPixels_requests (px : List U16) (s : State) : (afterPixels px s).requests = s.requests := rfl

@[simp] theorem afterResetPulse_phase (s : State) : (afterResetPulse s).phase = .resetting := rfl
@[simp] theorem afterResetPulse_initIdx (s : State) : (afterResetPulse s).initIdx = s.initIdx := rfl
@[simp] theorem afterResetPulse_fault (s : State) : (afterResetPulse s).fault = s.fault := rfl
@[simp] theorem afterResetPulse_cfg (s : State) : (afterResetPulse s).cfg = s.cfg := rfl
@[simp] theorem afterResetPulse_win (s : State) : (afterResetPulse s).win = s.win := rfl
@[simp] theorem afterResetPulse_winValid (s : State) : (afterResetPulse s).winValid = s.winValid := rfl
@[simp] theorem afterResetPulse_buf (s : State) : (afterResetPulse s).buf = s.buf := rfl
@[simp] theorem afterResetPulse_bufLen (s : State) : (afterResetPulse s).bufLen = s.bufLen := rfl
@[simp] theorem afterResetPulse_pins (s : State) : (afterResetPulse s).pins = s.pins.set .rst .high := rfl
@[simp] theorem afterResetPulse_cs (s : State) : (afterResetPulse s).cs = s.cs := rfl
@[simp] theorem afterResetPulse_trace (s : State) : (afterResetPulse s).trace = s.trace ++ pulseEvents s.cfg := rfl
@[simp] theorem afterResetPulse_xferCount (s : State) : (afterResetPulse s).xferCount = s.xferCount := rfl
@[simp] theorem afterResetPulse_env (s : State) : (afterResetPulse s).env = s.env := rfl
@[simp] theorem afterResetPulse_idling (s : State) : (afterResetPulse s).idling = s.idling := rfl
@[simp] theorem afterResetPulse_requests (s : State) : (afterResetPulse s).requests = s.requests := rfl

@[simp] theorem afterBoot_phase (c : Cfg) (s : State) : (afterBoot c s).phase = .uninitialized := rfl
@[simp] theorem afterBoot_initIdx (c : Cfg) (s : State) : (afterBoot c s).initIdx = s.initIdx := rfl
@[simp] theorem afterBoot_fault (c : Cfg) (s : State) : (afterBoot c s).fault = s.fault := rfl
@[simp] theorem afterBoot_cfg (c : Cfg) (s : State) : (afterBoot c s).cfg = c := rfl
@[simp] theorem afterBoot_win (c : Cfg) (s : State) : (afterBoot c s).win = s.win := rfl
@[simp] theorem afterBoot_winValid (c : Cfg) (s : State) : (afterBoot c s).winValid = s.winValid := rfl
@[simp] theorem afterBoot_buf (c : Cfg) (s : State) : (afterBoot c s).buf = s.buf := rfl
@[simp] theorem afterBoot_bufLen (c : Cfg) (s : State) : (afterBoot c s).bufLen = s.bufLen := rfl
@[simp] theorem afterBoot_pins (c : Cfg) (s : State) : (afterBoot c s).pins = ⟨c.rstInit, c.dcInit, c.blInit⟩ := rfl
@[simp] theorem afterBoot_cs (c : Cfg) (s : State) : (afterBoot c s).cs = .deasserted := rfl
@[simp] theorem afterBoot_trace (c : Cfg) (s : State) : (afterBoot c s).trace = s.trace := rfl
@[simp] theorem afterBoot_xferCount (c : Cfg) (s : State) : (afterBoot c s).xferCount = s.xferCount := rfl
@[simp] theorem afterBoot_env (c : Cfg) (s : State) : (afterBoot c s).env = s.env := rfl
@[simp] theorem afterBoot_idling (c : Cfg) (s : State) : (afterBoot c s).idling = s.idling := rfl
@[simp] theorem afterBoot_requests (c : Cfg) (s : State) : (afterBoot c s).requests = s.requests := rfl

@[simp] theorem Pins.set_rst_rst (ps : Pins) (v : Level) : (ps.set .rst v).rst = v := rfl
@[simp] theorem Pins.set_rst_dc (ps : Pins) (v : Level) : (ps.set .rst v).dc = ps.dc := rfl
@[simp] theorem Pins.set_rst_bl (ps : Pins) (v : Level) : (ps.set .rst v).bl = ps.bl := rfl
@[simp] theorem Pins.set_dc_rst (ps : Pins) (v : Level) : (ps.set .dc v).rst = ps.rst := rfl
@[simp] theorem Pins.set_dc_dc (ps : Pins) (v : Level) : (ps.set .dc v).dc = v := rfl
@[simp] theorem Pins.set_dc_bl (ps : Pins) (v : Level) : (ps.set .dc v).bl = ps.bl := rfl
@[simp] theorem Pins.set_bl_rst (ps : Pins) (v : Level) : (ps.set .bl v).rst = ps.rst := rfl
@[simp] theorem Pins.set_bl_dc (ps : Pins) (v : Level) : (ps.set .bl v).dc = ps.dc := rfl
@[simp] theorem Pins.set_bl_bl (ps : Pins) (v : Level) : (ps.set .bl v).bl = v := rfl

/-- A pin holds the level last written. -/
@[simp] theorem Pins.get_set_same (ps : Pins) (p : Pin) (v : Level) : (ps.set p v).get p = v := by
  cases p <;> rfl

/-- Writing one pin leaves the others alone. -/
theorem Pins.get_set_other (ps : Pins) (p q : Pin) (v : Level) (h : q ≠ p) : (ps.set p v).get q = ps.get q := by
  cases p <;> cases q <;> first | rfl | exact absurd rfl h

/-- Only the last write of a pin counts. -/
@[simp] theorem Pins.set_set (ps : Pins) (p : Pin) (v w : Level) : (ps.set p v).set p w = ps.set p w := by
  cases p <;> rfl

end Sys2Proof.Machine
end

