-- ==== Sys2Proof/Laws/Memory.lean ====
section
/-! SUPPORT. The scratch buffer's memory: read after write, and that every write keeps the canonical form. -/
namespace Sys2Proof.Machine

theorem Memory.read_erase_same (m : Memory) (a : Nat) : (m.erase a).read a = 0 := by
  induction m with
  | nil => rfl
  | cons c rest ih =>
    by_cases h : c.1 = a
    · simpa [Memory.erase, h] using ih
    · simpa [Memory.erase, Memory.read, h] using ih

theorem Memory.read_erase_other (m : Memory) (a a' : Nat) (h : a' ≠ a) : (m.erase a).read a' = m.read a' := by
  induction m with
  | nil => rfl
  | cons c rest ih =>
    by_cases hc : c.1 = a
    · have : c.1 ≠ a' := fun h' => h (h'.symm.trans hc)
      simpa [Memory.erase, Memory.read, hc, h.symm] using ih
    · simp only [Memory.erase, if_neg hc, Memory.read, ih]

theorem Memory.read_insert_same (m : Memory) (a : Nat) (b : Byte) (h : ∀ c ∈ m, c.1 ≠ a) :
    (m.insert a b).read a = b := by
  induction m with
  | nil => simp [Memory.insert, Memory.read]
  | cons c rest ih =>
    have hc : c.1 ≠ a := h c (by simp)
    by_cases hlt : a < c.1
    · simp [Memory.insert, Memory.read, hlt]
    · simpa [Memory.insert, Memory.read, hlt, hc] using ih fun d hd => h d (by simp [hd])

theorem Memory.read_insert_other (m : Memory) (a a' : Nat) (b : Byte) (h : a' ≠ a) :
    (m.insert a b).read a' = m.read a' := by
  induction m with
  | nil => simp [Memory.insert, Memory.read, h.symm]
  | cons c rest ih =>
    by_cases hlt : a < c.1
    · simp [Memory.insert, Memory.read, hlt, h.symm]
    · simp only [Memory.insert, if_neg hlt, Memory.read, ih]

theorem Memory.mem_erase (m : Memory) (a : Nat) (c : Host.Cell) : c ∈ m.erase a ↔ c ∈ m ∧ c.1 ≠ a := by
  induction m with
  | nil => simp [Memory.erase]
  | cons d rest ih =>
    by_cases h : d.1 = a
    · simp only [Memory.erase, h, ↓reduceIte, ih, List.mem_cons]
      constructor
      · exact fun ⟨h1, h2⟩ => ⟨.inr h1, h2⟩
      · rintro ⟨rfl | h1, h2⟩
        · exact absurd h h2
        · exact ⟨h1, h2⟩
    · simp only [Memory.erase, h, ↓reduceIte, List.mem_cons, ih]
      constructor
      · rintro (rfl | ⟨h1, h2⟩)
        · exact ⟨.inl rfl, h⟩
        · exact ⟨.inr h1, h2⟩
      · rintro ⟨rfl | h1, h2⟩
        · exact .inl rfl
        · exact .inr ⟨h1, h2⟩

theorem Memory.mem_insert (m : Memory) (a : Nat) (b : Byte) (c : Host.Cell) :
    c ∈ m.insert a b ↔ c = (a, b) ∨ c ∈ m := by
  induction m with
  | nil => simp [Memory.insert]
  | cons d rest ih =>
    by_cases h : a < d.1
    · simp [Memory.insert, h]
    · simp only [Memory.insert, h, ↓reduceIte, List.mem_cons, ih]
      tauto

/-- A byte written is read back. -/
theorem Memory.read_write_same (m : Memory) (a : Nat) (b : Byte) : (m.write a b).read a = b := by
  unfold Memory.write
  split
  · next h => rw [Memory.read_erase_same, h]
  · exact Memory.read_insert_same _ _ _ fun c hc => ((Memory.mem_erase m a c).1 hc).2

/-- A write leaves every other byte alone. -/
theorem Memory.read_write_other (m : Memory) (a a' : Nat) (b : Byte) (h : a' ≠ a) :
    (m.write a b).read a' = m.read a' := by
  unfold Memory.write
  split
  · exact Memory.read_erase_other m a a' h
  · rw [Memory.read_insert_other _ _ _ _ h, Memory.read_erase_other m a a' h]

theorem Memory.rising_erase (m : Memory) (a : Nat) (h : m.Pairwise (fun c d => c.1 < d.1)) :
    (m.erase a).Pairwise (fun c d => c.1 < d.1) := by
  induction m with
  | nil => exact .nil
  | cons c rest ih =>
    obtain ⟨h1, h2⟩ := List.pairwise_cons.1 h
    by_cases hc : c.1 = a
    · simpa [Memory.erase, hc] using ih h2
    · simp only [Memory.erase, hc, ↓reduceIte]
      exact List.pairwise_cons.2 ⟨fun d hd => h1 d ((Memory.mem_erase rest a d).1 hd).1, ih h2⟩

theorem Memory.rising_insert (m : Memory) (a : Nat) (b : Byte) (h : m.Pairwise (fun c d => c.1 < d.1))
    (hne : ∀ c ∈ m, c.1 ≠ a) : (m.insert a b).Pairwise (fun c d => c.1 < d.1) := by
  induction m with
  | nil => simp [Memory.insert]
  | cons c rest ih =>
    obtain ⟨h1, h2⟩ := List.pairwise_cons.1 h
    by_cases hlt : a < c.1
    · simp only [Memory.insert, hlt, ↓reduceIte]
      refine List.pairwise_cons.2 ⟨fun d hd => ?_, h⟩
      rcases List.mem_cons.1 hd with rfl | hd
      · exact hlt
      · exact hlt.trans (h1 d hd)
    · simp only [Memory.insert, hlt, ↓reduceIte]
      refine List.pairwise_cons.2 ⟨fun d hd => ?_, ih h2 fun d hd => hne d (by simp [hd])⟩
      rcases (Memory.mem_insert rest a b d).1 hd with rfl | hd
      · have := hne c (by simp)
        show c.1 < a
        omega
      · exact h1 d hd

/-- Every write keeps the canonical form. -/
theorem Memory.wf_write (m : Memory) (a : Nat) (b : Byte) (h : m.wf) : (m.write a b).wf := by
  have hr := Memory.rising_erase m a h.1
  have hz : ∀ c ∈ m.erase a, c.2 ≠ 0 := fun c hc => h.2 c ((Memory.mem_erase m a c).1 hc).1
  unfold Memory.write
  split
  · exact ⟨hr, hz⟩
  · next hb =>
    refine ⟨Memory.rising_insert _ a b hr fun c hc => ((Memory.mem_erase m a c).1 hc).2, fun c hc => ?_⟩
    rcases (Memory.mem_insert _ a b c).1 hc with rfl | hc
    · exact hb
    · exact hz c hc

/-- A write lists no address but its own and those listed before. -/
theorem Memory.mem_write (m : Memory) (a : Nat) (b : Byte) (c : Host.Cell) (h : c ∈ m.write a b) :
    c.1 = a ∨ c ∈ m := by
  unfold Memory.write at h
  split at h
  · exact .inr ((Memory.mem_erase m a c).1 h).1
  · rcases (Memory.mem_insert _ a b c).1 h with rfl | h
    · exact .inl rfl
    · exact .inr ((Memory.mem_erase m a c).1 h).1

/-- The memory of the reset state is in canonical form. -/
theorem State.reset_buf_wf : State.reset.buf.wf := by decide

@[simp] theorem Memory.slice_length (m : Memory) (n : Nat) : (m.slice n).length = n := by simp [Memory.slice]

@[simp] theorem Memory.slice_zero (m : Memory) : m.slice 0 = [] := rfl

theorem Memory.slice_succ (m : Memory) (n : Nat) : m.slice (n + 1) = m.slice n ++ [m.read n] := by
  simp [Memory.slice, List.range_succ]

/-- A write above a slice leaves the slice alone. -/
theorem Memory.slice_write (m : Memory) (n a : Nat) (b : Byte) (h : n ≤ a) : (m.write a b).slice n = m.slice n := by
  refine List.map_congr_left fun i hi => Memory.read_write_other m a i b ?_
  have := List.mem_range.1 hi
  omega

/-- Storing the next byte lengthens the slice by it. -/
theorem Memory.slice_write_next (m : Memory) (n : Nat) (b : Byte) :
    (m.write n b).slice (n + 1) = m.slice n ++ [b] := by
  rw [Memory.slice_succ, Memory.slice_write m n n b le_rfl, Memory.read_write_same]

end Sys2Proof.Machine
end

