-- ==== Sys2Proof/Laws/Ops.lean ====
section
/-! SUPPORT. Sequencing, checks, raising and acceptance: what each can answer, said once. -/
namespace Sys2Proof.Machine

@[simp] theorem Result.andThen_ok (s : State) (f : State → Result) : (Result.ok s).andThen f = f s := rfl
@[simp] theorem Result.andThen_raised (s : State) (f : State → Result) : (Result.raised s).andThen f = .raised s := rfl
@[simp] theorem Result.andThen_broken (e : Fault) (f : State → Result) : (Result.broken e).andThen f = .broken e := rfl
@[simp] theorem Result.outcome_ok (s : State) : (Result.ok s).outcome = .next s := rfl
@[simp] theorem Result.outcome_raised (s : State) : (Result.raised s).outcome = .next s := rfl
@[simp] theorem Result.outcome_broken (e : Fault) : (Result.broken e).outcome = .fault e := rfl

theorem Result.andThen_assoc (r : Result) (f g : State → Result) :
    (r.andThen f).andThen g = r.andThen fun s => (f s).andThen g := by
  cases r <;> rfl

/-- What a sequence can have done: its second part ran on what the first left, or the first stopped it. -/
theorem Result.andThen_eq_ok {r : Result} {f : State → Result} {t : State} (h : r.andThen f = .ok t) :
    ∃ m, r = .ok m ∧ f m = .ok t := by
  cases r with
  | ok m => exact ⟨m, rfl, h⟩
  | raised m => cases h
  | broken e => cases h

theorem Result.andThen_eq_raised {r : Result} {f : State → Result} {t : State} (h : r.andThen f = .raised t) :
    r = .raised t ∨ ∃ m, r = .ok m ∧ f m = .raised t := by
  cases r with
  | ok m => exact .inr ⟨m, rfl, h⟩
  | raised m => cases h; exact .inl rfl
  | broken e => cases h

theorem Result.andThen_eq_broken {r : Result} {f : State → Result} {e : Fault} (h : r.andThen f = .broken e) :
    r = .broken e ∨ ∃ m, r = .ok m ∧ f m = .broken e := by
  cases r with
  | ok m => exact .inr ⟨m, rfl, h⟩
  | raised m => cases h
  | broken e => cases h; exact .inl rfl

theorem Result.outcome_eq_next {r : Result} {t : State} (h : r.outcome = .next t) : r = .ok t ∨ r = .raised t := by
  cases r <;> cases h <;> simp

theorem Result.outcome_eq_fault {r : Result} {e : Fault} (h : r.outcome = .fault e) : r = .broken e := by
  cases r <;> cases h; rfl

/-- What a result says of the state it holds: `Q` where the operation went on, `R` where it raised. -/
def Result.Post (r : Result) (Q R : State → Prop) : Prop :=
  match r with
  | .ok s => Q s
  | .raised s => R s
  | .broken _ => True

@[simp] theorem Result.post_ok (s : State) (Q R : State → Prop) : (Result.ok s).Post Q R ↔ Q s := .rfl
@[simp] theorem Result.post_raised (s : State) (Q R : State → Prop) : (Result.raised s).Post Q R ↔ R s := .rfl
@[simp] theorem Result.post_broken (e : Fault) (Q R : State → Prop) : (Result.broken e).Post Q R ↔ True := .rfl

theorem Result.post_andThen {r : Result} {f : State → Result} {Q Q' R : State → Prop} (hr : r.Post Q R)
    (hf : ∀ s, Q s → (f s).Post Q' R) : (r.andThen f).Post Q' R := by
  cases r with
  | ok s => exact hf s hr
  | raised s => exact hr
  | broken e => trivial

theorem Result.post_mono {r : Result} {Q Q' R R' : State → Prop} (h : r.Post Q R) (hq : ∀ s, Q s → Q' s)
    (hr : ∀ s, R s → R' s) : r.Post Q' R' := by
  cases r with
  | ok s => exact hq s h
  | raised s => exact hr s h
  | broken e => trivial

/-- A raise: FAULT keeps the first cause, the block is halted, nothing else changes (60_exceptions.md R168). -/
@[simp] theorem raise_eq (c : FaultCode) (i : FaultInfo) (s : State) : raise c i s = .raised (afterRaise c i s) := rfl

theorem require_of_true {c : Bool} (h : c = true) (code : FaultCode) (info : FaultInfo) (body : State → Result)
    (s : State) : require c code info body s = body s := by simp [require, h]

theorem require_of_false {c : Bool} (h : c = false) (code : FaultCode) (info : FaultInfo) (body : State → Result)
    (s : State) : require c code info body s = .raised (afterRaise code info s) := by simp [require, h]

/-- A check either lets the body run or raises. -/
theorem require_post {c : Bool} {code : FaultCode} {info : FaultInfo} {body : State → Result} {s : State}
    {Q R : State → Prop} (hb : c = true → (body s).Post Q R) (hr : c = false → R (afterRaise code info s)) :
    (require c code info body s).Post Q R := by
  cases h : c
  · rw [require_of_false rfl]; exact hr h
  · rw [require_of_true rfl]; exact hb h

theorem requirePhase_of_eq {ph : Phase} {s : State} (h : s.phase = ph) (op : CheckedOp) (body : State → Result) :
    requirePhase ph op body s = body s := require_of_true (by simpa using h) _ _ _ _

theorem requirePhase_of_ne {ph : Phase} {s : State} (h : s.phase ≠ ph) (op : CheckedOp) (body : State → Result) :
    requirePhase ph op body s = .raised (afterRaise .illegalState (.operation op) s) :=
  require_of_false (by simpa using h) _ _ _ _

theorem requireWindow_of_valid {s : State} (h : s.winValid = true) (body : State → Result) :
    requireWindow body s = body s := require_of_true h _ _ _ _

theorem requireWindow_of_not {s : State} (h : s.winValid = false) (body : State → Result) :
    requireWindow body s = .raised (afterRaise .illegalState .windowNotSet s) := require_of_false h _ _ _ _

theorem requireInBounds_of_in {w : Window} {s : State} (h : inBounds s.cfg w = true) (body : State → Result) :
    requireInBounds w body s = body s := require_of_true h _ _ _ _

theorem requireInBounds_of_out {w : Window} {s : State} (h : inBounds s.cfg w = false) (body : State → Result) :
    requireInBounds w body s = .raised (afterRaise .windowOutOfBounds (.window w.x0 w.y0 w.x1 w.y1) s) :=
  require_of_false h _ _ _ _

theorem requireCount_of_eq {given n : Nat} (h : given = n) (body : State → Result) (s : State) :
    requireCount given n body s = body s := require_of_true (by simpa using h) _ _ _ _

theorem requireCount_of_ne {given n : Nat} (h : given ≠ n) (body : State → Result) (s : State) :
    requireCount given n body s = .raised (afterRaise .lengthMismatch (.lengths given n) s) :=
  require_of_false (by simpa using h) _ _ _ _

/-- An accepted operation answers what its body answers. -/
theorem admitted_of_live {s : State} (h : Live s) (body : State → Result) : admitted body s = (body s).outcome := by
  simp [admitted, h.1, h.2]

/-- An operation that has a next state was accepted, and its body went on to it or raised into it. -/
theorem admitted_eq_next {body : State → Result} {s t : State} (h : admitted body s = .next t) :
    Live s ∧ (body s = .ok t ∨ body s = .raised t) := by
  unfold admitted at h
  split at h
  · cases h
  · next hp =>
    split at h
    · cases h
    · next hi => exact ⟨⟨hp, by simpa using hi⟩, Result.outcome_eq_next h⟩

theorem admitted_of_halted {s : State} (h : s.phase = .halted) (body : State → Result) :
    admitted body s = .refused .halted := by simp [admitted, h]

theorem admitted_of_idling {s : State} (hp : s.phase ≠ .halted) (h : s.idling = true) (body : State → Result) :
    admitted body s = .refused .idling := by simp [admitted, hp, h]

/-- What holds of every result of the body holds of the next state. -/
theorem admitted_post {body : State → Result} {s t : State} {P : State → Prop} (h : admitted body s = .next t)
    (hb : Live s → (body s).Post P P) : P t := by
  obtain ⟨hl, h | h⟩ := admitted_eq_next h
  · simpa [h] using hb hl
  · simpa [h] using hb hl

end Sys2Proof.Machine
end

