-- ==== Sys2Proof/Laws/Transport.lean ====
section
/-! SUPPORT. Everything the transport's three parts can do (40_pin_spi_delay.md R84, R85, R87). -/
namespace Sys2Proof.Machine

theorem csAssert_of_deasserted {s : State} (h : s.cs = .deasserted) :
    csAssert s = .ok (emit .csAssert { s with cs := .asserted }) := by simp [csAssert, h]

theorem csAssert_of_asserted {s : State} (h : s.cs = .asserted) :
    csAssert s = .broken .chipSelectAsserted := by simp [csAssert, h]

theorem csDeassert_of_asserted {s : State} (h : s.cs = .asserted) :
    csDeassert s = .ok (emit .csDeassert { s with cs := .deasserted }) := by simp [csDeassert, h]

theorem csDeassert_of_deasserted {s : State} (h : s.cs = .deasserted) :
    csDeassert s = .broken .chipSelectDeasserted := by simp [csDeassert, h]

theorem transferFailed_emitPrefix (bytes : List Byte) (j : Nat) (s : State) :
    transferFailed s.xferCount (emitPrefix (bytes.take j) s) = .raised (afterTransferFault bytes j s) := by
  unfold transferFailed emitPrefix afterTransferFault
  split <;> simp [emit, afterRaise]

/-- A legal transfer that succeeds. -/
theorem xfer_of_ok {bytes : List Byte} {s : State} (hc : s.cs = .asserted) (h1 : 1 ≤ bytes.length)
    (h2 : bytes.length ≤ s.cfg.bufSize) (hx : s.env.xferFault s.xferCount = none) :
    xfer bytes s = .ok (emit (.xfer s.pins.dc bytes) { s with xferCount := s.xferCount + 1 }) := by
  have h0 : ¬(bytes.length = 0 ∨ s.cfg.bufSize < bytes.length) := by omega
  simp only [xfer, hc, reduceCtorEq, ↓reduceIte, h0, hx]

/-- A legal transfer that fails. -/
theorem xfer_of_fault {bytes : List Byte} {s : State} {j : Nat} (hc : s.cs = .asserted) (h1 : 1 ≤ bytes.length)
    (h2 : bytes.length ≤ s.cfg.bufSize) (hx : s.env.xferFault s.xferCount = some j) :
    xfer bytes s = .raised (afterTransferFault bytes j s) := by
  have h0 : ¬(bytes.length = 0 ∨ s.cfg.bufSize < bytes.length) := by omega
  simp only [xfer, hc, reduceCtorEq, ↓reduceIte, h0, hx, transferFailed_emitPrefix]

/-- Everything `xfer` can do: break one of its asserts, succeed, or fail. -/
theorem xfer_cases (bytes : List Byte) (s : State) :
    (s.cs = .deasserted ∧ xfer bytes s = .broken .chipSelectDeasserted) ∨
    (s.cs = .asserted ∧ (bytes.length = 0 ∨ s.cfg.bufSize < bytes.length) ∧ xfer bytes s = .broken .transferLength) ∨
    (s.cs = .asserted ∧ 1 ≤ bytes.length ∧ bytes.length ≤ s.cfg.bufSize ∧
      s.env.xferFault s.xferCount = none ∧
      xfer bytes s = .ok (emit (.xfer s.pins.dc bytes) { s with xferCount := s.xferCount + 1 })) ∨
    (s.cs = .asserted ∧ 1 ≤ bytes.length ∧ bytes.length ≤ s.cfg.bufSize ∧
      ∃ j, s.env.xferFault s.xferCount = some j ∧ xfer bytes s = .raised (afterTransferFault bytes j s)) := by
  have hcs : s.cs = .deasserted ∨ s.cs = .asserted := by cases s.cs <;> simp
  rcases hcs with hc | hc
  · exact .inl ⟨hc, by simp [xfer, hc]⟩
  · by_cases h0 : bytes.length = 0 ∨ s.cfg.bufSize < bytes.length
    · exact .inr (.inl ⟨hc, h0, by simp only [xfer, hc, reduceCtorEq, ↓reduceIte, h0]⟩)
    · have h1 : 1 ≤ bytes.length := by omega
      have h2 : bytes.length ≤ s.cfg.bufSize := by omega
      cases hx : s.env.xferFault s.xferCount with
      | none => exact .inr (.inr (.inl ⟨hc, h1, h2, rfl, xfer_of_ok hc h1 h2 hx⟩))
      | some j => exact .inr (.inr (.inr ⟨hc, h1, h2, j, rfl, xfer_of_fault hc h1 h2 hx⟩))

/-- `BUF[BUF_LEN] <- b` where there is such a byte. -/
theorem bufStore_of_lt {b : Byte} {s : State} (h : s.bufLen < s.cfg.bufSize) :
    bufStore b s = .ok { s with buf := s.buf.write s.bufLen b, bufLen := s.bufLen + 1 } := by simp [bufStore, h]

theorem bufStore_of_ge {b : Byte} {s : State} (h : ¬s.bufLen < s.cfg.bufSize) :
    bufStore b s = .broken .bufferIndex := by simp [bufStore, h]

end Sys2Proof.Machine
end

