-- ==== Sys2Proof/Laws/Framer.lean ====
section
/-! SUPPORT. The framing layer: what a payload's chunks are, and what the chunking loop, SEND_COMMAND and SEND_PIXELS
leave when their transfers succeed and when one fails (41_framer.md). -/
namespace Sys2Proof.Machine

@[simp] theorem chunkCount_zero (n : Nat) : chunkCount n 0 = 0 := by
  rcases Nat.eq_zero_or_pos n with rfl | h
  · rfl
  · exact Nat.div_eq_of_lt (by omega)

theorem chunkCount_one {n : Nat} (h : 0 < n) : chunkCount n 1 = 1 := by
  unfold chunkCount
  rw [Nat.add_comm 1 n, Nat.add_sub_cancel, Nat.div_self h]

/-- A payload that fits the buffer is one transfer. -/
theorem chunkCount_small {n len : Nat} (h0 : 0 < len) (h : len ≤ n) : chunkCount n len = 1 := by
  unfold chunkCount
  exact Nat.div_eq_of_lt_le (by omega) (by omega)

/-- A full buffer is one transfer more. -/
theorem chunkCount_add {n len : Nat} (h : 0 < n) : chunkCount n (n + len) = chunkCount n len + 1 := by
  unfold chunkCount
  rw [show n + len + n - 1 = (len + n - 1) + n by omega, Nat.add_div_right _ h]

@[simp] theorem chunks_length (n : Nat) (l : List Byte) : (chunks n l).length = chunkCount n l.length := by
  simp [chunks]

@[simp] theorem chunks_nil (n : Nat) : chunks n [] = [] := by simp [chunks]

theorem chunk_zero_of_le {n : Nat} {l : List Byte} (h : l.length ≤ n) : chunk n l 0 = l := by
  simp [chunk, List.take_of_length_le h]

theorem chunks_small {n : Nat} {l : List Byte} (h0 : 0 < l.length) (h : l.length ≤ n) : chunks n l = [l] := by
  simp [chunks, chunkCount_small h0 h, chunk_zero_of_le h]

theorem chunk_full_zero {n : Nat} {acc rest : List Byte} (h : acc.length = n) : chunk n (acc ++ rest) 0 = acc := by
  simp [chunk, ← h]

theorem chunk_full_succ {n : Nat} {acc rest : List Byte} (h : acc.length = n) (i : Nat) :
    chunk n (acc ++ rest) (i + 1) = chunk n rest i := by
  unfold chunk
  rw [show (i + 1) * n = acc.length + i * n by rw [h]; ring, List.drop_append,
    List.drop_eq_nil_of_le (Nat.le_add_right _ _), Nat.add_sub_cancel_left, List.nil_append]

theorem chunks_full {n : Nat} {acc rest : List Byte} (hn : 0 < n) (h : acc.length = n) :
    chunks n (acc ++ rest) = acc :: chunks n rest := by
  unfold chunks
  rw [List.length_append, h, chunkCount_add hn, List.range_succ_eq_map, List.map_cons, chunk_full_zero h,
    List.map_map]
  exact congrArg _ (List.map_congr_left fun i _ => chunk_full_succ h i)

/-- The chunks of a payload are the payload (41_framer.md R102). -/
theorem chunks_flatten {n : Nat} (hn : 0 < n) (l : List Byte) : (chunks n l).flatten = l := by
  induction hlen : l.length using Nat.strong_induction_on generalizing l with
  | _ k ih =>
    by_cases hs : l.length ≤ n
    · rcases Nat.eq_zero_or_pos l.length with h0 | h0
      · simp [List.eq_nil_of_length_eq_zero h0]
      · simp [chunks_small h0 hs]
    · have ht : (l.take n).length = n := by rw [List.length_take]; omega
      have := chunks_full (rest := l.drop n) hn ht
      rw [List.take_append_drop] at this
      rw [this, List.flatten_cons, ih _ (by rw [List.length_drop]; omega) _ rfl, List.take_append_drop]

@[simp] theorem storeWrapped_nil (n i : Nat) (m : Memory) : storeWrapped n i [] m = m := rfl

/-- Where a byte goes depends on its number modulo the buffer's size alone. -/
theorem storeWrapped_add (n i : Nat) (bs : List Byte) (m : Memory) :
    storeWrapped n (i + n) bs m = storeWrapped n i bs m := by
  induction bs generalizing i m with
  | nil => rfl
  | cons b bs ih =>
    rw [storeWrapped, storeWrapped, Nat.add_mod_right, Nat.add_right_comm, ih]

/-- Storing a payload leaves the bytes it does not reach alone. -/
theorem storeWrapped_read_other (n i : Nat) (bs : List Byte) (m : Memory) (a : Nat)
    (h : ∀ j, i ≤ j → j < i + bs.length → j % n ≠ a) : (storeWrapped n i bs m).read a = m.read a := by
  induction bs generalizing i m with
  | nil => rfl
  | cons b bs ih =>
    simp only [List.length_cons] at h
    rw [storeWrapped, ih (i + 1) _ fun j h1 h2 => h j (by omega) (by omega)]
    exact Memory.read_write_other _ _ _ _ fun ha => h i le_rfl (by omega) ha.symm

theorem storeWrapped_wf (n i : Nat) (bs : List Byte) (m : Memory) (h : m.wf) : (storeWrapped n i bs m).wf := by
  induction bs generalizing i m with
  | nil => exact h
  | cons b bs ih => exact ih _ _ (Memory.wf_write _ _ _ h)

theorem flush_of_ok {s : State} (hc : s.cs = .asserted) (h1 : 1 ≤ s.bufLen) (h2 : s.bufLen ≤ s.cfg.bufSize)
    (hx : s.env.xferFault s.xferCount = none) :
    flush s = .ok { emit (.xfer s.pins.dc (s.buf.slice s.bufLen)) { s with xferCount := s.xferCount + 1 } with
      bufLen := 0 } := by
  rw [flush, xfer_of_ok hc (by simpa using h1) (by simpa using h2) hx]; rfl

theorem flush_of_fault {s : State} {j : Nat} (hc : s.cs = .asserted) (h1 : 1 ≤ s.bufLen)
    (h2 : s.bufLen ≤ s.cfg.bufSize) (hx : s.env.xferFault s.xferCount = some j) :
    flush s = .raised (afterTransferFault (s.buf.slice s.bufLen) j s) := by
  rw [flush, xfer_of_fault hc (by simpa using h1) (by simpa using h2) hx]; rfl

theorem streamBytes_cons (b : Byte) (bs : List Byte) (s : State) :
    streamBytes (b :: bs) s = ((bufStore b s).andThen flushIfFull).andThen (streamBytes bs) := by
  show (((bufStore b s).andThen flushIfFull).andThen (putBytes bs)).andThen flushRest = _
  rw [Result.andThen_assoc]
  rfl

/-- One byte of the loop that does not fill the buffer. -/
theorem streamBytes_cons_of_lt {b : Byte} (bs : List Byte) {s : State} (hl : s.bufLen + 1 < s.cfg.bufSize) :
    streamBytes (b :: bs) s =
      streamBytes bs { s with buf := s.buf.write s.bufLen b, bufLen := s.bufLen + 1 } := by
  rw [streamBytes_cons, bufStore_of_lt (by omega), Result.andThen_ok]
  have : flushIfFull { s with buf := s.buf.write s.bufLen b, bufLen := s.bufLen + 1 } =
      .ok { s with buf := s.buf.write s.bufLen b, bufLen := s.bufLen + 1 } := if_neg (by simp only; omega)
  rw [this, Result.andThen_ok]

/-- The byte of the loop that fills the buffer, when its transfer succeeds. -/
theorem streamBytes_cons_of_full {b : Byte} (bs : List Byte) {s : State} (hc : s.cs = .asserted)
    (hl : s.bufLen + 1 = s.cfg.bufSize) (hx : s.env.xferFault s.xferCount = none) :
    streamBytes (b :: bs) s = streamBytes bs { s with
      buf := s.buf.write s.bufLen b
      bufLen := 0
      trace := s.trace ++ [.xfer s.pins.dc (s.buf.slice s.bufLen ++ [b])]
      xferCount := s.xferCount + 1 } := by
  rw [streamBytes_cons, bufStore_of_lt (by omega), Result.andThen_ok]
  have hf : flushIfFull { s with buf := s.buf.write s.bufLen b, bufLen := s.bufLen + 1 } =
      flush { s with buf := s.buf.write s.bufLen b, bufLen := s.bufLen + 1 } := if_pos hl
  rw [hf, flush_of_ok (s := { s with buf := s.buf.write s.bufLen b, bufLen := s.bufLen + 1 }) hc
    (Nat.le_add_left _ _) (le_of_eq hl) hx, Result.andThen_ok]
  simp only [Memory.slice_write_next, emit]

/-- The byte of the loop that fills the buffer, when its transfer fails. -/
theorem streamBytes_cons_of_full_fault {b : Byte} (bs : List Byte) {s : State} {p : Nat} (hc : s.cs = .asserted)
    (hl : s.bufLen + 1 = s.cfg.bufSize) (hx : s.env.xferFault s.xferCount = some p) :
    streamBytes (b :: bs) s = .raised (afterTransferFault (s.buf.slice s.bufLen ++ [b]) p
      { s with buf := s.buf.write s.bufLen b, bufLen := s.bufLen + 1 }) := by
  rw [streamBytes_cons, bufStore_of_lt (by omega), Result.andThen_ok]
  have hf : flushIfFull { s with buf := s.buf.write s.bufLen b, bufLen := s.bufLen + 1 } =
      flush { s with buf := s.buf.write s.bufLen b, bufLen := s.bufLen + 1 } := if_pos hl
  rw [hf, flush_of_fault (s := { s with buf := s.buf.write s.bufLen b, bufLen := s.bufLen + 1 }) hc
    (Nat.le_add_left _ _) (le_of_eq hl) hx, Result.andThen_raised]
  simp only [Memory.slice_write_next]

/-- The end of the loop with an empty buffer. -/
theorem streamBytes_nil_empty {s : State} (h : s.bufLen = 0) : streamBytes [] s = .ok s := by
  show flushRest s = _
  exact if_neg (by omega)

/-- The chunks a filled buffer begins. -/
theorem chunks_slice_full {n : Nat} (b : Byte) (bs : List Byte) (m : Memory) {l : Nat} (h : l + 1 = n) :
    chunks n (m.slice l ++ b :: bs) = (m.slice l ++ [b]) :: chunks n bs := by
  have := chunks_full (n := n) (acc := m.slice l ++ [b]) (rest := bs) (by omega) (by simpa using h)
  simpa using this

theorem chunkCount_full {n l k : Nat} (h : l + 1 = n) : chunkCount n (l + (k + 1)) = chunkCount n k + 1 := by
  rw [show l + (k + 1) = n + k by omega, chunkCount_add (by omega)]

/-- The chunking loop from a partly filled buffer, when its transfers succeed. -/
theorem streamBytes_ok_from (bs : List Byte) (s : State) (hc : s.cs = .asserted) (hl : s.bufLen < s.cfg.bufSize)
    (hx : TransfersOk s (chunkCount s.cfg.bufSize (s.bufLen + bs.length))) :
    streamBytes bs s = .ok { s with
      buf := storeWrapped s.cfg.bufSize s.bufLen bs s.buf
      bufLen := 0
      trace := s.trace ++ (chunks s.cfg.bufSize (s.buf.slice s.bufLen ++ bs)).map (.xfer s.pins.dc)
      xferCount := s.xferCount + chunkCount s.cfg.bufSize (s.bufLen + bs.length) } := by
  induction bs generalizing s with
  | nil =>
    rcases Nat.eq_zero_or_pos s.bufLen with h0 | h0
    · rw [streamBytes_nil_empty h0]
      have : s.buf.slice s.bufLen = [] := by rw [h0]; rfl
      rw [this]
      simp only [storeWrapped_nil, List.append_nil, chunks_nil, List.map_nil, List.length_nil, Nat.add_zero,
        h0, chunkCount_zero]
      rw [← h0]
    · have hk := chunkCount_small h0 hl.le
      simp only [List.length_nil, Nat.add_zero, hk] at hx
      have hch := chunks_small (l := s.buf.slice s.bufLen) (by simpa using h0) (by simpa using hl.le)
      show flushRest s = _
      rw [flushRest, if_pos h0, flush_of_ok hc h0 hl.le (hx 0 (by omega))]
      simp only [List.append_nil, hch, List.length_nil, Nat.add_zero, hk, storeWrapped_nil, List.map_cons,
        List.map_nil, emit]
  | cons b bs ih =>
    have hmod : s.bufLen % s.cfg.bufSize = s.bufLen := Nat.mod_eq_of_lt hl
    simp only [List.length_cons] at hx ⊢
    by_cases hf : s.bufLen + 1 = s.cfg.bufSize
    · rw [chunkCount_full hf] at hx ⊢
      rw [streamBytes_cons_of_full bs hc hf (hx 0 (by omega)), chunks_slice_full b bs s.buf hf, ih]
      · have hw := storeWrapped_add s.cfg.bufSize 0 bs (s.buf.write s.bufLen b)
        simp only [storeWrapped, hmod, hf, Memory.slice_zero, List.nil_append, List.map_cons, List.append_assoc, List.singleton_append, Nat.zero_add] at hw ⊢
        simp only [hw, Nat.add_assoc, Nat.add_comm 1]
      · exact hc
      · show 0 < s.cfg.bufSize
        omega
      · intro j hj
        have h := hx (j + 1) (by simpa using hj)
        simpa only [Nat.add_assoc, Nat.add_comm 1] using h
    · rw [streamBytes_cons_of_lt bs (by omega), ih]
      · simp only [Memory.slice_write_next, List.append_assoc, List.singleton_append, storeWrapped, hmod,
          Nat.add_assoc, Nat.add_comm 1]
      · exact hc
      · show s.bufLen + 1 < s.cfg.bufSize
        omega
      · show TransfersOk _ (chunkCount s.cfg.bufSize (s.bufLen + 1 + bs.length))
        rw [show s.bufLen + 1 + bs.length = s.bufLen + (bs.length + 1) by omega]
        exact hx

/-- The chunking loop from an empty buffer, when its transfers succeed (41_framer.md R102). -/
theorem streamBytes_ok (bs : List Byte) (s : State) (hc : s.cs = .asserted) (h0 : s.bufLen = 0)
    (hn : 0 < s.cfg.bufSize) (hx : TransfersOk s (chunkCount s.cfg.bufSize bs.length)) :
    streamBytes bs s = .ok { s with
      buf := storeWrapped s.cfg.bufSize 0 bs s.buf
      bufLen := 0
      trace := s.trace ++ streamEvents s.cfg s.pins.dc bs
      xferCount := s.xferCount + chunkCount s.cfg.bufSize bs.length } := by
  have h := streamBytes_ok_from bs s hc (by omega) (by simpa [h0] using hx)
  simpa [h0, Memory.slice, streamEvents] using h

/-- The chunking loop from a partly filled buffer, when its transfer `j` is the first to fail
(41_framer.md R102, 60_exceptions.md R164). -/
theorem streamBytes_fault_from (bs : List Byte) (s : State) (j p : Nat) (hc : s.cs = .asserted)
    (hl : s.bufLen < s.cfg.bufSize) (hj : j < chunkCount s.cfg.bufSize (s.bufLen + bs.length))
    (hx : TransfersOk s j) (hp : s.env.xferFault (s.xferCount + j) = some p) :
    ∃ m : Memory, m.slice (chunk s.cfg.bufSize (s.buf.slice s.bufLen ++ bs) j).length =
        chunk s.cfg.bufSize (s.buf.slice s.bufLen ++ bs) j ∧
      streamBytes bs s = .raised (afterTransferFault (chunk s.cfg.bufSize (s.buf.slice s.bufLen ++ bs) j) p
        { s with
          buf := m
          bufLen := (chunk s.cfg.bufSize (s.buf.slice s.bufLen ++ bs) j).length
          trace := s.trace ++ ((chunks s.cfg.bufSize (s.buf.slice s.bufLen ++ bs)).take j).map (.xfer s.pins.dc)
          xferCount := s.xferCount + j }) := by
  induction bs generalizing s j with
  | nil =>
    rcases Nat.eq_zero_or_pos s.bufLen with h0 | h0
    · simp [h0] at hj
    · simp only [List.length_nil, Nat.add_zero, chunkCount_small h0 hl.le] at hj
      obtain rfl : j = 0 := by omega
      have hch := chunk_zero_of_le (l := s.buf.slice s.bufLen) (n := s.cfg.bufSize) (by simpa using hl.le)
      refine ⟨s.buf, by simp [hch], ?_⟩
      show flushRest s = _
      rw [flushRest, if_pos h0, flush_of_fault hc h0 hl.le hp]
      simp [hch]
  | cons b bs ih =>
    simp only [List.length_cons] at hj
    by_cases hf : s.bufLen + 1 = s.cfg.bufSize
    · have hfull : (s.buf.slice s.bufLen ++ [b]).length = s.cfg.bufSize := by simpa using hf
      have happ : s.buf.slice s.bufLen ++ b :: bs = (s.buf.slice s.bufLen ++ [b]) ++ bs := by simp
      cases j with
      | zero =>
        have hch := chunk_full_zero (rest := bs) hfull
        rw [happ, hch]
        refine ⟨s.buf.write s.bufLen b, by simp [Memory.slice_write_next], ?_⟩
        rw [streamBytes_cons_of_full_fault bs hc hf hp]
        simp
      | succ j =>
        rw [chunkCount_full hf] at hj
        rw [happ, chunk_full_succ hfull, chunks_full (by omega) hfull]
        have hx' : TransfersOk { s with
            buf := s.buf.write s.bufLen b
            bufLen := 0
            trace := s.trace ++ [.xfer s.pins.dc (s.buf.slice s.bufLen ++ [b])]
            xferCount := s.xferCount + 1 } j := fun i hi => by
          have h := hx (i + 1) (by omega)
          simpa only [Nat.add_assoc, Nat.add_comm 1] using h
        obtain ⟨m, hm, h⟩ := ih { s with
            buf := s.buf.write s.bufLen b
            bufLen := 0
            trace := s.trace ++ [.xfer s.pins.dc (s.buf.slice s.bufLen ++ [b])]
            xferCount := s.xferCount + 1 } j hc (by show 0 < s.cfg.bufSize; omega) (by simpa using hj) hx'
          (by simpa only [Nat.add_assoc, Nat.add_comm 1] using hp)
        simp only [Memory.slice_zero, List.nil_append] at hm h
        refine ⟨m, hm, ?_⟩
        rw [streamBytes_cons_of_full bs hc hf (by simpa using hx 0 (by omega)), h]
        simp only [Nat.add_assoc, Nat.add_comm 1, List.take_succ_cons, List.map_cons, List.append_assoc,
          List.singleton_append]
    · have happ : s.buf.slice s.bufLen ++ b :: bs = (s.buf.write s.bufLen b).slice (s.bufLen + 1) ++ bs := by
        rw [Memory.slice_write_next]; simp
      rw [happ, streamBytes_cons_of_lt bs (by omega)]
      exact ih { s with buf := s.buf.write s.bufLen b, bufLen := s.bufLen + 1 } j hc
        (by show s.bufLen + 1 < s.cfg.bufSize; omega)
        (by show j < chunkCount s.cfg.bufSize (s.bufLen + 1 + bs.length)
            rw [show s.bufLen + 1 + bs.length = s.bufLen + (bs.length + 1) by omega]; exact hj) hx hp

/-- The chunking loop from an empty buffer, when its transfer `j` is the first to fail. -/
theorem streamBytes_fault (bs : List Byte) (s : State) (j p : Nat) (hc : s.cs = .asserted) (h0 : s.bufLen = 0)
    (hn : 0 < s.cfg.bufSize) (hj : j < chunkCount s.cfg.bufSize bs.length)
    (hx : TransfersOk s j) (hp : s.env.xferFault (s.xferCount + j) = some p) :
    ∃ m : Memory, m.slice (chunk s.cfg.bufSize bs j).length = chunk s.cfg.bufSize bs j ∧
      streamBytes bs s = .raised (afterTransferFault (chunk s.cfg.bufSize bs j) p
        { s with
          buf := m
          bufLen := (chunk s.cfg.bufSize bs j).length
          trace := s.trace ++ ((chunks s.cfg.bufSize bs).take j).map (.xfer s.pins.dc)
          xferCount := s.xferCount + j }) := by
  have h := streamBytes_fault_from bs s j p hc (by omega) (by simpa [h0] using hj) hx hp
  simpa [h0, Memory.slice] using h

/-- Two continuations that agree on what an operation can leave. -/
theorem Result.andThen_congr {r : Result} {f g : State → Result} {Q : State → Prop} (hr : r.Post Q fun _ => True)
    (h : ∀ s, Q s → f s = g s) : r.andThen f = r.andThen g := by
  cases r with
  | ok s => exact h s hr
  | raised s => rfl
  | broken e => rfl

@[simp] theorem pixelPayload_length (cfg : Cfg) (ps : List U16) : (pixelPayload cfg ps).length = 2 * ps.length := by
  induction ps with
  | nil => rfl
  | cons p ps ih => simp only [pixelPayload, List.length_cons, ih]; ring

/-- What a flush leaves of the configuration and the buffer's length. -/
theorem flushIfFull_post (s : State) :
    (flushIfFull s).Post (fun t => t.cfg = s.cfg ∧ (t.bufLen = 0 ∨ t.bufLen = s.bufLen)) fun _ => True := by
  unfold flushIfFull
  split
  · unfold flush
    rcases xfer_cases (s.buf.slice s.bufLen) s with ⟨_, h⟩ | ⟨_, _, h⟩ | ⟨_, _, _, _, h⟩ | ⟨_, _, _, j, _, h⟩ <;>
      simp [h]
  · simp

/-- A pixel never splits across two chunks: the loop of SEND_PIXELS is the chunking loop (41_framer.md R104). -/
theorem putPixels_eq_putBytes (ps : List U16) (s : State) (hn : s.cfg.bufSize % 2 = 0) (hl : s.bufLen % 2 = 0) :
    putPixels ps s = putBytes (pixelPayload s.cfg ps) s := by
  induction ps generalizing s with
  | nil => rfl
  | cons p ps ih =>
    simp only [putPixels, pixelPayload, putBytes]
    by_cases hlt : s.bufLen < s.cfg.bufSize
    · have hne : flushIfFull { s with buf := s.buf.write s.bufLen (pixBytes s.cfg p).1, bufLen := s.bufLen + 1 } =
          .ok { s with buf := s.buf.write s.bufLen (pixBytes s.cfg p).1, bufLen := s.bufLen + 1 } :=
        if_neg (by simp only; omega)
      rw [bufStore_of_lt hlt, Result.andThen_ok, Result.andThen_ok, hne, Result.andThen_ok,
        bufStore_of_lt (show s.bufLen + 1 < s.cfg.bufSize by omega), Result.andThen_ok]
      refine Result.andThen_congr (flushIfFull_post _) fun t ht => ?_
      obtain ⟨hcfg, hlen⟩ := ht
      simp only at hcfg hlen
      rw [← hcfg]
      exact ih t (by rw [hcfg]; exact hn) (by omega)
    · rw [bufStore_of_ge hlt]; rfl

theorem streamPixels_eq_streamBytes (ps : List U16) (s : State) (hn : s.cfg.bufSize % 2 = 0) (hl : s.bufLen = 0) :
    streamPixels ps s = streamBytes (pixelPayload s.cfg ps) s := by
  simp only [streamPixels, streamBytes, putPixels_eq_putBytes ps s hn (by omega)]

theorem TransfersOk.congr {s t : State} {n : Nat} (h : TransfersOk s n) (he : t.env = s.env)
    (hk : t.xferCount = s.xferCount) : TransfersOk t n := fun j hj => by rw [he, hk]; exact h j hj

theorem TransfersOk.mono {s : State} {m n : Nat} (h : TransfersOk s n) (hmn : m ≤ n) : TransfersOk s m :=
  fun j hj => h j (by omega)

/-- A transaction begun: DC written, then chip-select asserted (41_framer.md R100). -/
def opened (v : Level) (s : State) : State :=
  { s with pins := s.pins.set .dc v, cs := .asserted, trace := s.trace ++ [.pin .dc v, .csAssert] }

theorem csAssert_setPin_dc {s : State} (h : s.cs = .deasserted) (v : Level) :
    csAssert (setPin .dc v s) = .ok (opened v s) := by
  rw [csAssert_of_deasserted (s := setPin .dc v s) h]
  simp [opened, emit, setPin]

/-- SEND_COMMAND when its transfers succeed (41_framer.md R101). -/
theorem sendCommand_ok (opcode : Byte) (params : List Byte) (s : State) (hr : FramerReady s)
    (hx : TransfersOk s (commandTransfers s.cfg params)) :
    sendCommand opcode params s = .ok (afterCommand opcode params s) := by
  obtain ⟨hc, h0, hn⟩ := hr
  unfold sendCommand
  rw [csAssert_setPin_dc hc, Result.andThen_ok]
  have h1 := chunkCount_one hn
  cases hd : s.cfg.paramDc with
  | low =>
    simp only [commandTransfers, hd] at hx
    have hsc : streamCommand opcode params (opened .low s) = streamBytes (opcode :: params) (opened .low s) := by
      simp [streamCommand, opened, hd]
    rw [hsc, streamBytes_ok (opcode :: params) (opened .low s) rfl h0 hn (hx.congr rfl rfl), Result.andThen_ok, csDeassert_of_asserted rfl]
    simp [afterCommand, commandDc, commandBuf, commandEvents, commandBody, commandTransfers, hd, emit, opened]
  | high =>
    simp only [commandTransfers, hd] at hx
    have hsc : streamCommand opcode params (opened .low s) =
        (streamBytes [opcode] (opened .low s)).andThen (streamDataParams params) := by
      simp [streamCommand, opened, hd]
    rw [hsc, streamBytes_ok [opcode] (opened .low s) rfl h0 hn (by
      show TransfersOk s (chunkCount s.cfg.bufSize 1)
      rw [h1]; exact hx.mono (by omega)), Result.andThen_ok]
    by_cases hp : params = []
    · subst hp
      rw [streamDataParams, if_pos rfl, Result.andThen_ok, csDeassert_of_asserted rfl]
      simp [afterCommand, commandDc, commandBuf, commandEvents, commandBody, commandTransfers, hd, emit, opened, h1]
    · rw [streamDataParams, if_neg hp]
      have hs := streamBytes_ok params (setPin .dc .high { opened .low s with
          buf := storeWrapped s.cfg.bufSize 0 [opcode] s.buf
          bufLen := 0
          trace := s.trace ++ [.pin .dc .low, .csAssert] ++ streamEvents s.cfg .low [opcode]
          xferCount := s.xferCount + chunkCount s.cfg.bufSize 1 }) rfl rfl hn (by
        intro j hj
        have h := hx (j + 1) (by
          have hj' : j < chunkCount s.cfg.bufSize params.length := hj
          omega)
        simpa [setPin, emit, opened, h1, Nat.add_assoc, Nat.add_comm 1] using h)
      refine (congrArg (Result.andThen · csDeassert) hs).trans ?_
      rw [Result.andThen_ok, csDeassert_of_asserted rfl]
      simp [afterCommand, commandDc, commandBuf, commandEvents, commandBody, commandTransfers, hd, hp, emit, setPin,
        opened, h1, Nat.add_assoc]

/-- SEND_PIXELS when its transfers succeed (41_framer.md R104). -/
theorem sendPixels_ok (pixels : List U16) (s : State) (hr : FramerReady s) (he : s.cfg.bufSize % 2 = 0)
    (hx : TransfersOk s (chunkCount s.cfg.bufSize (2 * pixels.length))) :
    sendPixels pixels s = .ok (afterPixels pixels s) := by
  obtain ⟨hc, h0, hn⟩ := hr
  unfold sendPixels
  rw [csAssert_setPin_dc hc, Result.andThen_ok, streamPixels_eq_streamBytes _ (opened .high s) he h0,
    streamBytes_ok _ (opened .high s) rfl h0 hn (by
      rw [pixelPayload_length]; exact hx.congr rfl rfl), Result.andThen_ok,
    csDeassert_of_asserted rfl]
  simp [afterPixels, pixelEvents, emit, opened]

end Sys2Proof.Machine
end

