-- ==== Sys2Proof/Laws/Rules.lean ====
section
/-! SUPPORT. What every operation made of the framer's parts can do, said once: a relation that each part keeps is
kept by SEND_COMMAND, SEND_PIXELS and everything built of them. -/
namespace Sys2Proof.Machine

/-- `R s t`: the operation may take `s` to `t` and go on; `F s t`: it may raise in `t`. Each part of the framer keeps
them (40_pin_spi_delay.md R81 to R87, 41_framer.md R102). -/
structure FramerRule (R F : State → State → Prop) : Prop where
  refl : ∀ s, R s s
  trans : ∀ {s m t}, R s m → R m t → R s t
  fail : ∀ {s m t}, R s m → F m t → F s t
  dc : ∀ s v, R s (setPin .dc v s)
  begins : ∀ s, s.cs = .deasserted → R s (emit .csAssert { s with cs := .asserted })
  ends : ∀ s, s.cs = .asserted → R s (emit .csDeassert { s with cs := .deasserted })
  store : ∀ s b, s.bufLen < s.cfg.bufSize → R s { s with buf := s.buf.write s.bufLen b, bufLen := s.bufLen + 1 }
  drain : ∀ s, R s { s with bufLen := 0 }
  moves : ∀ s bytes, s.cs = .asserted → 1 ≤ bytes.length → bytes.length ≤ s.cfg.bufSize →
    s.env.xferFault s.xferCount = none → R s (emit (.xfer s.pins.dc bytes) { s with xferCount := s.xferCount + 1 })
  faults : ∀ s bytes j, s.cs = .asserted → 1 ≤ bytes.length → bytes.length ≤ s.cfg.bufSize →
    s.env.xferFault s.xferCount = some j → F s (afterTransferFault bytes j s)

namespace FramerRule

variable {R F : State → State → Prop} (h : FramerRule R F)

include h

theorem seq {s : State} {r : Result} {f : State → Result} (hr : r.Post (R s) (F s))
    (hf : ∀ m, R s m → (f m).Post (R m) (F m)) : (r.andThen f).Post (R s) (F s) :=
  Result.post_andThen hr fun m hm => Result.post_mono (hf m hm) (fun _ => h.trans hm) fun _ => h.fail hm

theorem xfer (bytes : List Byte) (s : State) : (Machine.xfer bytes s).Post (R s) (F s) := by
  rcases xfer_cases bytes s with ⟨_, e⟩ | ⟨_, _, e⟩ | ⟨hc, h1, h2, hx, e⟩ | ⟨hc, h1, h2, j, hx, e⟩ <;> rw [e]
  · trivial
  · trivial
  · exact h.moves s bytes hc h1 h2 hx
  · exact h.faults s bytes j hc h1 h2 hx

theorem csAssert (s : State) : (Machine.csAssert s).Post (R s) (F s) := by
  have hcs : s.cs = .deasserted ∨ s.cs = .asserted := by cases s.cs <;> simp
  rcases hcs with hc | hc
  · rw [csAssert_of_deasserted hc]; exact h.begins s hc
  · rw [csAssert_of_asserted hc]; trivial

theorem csDeassert (s : State) : (Machine.csDeassert s).Post (R s) (F s) := by
  have hcs : s.cs = .deasserted ∨ s.cs = .asserted := by cases s.cs <;> simp
  rcases hcs with hc | hc
  · rw [csDeassert_of_deasserted hc]; trivial
  · rw [csDeassert_of_asserted hc]; exact h.ends s hc

theorem bufStore (b : Byte) (s : State) : (Machine.bufStore b s).Post (R s) (F s) := by
  by_cases hl : s.bufLen < s.cfg.bufSize
  · rw [bufStore_of_lt hl]; exact h.store s b hl
  · rw [bufStore_of_ge hl]; trivial

theorem flush (s : State) : (Machine.flush s).Post (R s) (F s) :=
  h.seq (h.xfer _ s) fun m _ => h.drain m

theorem flushIfFull (s : State) : (Machine.flushIfFull s).Post (R s) (F s) := by
  unfold Machine.flushIfFull
  split
  · exact h.flush s
  · exact h.refl s

theorem flushRest (s : State) : (Machine.flushRest s).Post (R s) (F s) := by
  unfold Machine.flushRest
  split
  · exact h.flush s
  · exact h.refl s

theorem putBytes (bs : List Byte) (s : State) : (Machine.putBytes bs s).Post (R s) (F s) := by
  induction bs generalizing s with
  | nil => exact h.refl s
  | cons b bs ih => exact h.seq (h.seq (h.bufStore b s) fun m _ => h.flushIfFull m) fun m _ => ih m

theorem streamBytes (bs : List Byte) (s : State) : (Machine.streamBytes bs s).Post (R s) (F s) :=
  h.seq (h.putBytes bs s) fun m _ => h.flushRest m

theorem putPixels (ps : List U16) (s : State) : (Machine.putPixels ps s).Post (R s) (F s) := by
  induction ps generalizing s with
  | nil => exact h.refl s
  | cons p ps ih =>
    exact h.seq (h.seq (h.seq (h.bufStore _ s) fun m _ => h.bufStore _ m) fun m _ => h.flushIfFull m) fun m _ => ih m

theorem streamPixels (ps : List U16) (s : State) : (Machine.streamPixels ps s).Post (R s) (F s) :=
  h.seq (h.putPixels ps s) fun m _ => h.flushRest m

theorem streamCommand (op : Byte) (ps : List Byte) (s : State) :
    (Machine.streamCommand op ps s).Post (R s) (F s) := by
  unfold Machine.streamCommand
  split
  · exact h.streamBytes _ s
  · refine h.seq (h.streamBytes _ s) fun m _ => ?_
    unfold Machine.streamDataParams
    split
    · exact h.refl m
    · exact Result.post_mono (h.streamBytes ps (setPin .dc .high m)) (fun _ => h.trans (h.dc m .high))
        fun _ => h.fail (h.dc m .high)

theorem sendCommand (op : Byte) (ps : List Byte) (s : State) : (Machine.sendCommand op ps s).Post (R s) (F s) := by
  refine h.seq (h.seq ?_ fun m _ => h.streamCommand op ps m) fun m _ => h.csDeassert m
  exact Result.post_mono (h.csAssert (setPin .dc .low s)) (fun _ => h.trans (h.dc s .low)) fun _ => h.fail (h.dc s .low)

theorem sendPixels (ps : List U16) (s : State) : (Machine.sendPixels ps s).Post (R s) (F s) := by
  refine h.seq (h.seq ?_ fun m _ => h.streamPixels ps m) fun m _ => h.csDeassert m
  exact Result.post_mono (h.csAssert (setPin .dc .high s)) (fun _ => h.trans (h.dc s .high))
    fun _ => h.fail (h.dc s .high)

theorem sendCommands (cmds : List Cmd) (s : State) : (Machine.sendCommands cmds s).Post (R s) (F s) := by
  induction cmds generalizing s with
  | nil => exact h.refl s
  | cons c cmds ih => exact h.seq (h.sendCommand c.opcode c.params s) fun m _ => ih m

end FramerRule

end Sys2Proof.Machine
end

