-- ==== Sys2Proof/Laws/Operations.lean ====
section
/-! SUPPORT. What the controller's and the drawing operations' shared parts leave when their checks pass and every
transfer succeeds (42_controller_init.md, 43_window_pixels.md). -/
namespace Sys2Proof.Machine

theorem AllTransfersOk.transfersOk {s : State} (h : AllTransfersOk s) (n : Nat) : TransfersOk s n := fun _ _ => h _

theorem AllTransfersOk.congr {s t : State} (h : AllTransfersOk s) (he : t.env = s.env) : AllTransfersOk t :=
  fun k => by rw [he]; exact h k

theorem FramerReady.congr {s t : State} (h : FramerReady s) (hc : t.cs = s.cs) (hb : t.bufLen = s.bufLen)
    (hf : t.cfg = s.cfg) : FramerReady t := ⟨hc.trans h.1, hb.trans h.2.1, by rw [hf]; exact h.2.2⟩

theorem FramerReady.afterCommand {s : State} (h : FramerReady s) (op : Byte) (ps : List Byte) :
    FramerReady (afterCommand op ps s) := ⟨rfl, rfl, h.2.2⟩

theorem afterCommands_cons (c : Cmd) (cs : List Cmd) (s : State) :
    afterCommands (c :: cs) s = afterCommands cs (afterCommand c.opcode c.params s) := rfl

/-- What a list of commands does not change. -/
theorem afterCommands_keeps (cmds : List Cmd) (s : State) :
    (afterCommands cmds s).cfg = s.cfg ∧ (afterCommands cmds s).env = s.env ∧
      (afterCommands cmds s).phase = s.phase ∧ (afterCommands cmds s).win = s.win ∧
      (afterCommands cmds s).winValid = s.winValid ∧ (afterCommands cmds s).fault = s.fault ∧
      (afterCommands cmds s).initIdx = s.initIdx ∧ (afterCommands cmds s).idling = s.idling ∧
      (afterCommands cmds s).requests = s.requests := by
  induction cmds generalizing s with
  | nil => simp [afterCommands]
  | cons c cs ih => rw [afterCommands_cons]; simpa using ih (afterCommand c.opcode c.params s)

theorem FramerReady.afterCommands {s : State} (h : FramerReady s) (cmds : List Cmd) :
    FramerReady (afterCommands cmds s) := by
  induction cmds generalizing s with
  | nil => exact h
  | cons c cs ih => exact ih (h.afterCommand c.opcode c.params)

/-- The events a list of commands appends are the commands', in order. -/
theorem afterCommands_trace (cmds : List Cmd) (s : State) :
    (afterCommands cmds s).trace = s.trace ++ cmds.flatMap fun c => commandEvents s.cfg c.opcode c.params := by
  induction cmds generalizing s with
  | nil => simp [afterCommands]
  | cons c cs ih => rw [afterCommands_cons, ih]; simp

/-- The commands' outcome does not depend on WIN_VALID. -/
theorem afterCommands_winValid (cmds : List Cmd) (s : State) (v : Bool) :
    afterCommands cmds { s with winValid := v } = { afterCommands cmds s with winValid := v } := by
  induction cmds generalizing s with
  | nil => rfl
  | cons c cs ih => exact ih (afterCommand c.opcode c.params s)

theorem sendCommands_ok (cmds : List Cmd) (s : State) (hr : FramerReady s) (hx : AllTransfersOk s) :
    sendCommands cmds s = .ok (afterCommands cmds s) := by
  induction cmds generalizing s with
  | nil => rfl
  | cons c cs ih =>
    rw [sendCommands, sendCommand_ok _ _ s hr (hx.transfersOk _), Result.andThen_ok,
      ih _ (hr.afterCommand _ _) (hx.congr rfl), afterCommands_cons]

/-- One round of CONFIGURE's loop (42_controller_init.md R124). -/
theorem sendEntry_ok (idx : Nat) (op : Byte) (ps : List Byte) (d : Nat) (s : State) (hr : FramerReady s)
    (hx : TransfersOk s (commandTransfers s.cfg ps)) :
    sendEntry idx op ps d s = .ok (afterEntry idx op ps d s) := by
  rw [sendEntry, sendCommand_ok op ps { s with initIdx := idx } hr hx, Result.andThen_ok]
  unfold postDelay afterEntry postDelayEvents
  split <;> simp [delay, emit, afterCommand]

theorem afterEntries_phase (es : List InitEntry) (i : Nat) (s : State) (p : Phase) :
    afterEntries i es { s with phase := p } = { afterEntries i es s with phase := p } := by
  induction es generalizing i s with
  | nil => rfl
  | cons e es ih => exact ih (i + 1) (afterEntry i e.opcode e.params e.postDelayMs s)

theorem FramerReady.afterEntry {s : State} (h : FramerReady s) (i : Nat) (op : Byte) (ps : List Byte) (d : Nat) :
    FramerReady (afterEntry i op ps d s) := ⟨rfl, rfl, h.2.2⟩

theorem sendEntries_ok (es : List InitEntry) (i : Nat) (s : State) (hr : FramerReady s) (hx : AllTransfersOk s) :
    sendEntries i es s = .ok (afterEntries i es s) := by
  induction es generalizing i s with
  | nil => rfl
  | cons e es ih =>
    rw [sendEntries, sendEntry_ok _ _ _ _ s hr (hx.transfersOk _), Result.andThen_ok,
      ih _ _ (hr.afterEntry _ _ _ _) (hx.congr rfl), afterEntries]

/-- What the entries of a table leave (42_controller_init.md R124). -/
theorem afterEntries_keeps (es : List InitEntry) (i : Nat) (s : State) :
    (afterEntries i es s).cfg = s.cfg ∧ (afterEntries i es s).env = s.env ∧
      (afterEntries i es s).fault = s.fault ∧ (afterEntries i es s).win = s.win ∧
      (afterEntries i es s).winValid = s.winValid ∧ (afterEntries i es s).idling = s.idling ∧
      (afterEntries i es s).requests = s.requests ∧
      (afterEntries i es s).trace = s.trace ++ es.flatMap (entryEvents s.cfg) := by
  induction es generalizing i s with
  | nil => simp [afterEntries]
  | cons e es ih =>
    have h := ih (i + 1) (afterEntry i e.opcode e.params e.postDelayMs s)
    simp only [afterEntries]
    obtain ⟨h1, h2, h3, h4, h5, h6, h7, h8⟩ := h
    exact ⟨h1, h2, h3, h4, h5, h6, h7, by rw [h8]; simp [afterEntry, entryEvents]⟩

theorem FramerReady.afterEntries {s : State} (h : FramerReady s) (es : List InitEntry) (i : Nat) :
    FramerReady (afterEntries i es s) := by
  induction es generalizing i s with
  | nil => exact h
  | cons e es ih => exact ih (h.afterEntry i e.opcode e.params e.postDelayMs) (i + 1)

theorem pulse_eq (s : State) : pulse { s with phase := .resetting } = afterResetPulse s := by
  simp [pulse, afterResetPulse, pulseEvents, setPin, delay, emit]

theorem resetPulse_ok {s : State} (h : s.phase = .uninitialized) : resetPulse s = .ok (afterResetPulse s) := by
  rw [resetPulse, requirePhase_of_eq h, pulse_eq]

theorem configure_ok {s : State} (h : s.phase = .resetting) (hr : FramerReady s) (hx : AllTransfersOk s) :
    configure s = .ok (afterConfigure s) := by
  rw [configure, requirePhase_of_eq h,
    sendEntries_ok s.cfg.initTable 0 { s with phase := .configuringInterface } hr hx, Result.andThen_ok,
    afterEntries_phase]
  rfl

theorem initialise_ok {s : State} (h : s.phase = .uninitialized) (hr : FramerReady s) (hx : AllTransfersOk s) :
    initialise s = .ok (afterConfigure (afterResetPulse s)) := by
  rw [initialise, requirePhase_of_eq h, resetPulse_ok h, Result.andThen_ok,
    configure_ok (s := afterResetPulse s) rfl hr (hx.congr rfl)]

theorem constructPins_eq (cfg : Cfg) (s : State) :
    constructPins cfg s = { s with pins := ⟨cfg.rstInit, cfg.dcInit, cfg.blInit⟩ } := rfl

theorem boot_ok {cfg : Cfg} {s : State} (h : s.phase = .powerOn) (hv : firstFailingClause cfg = none)
    (hc : s.env.claimOk = true) : boot cfg s = .ok (afterBoot cfg s) := by
  rw [boot, requirePhase_of_eq h]
  simp [requireValid, hv, constructSpi, constructPins_eq, hc, afterBoot]

theorem setWindow_ok {w : Window} {s : State} (h : s.phase = .ready) (hb : inBounds s.cfg w = true)
    (hr : FramerReady s) (hx : AllTransfersOk s) : setWindow w s = .ok (afterSetWindow w s) := by
  rw [setWindow, requirePhase_of_eq h, requireInBounds_of_in hb,
    sendCommands_ok _ { s with winValid := false, win := w } hr hx, Result.andThen_ok]
  have := afterCommands_winValid (windowCmds s.cfg w) { s with win := w } false
  simp only at this
  rw [this]
  rfl

theorem writePixels_ok {px : List U16} {s : State} (h : s.phase = .ready) (hw : s.winValid = true)
    (hn : px.length = pixelCount s.win) (hr : FramerReady s) (he : s.cfg.bufSize % 2 = 0) (hx : AllTransfersOk s) :
    writePixels px s = .ok (afterWritePixels px s) := by
  have hx' : AllTransfersOk (afterCommand s.cfg.opcMemwr [] { s with winValid := false }) := hx.congr rfl
  rw [writePixels, requirePhase_of_eq h, requireWindow_of_valid hw, requireCount_of_eq hn,
    sendCommand_ok _ _ { s with winValid := false } hr (hx.transfersOk _), Result.andThen_ok,
    sendPixels_ok _ (afterCommand s.cfg.opcMemwr [] { s with winValid := false }) ⟨rfl, rfl, hr.2.2⟩ he
      (hx'.transfersOk _)]
  rfl

theorem afterSetWindow_keeps (w : Window) (s : State) :
    (afterSetWindow w s).cfg = s.cfg ∧ (afterSetWindow w s).env = s.env ∧ (afterSetWindow w s).phase = s.phase ∧
      (afterSetWindow w s).win = w ∧ (afterSetWindow w s).winValid = true ∧
      (afterSetWindow w s).trace = s.trace ++ windowEvents s.cfg w := by
  obtain ⟨h1, h2, h3, h4, -⟩ := afterCommands_keeps (windowCmds s.cfg w) { s with win := w }
  exact ⟨h1, h2, h3, h4, rfl, afterCommands_trace (windowCmds s.cfg w) { s with win := w }⟩

theorem setPixels_ok {w : Window} {px : List U16} {s : State} (h : s.phase = .ready) (hb : inBounds s.cfg w = true)
    (hn : px.length = pixelCount w) (hr : FramerReady s) (he : s.cfg.bufSize % 2 = 0) (hx : AllTransfersOk s) :
    setPixels w px s = .ok (afterSetPixels w px s) := by
  obtain ⟨h1, h2, h3, h4, h5, -⟩ := afterSetWindow_keeps w s
  have hr' : FramerReady (afterSetWindow w s) :=
    (FramerReady.afterCommands (s := { s with win := w }) hr (windowCmds s.cfg w)).congr rfl rfl rfl
  rw [setPixels, requirePhase_of_eq h, requireInBounds_of_in hb, requireCount_of_eq hn, setWindow_ok h hb hr hx,
    Result.andThen_ok, writePixels_ok (h3.trans h) h5 (by rw [h4]; exact hn) hr' (by rw [h1]; exact he)
      (hx.congr h2)]
  rfl

theorem fillRect_ok {w : Window} {c : U16} {s : State} (h : s.phase = .ready) (hb : inBounds s.cfg w = true)
    (hr : FramerReady s) (he : s.cfg.bufSize % 2 = 0) (hx : AllTransfersOk s) :
    fillRect w c s = .ok (afterSetPixels w (List.replicate (pixelCount w) c) s) := by
  rw [fillRect, requirePhase_of_eq h, requireInBounds_of_in hb, setPixels_ok h hb (by simp) hr he hx]

end Sys2Proof.Machine
end

