-- ==== Sys2Proof/Laws/Exec.lean ====
section
/-! SUPPORT. exec said once for all instructions: every meaning is `admitted` around a body, so what an outcome says is
read off the body. -/
namespace Sys2Proof.Machine

/-- The body of each meaning, the part that runs once the operation is accepted. -/
def bodyOf : Instr → State → Result
  | .boot cfg => boot cfg
  | .init => initialise
  | .setWindow x0 y0 x1 y1 => setWindow ⟨x0, y0, x1, y1⟩
  | .writePixels pixels => writePixels pixels
  | .setPixels x0 y0 x1 y1 pixels => setPixels ⟨x0, y0, x1, y1⟩ pixels
  | .fillRect x0 y0 x1 y1 color => fillRect ⟨x0, y0, x1, y1⟩ color
  | .idle => idle
  | .pinConstruct p level => fun s => .ok (constructPin p level s)
  | .pinSetLow p => fun s => .ok (setPin p .low s)
  | .pinSetHigh p => fun s => .ok (setPin p .high s)
  | .spiConstruct _ => constructSpi
  | .spiWrite bytes => fun s => ((csAssert s).andThen (xfer bytes)).andThen csDeassert
  | .delayMs n => fun s => .ok (delay n s)
  | .spiBegin => csAssert
  | .spiXfer bytes => xfer bytes
  | .spiEnd => csDeassert
  | .sendCommand opcode params => sendCommand opcode params
  | .sendPixels pixels => sendPixels pixels
  | .resetPulse => resetPulse
  | .configure => configure
  | .halt => fun s => .ok (enterHalt s)
  | .fillScreen color => fillScreen color
  | .main cfg => fun s => (((boot cfg s).andThen initialise).andThen (fillScreen cfg.fillColor)).andThen idle
  | .pwrctl idx opcode params ms => sendEntry idx opcode params ms
  | .pixfmt idx opcode params ms => sendEntry idx opcode params ms
  | .madctl idx opcode ms => fun s => sendEntry idx opcode [madctlByte s.cfg] ms s
  | .slpout idx opcode ms => sendEntry idx opcode [] ms
  | .dispon idx opcode ms => sendEntry idx opcode [] ms
  | .colset opcode params => sendCommand opcode params
  | .rowset opcode params => sendCommand opcode params
  | .memwr opcode => sendCommand opcode []
  | .symCommand b => sendSymbol .command b
  | .symData b => sendSymbol .data b

theorem exec_eq_admitted (i : Instr) (s : State) : exec i s = admitted (bodyOf i) s := by
  cases i <;> rfl

/-- An accepted instruction answers what its body answers. -/
theorem exec_of_live {s : State} (h : Live s) (i : Instr) : exec i s = (bodyOf i s).outcome := by
  rw [exec_eq_admitted, admitted_of_live h]

theorem exec_of_halted {s : State} (h : s.phase = .halted) (i : Instr) : exec i s = .refused .halted := by
  rw [exec_eq_admitted, admitted_of_halted h]

theorem exec_of_idling {s : State} (hp : s.phase ≠ .halted) (h : s.idling = true) (i : Instr) :
    exec i s = .refused .idling := by
  rw [exec_eq_admitted, admitted_of_idling hp h]

/-- An instruction that has a next state was accepted, and its body went on to it or raised into it. -/
theorem exec_eq_next {i : Instr} {s t : State} (h : exec i s = .next t) :
    Live s ∧ (bodyOf i s = .ok t ∨ bodyOf i s = .raised t) := by
  rw [exec_eq_admitted] at h
  exact admitted_eq_next h

/-- What holds of every result of the body holds of the next state. -/
theorem exec_post {i : Instr} {s t : State} {Q R : State → Prop} (h : exec i s = .next t)
    (hb : (bodyOf i s).Post Q R) : Q t ∨ R t := by
  obtain ⟨-, h | h⟩ := exec_eq_next h <;> rw [h] at hb
  · exact .inl hb
  · exact .inr hb

/-- A composite operation in terms of its parts: what the first part leaves is accepted again, or is halted. -/
theorem outcome_andThen_admitted {r : Result} (f : State → Result) (hok : ∀ m, r = .ok m → Live m)
    (hraised : ∀ m, r = .raised m → m.phase = .halted) :
    (r.andThen f).outcome = followedBy r.outcome (admitted f) := by
  cases r with
  | ok m => simp [followedBy, (hok m rfl).1, admitted_of_live (hok m rfl)]
  | raised m => simp [followedBy, hraised m rfl]
  | broken e => rfl

end Sys2Proof.Machine
end

