-- ==== Sys2Proof/Laws/Bodies.lean ====
section
/-! SUPPORT. What every instruction keeps, said once: a relation that each primitive of the block keeps is kept by every
instruction. -/
namespace Sys2Proof.Machine

/-- `R s t`: the operation may take `s` to `t` and go on; `F s t`: it may raise in `t`. Each primitive of the block
keeps them, those that construct a pin, the transport or the configuration apart. -/
structure BlockRule (R F : State → State → Prop) : Prop extends FramerRule R F where
  check : ∀ s c i, c ≠ .transferError → F s (afterRaise c i s)
  pin : ∀ s p v, R s (setPin p v s)
  waits : ∀ s n, R s (delay n s)
  phase : ∀ s p, R s { s with phase := p }
  index : ∀ s n, R s { s with initIdx := n }
  window : ∀ s w v, R s { s with win := w, winValid := v }
  idles : ∀ s, R s { s with idling := true }

/-- Every primitive of the block keeps them. -/
structure BodyRule (R F : State → State → Prop) : Prop extends BlockRule R F where
  builds : ∀ s p v, R s (constructPin p v s)
  claims : ∀ s, R s { s with cs := .deasserted }
  configures : ∀ s c, R s { s with cfg := c }

namespace BlockRule

variable {R F : State → State → Prop} (h : BlockRule R F)

include h

/-- A primitive before the rest of an operation. -/
theorem after {s m : State} {r : Result} (hm : R s m) (hr : r.Post (R m) (F m)) : r.Post (R s) (F s) :=
  Result.post_mono hr (fun _ => h.trans hm) fun _ => h.fail hm

theorem require {c : Bool} {code : FaultCode} {info : FaultInfo} {body : State → Result} {s : State}
    (hb : (body s).Post (R s) (F s)) (hc : code ≠ .transferError := by decide) :
    (Machine.require c code info body s).Post (R s) (F s) :=
  require_post (fun _ => hb) fun _ => h.check s code info hc

theorem sendEntry (i : Nat) (op : Byte) (ps : List Byte) (d : Nat) (s : State) :
    (Machine.sendEntry i op ps d s).Post (R s) (F s) := by
  refine h.after (h.index s i) (h.seq (h.sendCommand op ps _) fun m _ => ?_)
  unfold postDelay
  split
  · exact h.waits m d
  · exact h.refl m

theorem sendEntries (es : List InitEntry) (i : Nat) (s : State) : (Machine.sendEntries i es s).Post (R s) (F s) := by
  induction es generalizing i s with
  | nil => exact h.refl s
  | cons e es ih => exact h.seq (h.sendEntry _ _ _ _ s) fun m _ => ih _ m

theorem resetPulse (s : State) : (Machine.resetPulse s).Post (R s) (F s) := by
  unfold Machine.resetPulse requirePhase
  refine h.require ?_
  exact h.trans (h.phase s .resetting) (h.trans (h.pin _ .rst .low) (h.trans (h.waits _ s.cfg.resetLowMs)
    (h.trans (h.pin _ .rst .high) (h.waits _ s.cfg.resetSettleMs))))

theorem configure (s : State) : (Machine.configure s).Post (R s) (F s) := by
  unfold Machine.configure requirePhase
  refine h.require ?_
  exact h.after (h.phase s .configuringInterface) (h.seq (h.sendEntries _ 0 _) fun m _ =>
    h.trans (h.index m s.cfg.initTable.length) (h.phase _ .ready))

theorem initialise (s : State) : (Machine.initialise s).Post (R s) (F s) := by
  unfold Machine.initialise requirePhase
  refine h.require ?_
  exact h.seq (h.resetPulse s) fun m _ => h.configure m

theorem setWindow (w : Window) (s : State) : (Machine.setWindow w s).Post (R s) (F s) :=
  h.require (h.require (h.after (h.window s w false) (h.seq (h.sendCommands _ _) fun m _ => h.window m m.win true)))

theorem writePixels (px : List U16) (s : State) : (Machine.writePixels px s).Post (R s) (F s) :=
  h.require (h.require (h.require (h.after (h.window s s.win false)
    (h.seq (h.sendCommand _ [] _) fun m _ => h.sendPixels px m))))

theorem setPixels (w : Window) (px : List U16) (s : State) : (Machine.setPixels w px s).Post (R s) (F s) :=
  h.require (h.require (h.require (h.seq (h.setWindow w s) fun m _ => h.writePixels px m)))

theorem fillRect (w : Window) (c : U16) (s : State) : (Machine.fillRect w c s).Post (R s) (F s) :=
  h.require (h.require (h.setPixels w _ s))

theorem idle (s : State) : (Machine.idle s).Post (R s) (F s) := by
  unfold Machine.idle requirePhase
  refine h.require ?_
  exact h.idles s

theorem sendSymbol (c : ByteClass) (b : Byte) (s : State) : (Machine.sendSymbol c b s).Post (R s) (F s) := by
  exact h.after (h.pin s .dc _) (h.xfer [b] _)

/-- Every instruction that constructs nothing keeps what the other primitives keep. -/
theorem body {i : Instr} (hi : constructs i = false) (s : State) : (bodyOf i s).Post (R s) (F s) := by
  cases i with
  | boot cfg => exact Bool.noConfusion hi
  | init => exact h.initialise s
  | setWindow x0 y0 x1 y1 => exact h.setWindow _ s
  | writePixels px => exact h.writePixels px s
  | setPixels x0 y0 x1 y1 px => exact h.setPixels _ px s
  | fillRect x0 y0 x1 y1 c => exact h.fillRect _ c s
  | idle => exact h.idle s
  | pinConstruct p v => exact Bool.noConfusion hi
  | pinSetLow p => exact h.pin s p .low
  | pinSetHigh p => exact h.pin s p .high
  | spiConstruct c => exact Bool.noConfusion hi
  | spiWrite bs => exact h.seq (h.seq (h.csAssert s) fun m _ => h.xfer bs m) fun m _ => h.csDeassert m
  | delayMs n => exact h.waits s n
  | spiBegin => exact h.csAssert s
  | spiXfer bs => exact h.xfer bs s
  | spiEnd => exact h.csDeassert s
  | sendCommand op ps => exact h.sendCommand op ps s
  | sendPixels px => exact h.sendPixels px s
  | resetPulse => exact h.resetPulse s
  | configure => exact h.configure s
  | halt => exact h.phase s .halted
  | fillScreen c => exact h.fillRect _ c s
  | main cfg => exact Bool.noConfusion hi
  | pwrctl i op ps d => exact h.sendEntry i op ps d s
  | pixfmt i op ps d => exact h.sendEntry i op ps d s
  | madctl i op d => exact h.sendEntry i op _ d s
  | slpout i op d => exact h.sendEntry i op [] d s
  | dispon i op d => exact h.sendEntry i op [] d s
  | colset op ps => exact h.sendCommand op ps s
  | rowset op ps => exact h.sendCommand op ps s
  | memwr op => exact h.sendCommand op [] s
  | symCommand b => exact h.sendSymbol .command b s
  | symData b => exact h.sendSymbol .data b s

/-- The same of the next state of exec. -/
theorem exec {i : Instr} {s t : State} (hi : constructs i = false) (he : Machine.exec i s = .next t) :
    R s t ∨ F s t :=
  exec_post he (h.body hi s)

end BlockRule

namespace BodyRule

variable {R F : State → State → Prop} (h : BodyRule R F)

include h

theorem constructSpi (s : State) : (Machine.constructSpi s).Post (R s) (F s) := by
  unfold Machine.constructSpi
  split
  · exact h.claims s
  · exact h.check s _ _ (by decide)

theorem boot (cfg : Cfg) (s : State) : (Machine.boot cfg s).Post (R s) (F s) := by
  refine h.require ?_
  unfold requireValid
  split
  · refine h.after (h.trans (h.builds s .rst _) (h.trans (h.builds _ .dc _) (h.trans (h.builds _ .bl _)
      (h.builds _ .cs (opposite cfg.csActiveLevel)))))
      (h.seq (h.constructSpi _) fun m _ => h.trans (h.configures m cfg) (h.phase _ .uninitialized))
  · exact h.check s _ _ (by decide)

/-- Every instruction keeps what every primitive keeps. -/
theorem body (i : Instr) (s : State) : (bodyOf i s).Post (R s) (F s) := by
  cases hi : constructs i
  · exact h.toBlockRule.body hi s
  · cases i with
    | boot cfg => exact h.boot cfg s
    | pinConstruct p v => exact h.builds s p v
    | spiConstruct c => exact h.constructSpi s
    | main cfg =>
      exact h.seq (h.seq (h.seq (h.boot cfg s) fun m _ => h.initialise m) fun m _ => h.fillRect _ _ m)
        fun m _ => h.idle m
    | _ => exact Bool.noConfusion hi

/-- The same of the next state of exec. -/
theorem exec {i : Instr} {s t : State} (he : Machine.exec i s = .next t) : R s t ∨ F s t :=
  exec_post he (h.body i s)

end BodyRule

end Sys2Proof.Machine
end

