-- ==== Sys2Proof/Laws/Decode.lean ====
section
/-! SUPPORT. The operand forms of a packet, read backwards, and the two halves of a symbol's word. -/
namespace Sys2Proof

theorem noOperands_eq_some {i j : Instr} {os : List Operand} : noOperands i os = some j ↔ os = [] ∧ i = j := by
  cases os <;> simp [noOperands]

theorem pixelOperand_eq_some {f : List U16 → Instr} {j : Instr} {os : List Operand} :
    pixelOperand f os = some j ↔ ∃ ps, os = [.pixels ps] ∧ f ps = j := by
  unfold pixelOperand
  split <;> simp_all

theorem byteOperand_eq_some {f : List Byte → Instr} {j : Instr} {os : List Operand} :
    byteOperand f os = some j ↔ ∃ bs, os = [.bytes bs] ∧ f bs = j := by
  unfold byteOperand
  split <;> simp_all

theorem natOperand_eq_some {f : Nat → Instr} {j : Instr} {os : List Operand} :
    natOperand f os = some j ↔ ∃ n, os = [.nat n] ∧ f n = j := by
  unfold natOperand
  split <;> simp_all

theorem cfgOperand_eq_some {f : Cfg → Instr} {j : Instr} {os : List Operand} :
    cfgOperand f os = some j ↔ ∃ c, os = [.cfg c] ∧ f c = j := by
  unfold cfgOperand
  split <;> simp_all

theorem u16Operand_eq_some {f : U16 → Instr} {j : Instr} {os : List Operand} :
    u16Operand f os = some j ↔ ∃ v, os = [.u16 v] ∧ f v = j := by
  unfold u16Operand
  split <;> simp_all

theorem settablePin_eq_some {p : PinRole} {q : Pin} : settablePin p = some q ↔ p = q.role := by
  cases p <;> cases q <;> simp [settablePin, Pin.role]

theorem pinOperand_eq_some {f : Pin → Instr} {j : Instr} {os : List Operand} :
    pinOperand f os = some j ↔ ∃ p : Pin, os = [.pin p.role] ∧ f p = j := by
  unfold pinOperand
  split
  · simp only [Option.map_eq_some_iff, settablePin_eq_some, List.cons.injEq, Operand.pin.injEq, and_true]
  · next h =>
    simp only [reduceCtorEq, false_iff, not_exists, not_and]
    exact fun p hp => absurd hp (h p.role)

theorem rectOperands_eq_some {f : U16 → U16 → U16 → U16 → List Operand → Option Instr} {j : Instr}
    {os : List Operand} : rectOperands f os = some j ↔
      ∃ x0 y0 x1 y1 rest, os = .u16 x0 :: .u16 y0 :: .u16 x1 :: .u16 y1 :: rest ∧ f x0 y0 x1 y1 rest = some j := by
  unfold rectOperands
  split
  · simp
  · next h =>
    simp only [reduceCtorEq, false_iff, not_exists, not_and]
    exact fun x0 y0 x1 y1 rest he => absurd he (h x0 y0 x1 y1 rest)

theorem entryOperands_eq_some {f : Nat → List Byte → Nat → Instr} {j : Instr} {os : List Operand} :
    entryOperands f os = some j ↔ ∃ i bs d, os = [.nat i, .bytes bs, .nat d] ∧ f i bs d = j := by
  unfold entryOperands
  split
  · simp
  · next h =>
    simp only [reduceCtorEq, false_iff, not_exists, not_and]
    exact fun i bs d he => absurd he (h i bs d)

theorem shortEntryOperands_eq_some {f : Nat → Nat → Instr} {j : Instr} {os : List Operand} :
    shortEntryOperands f os = some j ↔ ∃ i d, os = [.nat i, .nat d] ∧ f i d = j := by
  unfold shortEntryOperands
  split
  · simp
  · next h =>
    simp only [reduceCtorEq, false_iff, not_exists, not_and]
    exact fun i d he => absurd he (h i d)

/-- What the decoder makes of a named form. -/
theorem named_eq_ok {mnemonic : String} {o : Option Instr} {i : Instr} : named mnemonic o = .ok i ↔ o = some i := by
  cases o <;> simp [named]

/-- The code of the operation the decoder finds is the code it was given. -/
theorem reqOpOf_code {op : Byte} {r : ReqOp} (h : reqOpOf op = some r) : r.code = op := by
  simpa using List.find?_some h

@[simp] theorem symbolIsData_commandSymbol (b : Byte) : symbolIsData (commandSymbol b) = false := by
  revert b; decide

@[simp] theorem symbolIsData_dataSymbol (b : Byte) : symbolIsData (dataSymbol b) = true := by
  revert b; decide

@[simp] theorem symbolByte_commandSymbol (b : Byte) : symbolByte (commandSymbol b) = b := by
  revert b; decide

@[simp] theorem symbolByte_dataSymbol (b : Byte) : symbolByte (dataSymbol b) = b := by
  revert b; decide

/-- Every word is the symbol of its two halves. -/
theorem symbol_of_halves (w : BitVec 9) :
    (if symbolIsData w then dataSymbol (symbolByte w) else commandSymbol (symbolByte w)) = w := by
  revert w; decide

end Sys2Proof
end

