-- ==== Sys2Proof/Laws/PerInstr.lean ====
section
/-! SUPPORT. One law per instruction: the word the encoder gives it fits its row of spec/opcode_table.json
(30_encoding.md R76). -/
namespace Sys2Proof.Laws.TableRow

/-- The word at the front of a packet, with its width in bits; a pseudo-operation has none. -/
def headWord : Head → Option (Nat × Nat)
  | .req op => some (8, op.toNat)
  | .cmd _ w => some (9, w.toNat)
  | .sym w => some (9, w.toNat)
  | .fillScreen => none
  | .main => none

/-- The row of an instruction: its width in bits, its mask and its match; a PSEUDO row has none. -/
def row : Instr → Option (Nat × Nat × Nat)
  | .boot _ => some (8, 0xFF, 0x01)
  | .init => some (8, 0xFF, 0x02)
  | .setWindow _ _ _ _ => some (8, 0xFF, 0x03)
  | .writePixels _ => some (8, 0xFF, 0x04)
  | .setPixels _ _ _ _ _ => some (8, 0xFF, 0x05)
  | .fillRect _ _ _ _ _ => some (8, 0xFF, 0x06)
  | .idle => some (8, 0xFF, 0x07)
  | .pinConstruct _ _ => some (8, 0xFF, 0x10)
  | .pinSetLow _ => some (8, 0xFF, 0x11)
  | .pinSetHigh _ => some (8, 0xFF, 0x12)
  | .spiConstruct _ => some (8, 0xFF, 0x13)
  | .spiWrite _ => some (8, 0xFF, 0x14)
  | .delayMs _ => some (8, 0xFF, 0x15)
  | .spiBegin => some (8, 0xFF, 0x16)
  | .spiXfer _ => some (8, 0xFF, 0x17)
  | .spiEnd => some (8, 0xFF, 0x18)
  | .sendCommand _ _ => some (8, 0xFF, 0x20)
  | .sendPixels _ => some (8, 0xFF, 0x21)
  | .resetPulse => some (8, 0xFF, 0x30)
  | .configure => some (8, 0xFF, 0x31)
  | .halt => some (8, 0xFF, 0x3F)
  | .fillScreen _ => none
  | .main _ => none
  | .pwrctl _ _ _ _ => some (9, 0x100, 0x000)
  | .pixfmt _ _ _ _ => some (9, 0x100, 0x000)
  | .madctl _ _ _ => some (9, 0x100, 0x000)
  | .slpout _ _ _ => some (9, 0x100, 0x000)
  | .dispon _ _ _ => some (9, 0x100, 0x000)
  | .colset _ _ => some (9, 0x100, 0x000)
  | .rowset _ _ => some (9, 0x100, 0x000)
  | .memwr _ => some (9, 0x100, 0x000)
  | .symCommand _ => some (9, 0x100, 0x000)
  | .symData _ => some (9, 0x100, 0x100)

/-- The word the encoder gives the instruction has the row's width, and under the row's mask the row's match. -/
def Statement (i : Instr) : Prop :=
  match row i, headWord (encode i).head with
  | some (width, mask, pattern), some (bits, word) => bits = width ∧ word &&& mask = pattern ∧ word < 2 ^ width
  | none, none => True
  | _, _ => False

theorem command_fits (b : Byte) :
    (commandSymbol b).toNat &&& 0x100 = 0x000 ∧ (commandSymbol b).toNat < 2 ^ 9 :=
  ⟨by revert b; decide, (commandSymbol b).isLt⟩

theorem data_fits (b : Byte) : (dataSymbol b).toNat &&& 0x100 = 0x100 ∧ (dataSymbol b).toNat < 2 ^ 9 :=
  ⟨by revert b; decide, (dataSymbol b).isLt⟩

theorem boot (cfg : Cfg) : Statement (.boot cfg) :=
  by unfold Statement; simp only [row, headWord, encode, reqPacket, ReqOp.code]; decide
theorem init : Statement (.init) :=
  by unfold Statement; simp only [row, headWord, encode, reqPacket, ReqOp.code]; decide
theorem setWindow (x0 y0 x1 y1 : U16) : Statement (.setWindow x0 y0 x1 y1) :=
  by unfold Statement; simp only [row, headWord, encode, reqPacket, ReqOp.code]; decide
theorem writePixels (pixels : List U16) : Statement (.writePixels pixels) :=
  by unfold Statement; simp only [row, headWord, encode, reqPacket, ReqOp.code]; decide
theorem setPixels (x0 y0 x1 y1 : U16) (pixels : List U16) : Statement (.setPixels x0 y0 x1 y1 pixels) :=
  by unfold Statement; simp only [row, headWord, encode, reqPacket, ReqOp.code]; decide
theorem fillRect (x0 y0 x1 y1 color : U16) : Statement (.fillRect x0 y0 x1 y1 color) :=
  by unfold Statement; simp only [row, headWord, encode, reqPacket, ReqOp.code]; decide
theorem idle : Statement (.idle) :=
  by unfold Statement; simp only [row, headWord, encode, reqPacket, ReqOp.code]; decide
theorem pinConstruct (p : PinRole) (level : Level) : Statement (.pinConstruct p level) :=
  by unfold Statement; simp only [row, headWord, encode, reqPacket, ReqOp.code]; decide
theorem pinSetLow (p : Pin) : Statement (.pinSetLow p) :=
  by unfold Statement; simp only [row, headWord, encode, reqPacket, ReqOp.code]; decide
theorem pinSetHigh (p : Pin) : Statement (.pinSetHigh p) :=
  by unfold Statement; simp only [row, headWord, encode, reqPacket, ReqOp.code]; decide
theorem spiConstruct (spiCfg : Nat) : Statement (.spiConstruct spiCfg) :=
  by unfold Statement; simp only [row, headWord, encode, reqPacket, ReqOp.code]; decide
theorem spiWrite (bytes : List Byte) : Statement (.spiWrite bytes) :=
  by unfold Statement; simp only [row, headWord, encode, reqPacket, ReqOp.code]; decide
theorem delayMs (n : Nat) : Statement (.delayMs n) :=
  by unfold Statement; simp only [row, headWord, encode, reqPacket, ReqOp.code]; decide
theorem spiBegin : Statement (.spiBegin) :=
  by unfold Statement; simp only [row, headWord, encode, reqPacket, ReqOp.code]; decide
theorem spiXfer (bytes : List Byte) : Statement (.spiXfer bytes) :=
  by unfold Statement; simp only [row, headWord, encode, reqPacket, ReqOp.code]; decide
theorem spiEnd : Statement (.spiEnd) :=
  by unfold Statement; simp only [row, headWord, encode, reqPacket, ReqOp.code]; decide
theorem sendCommand (opcode : Byte) (params : List Byte) : Statement (.sendCommand opcode params) :=
  by unfold Statement; simp only [row, headWord, encode, reqPacket, ReqOp.code]; decide
theorem sendPixels (pixels : List U16) : Statement (.sendPixels pixels) :=
  by unfold Statement; simp only [row, headWord, encode, reqPacket, ReqOp.code]; decide
theorem resetPulse : Statement (.resetPulse) :=
  by unfold Statement; simp only [row, headWord, encode, reqPacket, ReqOp.code]; decide
theorem configure : Statement (.configure) :=
  by unfold Statement; simp only [row, headWord, encode, reqPacket, ReqOp.code]; decide
theorem halt : Statement (.halt) :=
  by unfold Statement; simp only [row, headWord, encode, reqPacket, ReqOp.code]; decide
theorem fillScreen (color : U16) : Statement (.fillScreen color) := trivial
theorem main (cfg : Cfg) : Statement (.main cfg) := trivial
theorem pwrctl (idx : Nat) (opcode : Byte) (params : List Byte) (postDelayMs : Nat) : Statement (.pwrctl idx opcode params postDelayMs) :=
  ⟨rfl, command_fits opcode⟩
theorem pixfmt (idx : Nat) (opcode : Byte) (params : List Byte) (postDelayMs : Nat) : Statement (.pixfmt idx opcode params postDelayMs) :=
  ⟨rfl, command_fits opcode⟩
theorem madctl (idx : Nat) (opcode : Byte) (postDelayMs : Nat) : Statement (.madctl idx opcode postDelayMs) :=
  ⟨rfl, command_fits opcode⟩
theorem slpout (idx : Nat) (opcode : Byte) (postDelayMs : Nat) : Statement (.slpout idx opcode postDelayMs) :=
  ⟨rfl, command_fits opcode⟩
theorem dispon (idx : Nat) (opcode : Byte) (postDelayMs : Nat) : Statement (.dispon idx opcode postDelayMs) :=
  ⟨rfl, command_fits opcode⟩
theorem colset (opcode : Byte) (params : List Byte) : Statement (.colset opcode params) := ⟨rfl, command_fits opcode⟩
theorem rowset (opcode : Byte) (params : List Byte) : Statement (.rowset opcode params) := ⟨rfl, command_fits opcode⟩
theorem memwr (opcode : Byte) : Statement (.memwr opcode) := ⟨rfl, command_fits opcode⟩
theorem symCommand (b : Byte) : Statement (.symCommand b) := ⟨rfl, command_fits b⟩
theorem symData (b : Byte) : Statement (.symData b) := ⟨rfl, data_fits b⟩

end Sys2Proof.Laws.TableRow
end

