-- ==== Sys2Proof/Tests/Slice0.lean ====
section
/-! SUPPORT. Tests: the well-formedness checks, a word written out for every row of the opcode table, the vectors of
95_test_vectors.md one step at a time, and for each statement with hypotheses a state that meets them. -/
namespace Sys2Proof.Machine.Tests

/-! ## The reference configuration and the states of 95_test_vectors.md section 0 -/

/-- REF.INIT_TABLE (42_controller_init.md R131). -/
def refTable : List InitEntry :=
  [⟨.pwrctl, 0xC0, [0x23], 0⟩, ⟨.pwrctl, 0xC1, [0x10], 0⟩, ⟨.pixfmt, 0x3A, [0x55], 0⟩, ⟨.madctl, 0x36, [0x28], 0⟩,
   ⟨.slpout, 0x11, [], 120⟩, ⟨.dispon, 0x29, [], 0⟩]

/-- The reference configuration REF. -/
def ref : Cfg :=
  { Cfg.unset with
    pixelMsbFirst := true, opcColset := 0x2A, opcRowset := 0x2B, opcMemwr := 0x2C
    windowCmds := referenceWindow, initTable := refTable
    madctlEnc := [((.landscape, .bgr), 0x28), ((.landscape, .rgb), 0x20)]
    csActiveLevel := .low, rstInit := .high, dcInit := .low, blInit := .high, fillColor := 0x001F }

/-- REF on a screen of one pixel. -/
def tiny : Cfg := { ref with width := 1, height := 1 }

/-- S_boot for a configuration. -/
def booted (c : Cfg) : State :=
  { State.reset with cfg := c, phase := .uninitialized, pins := ⟨c.rstInit, c.dcInit, c.blInit⟩ }

/-- S_ready for a configuration, without the trace of its initialisation. -/
def ready (c : Cfg) : State := { booted c with phase := .ready, initIdx := 6, xferCount := 6 }

/-- A state whose transfer number `k` fails after `j` bytes. -/
def failing (k j : Nat) (s : State) : State := { s with env := { s.env with xferFaults := [(k, j)] } }

/-- A state inside a transaction. -/
def inside (s : State) : State := { s with cs := .asserted }

/-- A state with one request. -/
def asked (who : Issuer) (i : Instr) (s : State) : State := { s with requests := [⟨who, encode i⟩] }

/-- A CMD transaction of one transfer with PARAM_DC = low. -/
def cmd (bs : List Byte) : List Event := [.pin .dc .low, .csAssert, .xfer .low bs, .csDeassert]

/-- A PIX transaction of one transfer. -/
def pix (bs : List Byte) : List Event := [.pin .dc .high, .csAssert, .xfer .high bs, .csDeassert]

/-- The events an instruction appends. -/
def events (i : Instr) (s : State) : Option (List Event) := (nextState (exec i s)).map (·.trace)

/-- The fault an instruction leaves. -/
def faultOf (i : Instr) (s : State) : Option FaultRecord := (nextState (exec i s)).bind (·.fault)

/-! ## Well-formedness: one ill-formed term for each check -/

theorem test_wf_spi_write_empty : (Instr.spiWrite []).wellFormed 512 = false := by decide
theorem test_wf_spi_write_long : (Instr.spiWrite [1, 2, 3]).wellFormed 2 = false := by decide
theorem test_wf_spi_xfer_empty : (Instr.spiXfer []).wellFormed 512 = false := by decide
theorem test_wf_spi_xfer_long : (Instr.spiXfer [1, 2, 3]).wellFormed 2 = false := by decide
/-- No command; a layout that leaves out the more significant byte of x0. -/
theorem test_wf_boot_window_cmds :
    (Instr.boot { ref with windowCmds := .layout [] }).wellFormed 512 = false ∧
    (Instr.main { ref with windowCmds := .layout [⟨.colset, [.lo .x0, .hi .x1, .lo .x1]⟩,
      ⟨.rowset, [.hi .y0, .lo .y0, .hi .y1, .lo .y1]⟩] }).wellFormed 512 = false ∧
    (Instr.boot ref).wellFormed 512 = true ∧ (Instr.boot .unset).wellFormed 512 = true := by decide
theorem test_wf_bounds : (Instr.spiXfer [1]).wellFormed 2 = true ∧ (Instr.spiXfer [1, 2]).wellFormed 2 = true := by decide

/-! ## Decoding: a word written out for every constructor (30_encoding.md R60, R66, R70) -/

theorem test_decode_host :
    decodeTableWord 8 0b00000001 = some (.boot .unset) ∧
    decodeTableWord 8 0b00000010 = some .init ∧
    decode ⟨.req 0b00000011, [.u16 0, .u16 0, .u16 319, .u16 239]⟩ = .ok (.setWindow 0 0 319 239) ∧
    decode ⟨.req 0b00000100, [.pixels [0x1234]]⟩ = .ok (.writePixels [0x1234]) ∧
    decode ⟨.req 0b00000101, [.u16 0, .u16 0, .u16 1, .u16 0, .pixels [0xF800, 0x07E0]]⟩ =
      .ok (.setPixels 0 0 1 0 [0xF800, 0x07E0]) ∧
    decode ⟨.req 0b00000110, [.u16 3, .u16 4, .u16 5, .u16 6, .u16 7]⟩ = .ok (.fillRect 3 4 5 6 7) ∧
    decodeTableWord 8 0b00000111 = some .idle := by decide

theorem test_decode_leaf :
    decode ⟨.req 0b00010000, [.pin .cs, .level .high]⟩ = .ok (.pinConstruct .cs .high) ∧
    decode ⟨.req 0b00010001, [.pin .dc]⟩ = .ok (.pinSetLow .dc) ∧
    decode ⟨.req 0b00010010, [.pin .bl]⟩ = .ok (.pinSetHigh .bl) ∧
    decode ⟨.req 0b00010011, [.nat 9]⟩ = .ok (.spiConstruct 9) ∧
    decode ⟨.req 0b00010100, [.bytes [0x29]]⟩ = .ok (.spiWrite [0x29]) ∧
    decode ⟨.req 0b00010101, [.nat 200]⟩ = .ok (.delayMs 200) ∧
    decodeTableWord 8 0b00010110 = some .spiBegin ∧
    decode ⟨.req 0b00010111, [.bytes [0x11]]⟩ = .ok (.spiXfer [0x11]) ∧
    decodeTableWord 8 0b00011000 = some .spiEnd := by decide

theorem test_decode_framer :
    decode ⟨.req 0b00100000, [.u8 0x2A, .bytes [0, 0, 1, 0x3F]]⟩ = .ok (.sendCommand 0x2A [0, 0, 1, 0x3F]) ∧
    decode ⟨.req 0b00100001, [.pixels [0x001F]]⟩ = .ok (.sendPixels [0x001F]) ∧
    decodeTableWord 8 0b00110000 = some .resetPulse ∧
    decodeTableWord 8 0b00110001 = some .configure ∧
    decodeTableWord 8 0b00111111 = some .halt ∧
    decode ⟨.fillScreen, [.u16 0x001F]⟩ = .ok (.fillScreen 0x001F) ∧
    decode ⟨.main, [.cfg ref]⟩ = .ok (.main ref) := by decide

theorem test_decode_commands :
    decode ⟨.cmd .pwrctl 0b011000000, [.nat 0, .bytes [0x23], .nat 0]⟩ = .ok (.pwrctl 0 0xC0 [0x23] 0) ∧
    decode ⟨.cmd .pixfmt 0b000111010, [.nat 2, .bytes [0x55], .nat 0]⟩ = .ok (.pixfmt 2 0x3A [0x55] 0) ∧
    decode ⟨.cmd .madctl 0b000110110, [.nat 3, .nat 0]⟩ = .ok (.madctl 3 0x36 0) ∧
    decode ⟨.cmd .slpout 0b000010001, [.nat 4, .nat 120]⟩ = .ok (.slpout 4 0x11 120) ∧
    decode ⟨.cmd .dispon 0b000101001, [.nat 5, .nat 0]⟩ = .ok (.dispon 5 0x29 0) ∧
    decode ⟨.cmd .colset 0b000101010, [.bytes [0, 0, 1, 0x3F]]⟩ = .ok (.colset 0x2A [0, 0, 1, 0x3F]) ∧
    decode ⟨.cmd .rowset 0b000101011, [.bytes [0, 0, 0, 0xEF]]⟩ = .ok (.rowset 0x2B [0, 0, 0, 0xEF]) ∧
    decode ⟨.cmd .memwr 0b000101100, []⟩ = .ok (.memwr 0x2C) := by decide

/-- V30.1, V30.2. -/
theorem test_decode_symbols :
    decodeTableWord 9 0b000101100 = some (.symCommand 0x2C) ∧
    decodeTableWord 16 0b100011111 = some (.symData 0x1F) := by decide

/-- V43.25, and a command symbol whose bit 8 is not 0, and wrong operands. -/
theorem test_decode_rejects :
    decodeTableWord 8 0x08 = none ∧ decodeTableWord 8 0x19 = none ∧ decodeTableWord 8 0xFF = none ∧
    decode ⟨.req 0x08, []⟩ = .error (.reservedCode 0x08) ∧
    decode ⟨.cmd .memwr 0x12C, []⟩ = .error (.notACommandSymbol 0x12C) ∧
    decode ⟨.req 0x02, [.nat 1]⟩ = .error (.wrongOperands "INIT") := by decide

/-- V30.3 to V30.7. -/
theorem test_operand_assembly :
    pixBytes ref 0x001F = (0x00, 0x1F) ∧
    pixBytes { ref with pixelMsbFirst := false } 0xF81F = (0x1F, 0xF8) ∧
    windowCmds ref ⟨256, 1, 257, 2⟩ = [⟨0x2A, [0x01, 0x00, 0x01, 0x01]⟩, ⟨0x2B, [0x00, 0x01, 0x00, 0x02]⟩] ∧
    madctlByte ref = 0x28 ∧ madctlByte { ref with corder := .rgb } = 0x20 := by decide

/-- V30.9, V30.10. -/
theorem test_symbols_of_transactions :
    (symbols (cmd [0x3A, 0x55])).map symWord = [0x03A, 0x055] ∧
    (symbols (pix [0x00, 0x1F])).map symWord = [0x100, 0x11F] := by decide

/-- V43.20. -/
theorem test_count_does_not_wrap : pixelCount ⟨0, 0, 65534, 65534⟩ = 4294836225 := by decide

/-! ## Pins, transport, delay: V40 -/

theorem test_pin_construct : nextState (exec (.pinConstruct .rst .high) .reset) =
    some { State.reset with pins := ⟨.high, .low, .low⟩ } := by decide
theorem test_pin_construct_cs : nextState (exec (.pinConstruct .cs .high) .reset) = some .reset := by decide
theorem test_pin_set_low : nextState (exec (.pinSetLow .rst) (booted ref)) =
    some { booted ref with pins := ⟨.low, .low, .high⟩, trace := [.pin .rst .low] } := by decide
theorem test_pin_set_high_no_change :
    events (.pinSetHigh .bl) (ready ref) = some [.pin .bl .high] ∧ levels ⟨.high, .low, .high⟩ [.pin .bl .high] = [] := by
  decide
theorem test_spi_construct : nextState (exec (.spiConstruct 0) (inside .reset)) = some .reset := by decide
theorem test_spi_construct_claimed :
    nextState (exec (.spiConstruct 0) { State.reset with env := ⟨false, []⟩ }) =
      some { State.reset with
        env := ⟨false, []⟩, fault := some ⟨.resourceUnavailable, .transport⟩, phase := .halted } := by decide
theorem test_spi_begin : nextState (exec .spiBegin (ready ref)) =
    some { inside (ready ref) with trace := [.csAssert] } := by decide
theorem test_spi_xfer : nextState (exec (.spiXfer [0x11]) (inside (ready ref))) =
    some { inside (ready ref) with trace := [.xfer .low [0x11]], xferCount := 7 } := by decide
/-- V40.12. -/
theorem test_spi_xfer_fault :
    events (.spiXfer [0x00, 0x1F]) (failing 6 1 (inside { ready ref with pins := ⟨.high, .high, .high⟩ })) =
        some [.xfer .high [0x00]] ∧
      faultOf (.spiXfer [0x00, 0x1F]) (failing 6 1 (inside { ready ref with pins := ⟨.high, .high, .high⟩ })) =
        some ⟨.transferError, .transfer 6⟩ := by decide
theorem test_spi_end : nextState (exec .spiEnd (inside (ready ref))) =
    some { ready ref with trace := [.csDeassert] } := by decide
theorem test_spi_write : events (.spiWrite [0x29]) (ready ref) =
    some [.csAssert, .xfer .low [0x29], .csDeassert] := by decide
theorem test_delay : nextState (exec (.delayMs 0) (ready ref)) = some { ready ref with trace := [.delay 0] } := by decide

/-! ## Symbols: 30_encoding.md R60, R64 -/

theorem test_symbol_command : events (.symCommand 0x2C) (inside (ready ref)) =
    some [.pin .dc .low, .xfer .low [0x2C]] := by decide
theorem test_symbol_data : events (.symData 0x1F) (inside (ready ref)) =
    some [.pin .dc .high, .xfer .high [0x1F]] := by decide

/-! ## The framer: V41 -/

/-- V41.4. -/
theorem test_send_command_data_params :
    events (.sendCommand 0x3A [0x55]) (ready { ref with paramDc := .high }) =
      some [.pin .dc .low, .csAssert, .xfer .low [0x3A], .pin .dc .high, .xfer .high [0x55], .csDeassert] := by decide
/-- V41.2, and V41.8 with a buffer of four bytes. -/
theorem test_send_command_boundaries :
    events (.sendCommand 0x11 []) (ready { ref with paramDc := .high }) = some (cmd [0x11]) ∧
    events (.sendCommand 0xAA [1, 2, 3, 4]) (ready { ref with bufSize := 4 }) =
      some [.pin .dc .low, .csAssert, .xfer .low [0xAA, 1, 2, 3], .xfer .low [4], .csDeassert] ∧
    events (.sendCommand 0xAA [1, 2, 3]) (ready { ref with bufSize := 4 }) = some (cmd [0xAA, 1, 2, 3]) := by decide
/-- V41.16, V41.17, V41.18. -/
theorem test_send_pixels_boundaries :
    events (.sendPixels [0x0102, 0x0304, 0x0506]) (ready { ref with bufSize := 2 }) =
      some [.pin .dc .high, .csAssert, .xfer .high [1, 2], .xfer .high [3, 4], .xfer .high [5, 6], .csDeassert] ∧
    events (.sendPixels [0x0102, 0x0304, 0x0506]) (ready { ref with bufSize := 4 }) =
      some [.pin .dc .high, .csAssert, .xfer .high [1, 2, 3, 4], .xfer .high [5, 6], .csDeassert] ∧
    events (.sendPixels []) (ready ref) = some [.pin .dc .high, .csAssert, .csDeassert] := by decide
/-- V41.19 with a buffer of four bytes: the partial chunk stays in the buffer. -/
theorem test_send_pixels_fault :
    events (.sendPixels [0xFFFF, 0xFFFF, 0x1234]) (failing 7 1 (ready { ref with bufSize := 4 })) =
      some [.pin .dc .high, .csAssert, .xfer .high [0xFF, 0xFF, 0xFF, 0xFF], .xfer .high [0x12]] ∧
    ((nextState (exec (.sendPixels [0xFFFF, 0xFFFF, 0x1234]) (failing 7 1 (ready { ref with bufSize := 4 })))).map
      fun t => (t.bufLen, t.buf.slice 2, t.phase)) = some (2, [0x12, 0x34], .halted) := by decide

/-! ## Construction and initialisation: V42 -/

theorem test_boot : nextState (exec (.boot ref) .reset) = some (booted ref) := by decide
/-- V42.2 to V42.11: the first failing clause. -/
theorem test_boot_checks :
    faultOf (.boot { ref with width := 0, bufSize := 3 }) .reset = some ⟨.invalidConfiguration, .clause 1⟩ ∧
    faultOf (.boot { ref with bufSize := 511 }) .reset = some ⟨.invalidConfiguration, .clause 2⟩ ∧
    faultOf (.boot { ref with initTable := refTable.take 4 ++ [⟨.dispon, 0x29, [], 0⟩, ⟨.slpout, 0x11, [], 0⟩] })
      .reset = some ⟨.invalidConfiguration, .clause 3⟩ ∧
    faultOf (.boot { ref with madctlEnc := [] }) .reset = some ⟨.invalidConfiguration, .clause 3⟩ ∧
    faultOf (.boot { ref with pixelBits := 18 }) .reset = some ⟨.invalidConfiguration, .clause 4⟩ ∧
    faultOf (.boot { ref with height := 0 }) { State.reset with env := ⟨false, []⟩ } =
      some ⟨.invalidConfiguration, .clause 1⟩ ∧
    ((nextState (exec (.boot ref) { State.reset with env := ⟨false, []⟩ })).map fun t => (t.fault, t.pins, t.trace)) =
      some (some ⟨.resourceUnavailable, .transport⟩, ⟨.high, .low, .high⟩, []) ∧
    faultOf (.boot ref) (booted ref) = some ⟨.illegalState, .operation .boot⟩ := by decide
/-- V42.17. -/
theorem test_reset_pulse :
    nextState (exec .resetPulse (booted { ref with resetLowMs := 50, resetSettleMs := 300 })) =
      some { booted { ref with resetLowMs := 50, resetSettleMs := 300 } with
        phase := .resetting
        trace := [.pin .rst .low, .delay 50, .pin .rst .high, .delay 300] } := by decide
/-- The events of entries 0 to 5 of program P1. -/
theorem test_configure :
    events .configure { booted ref with phase := .resetting } =
      some (cmd [0xC0, 0x23] ++ cmd [0xC1, 0x10] ++ cmd [0x3A, 0x55] ++ cmd [0x36, 0x28] ++ cmd [0x11] ++
        [.delay 120] ++ cmd [0x29]) := by decide
/-- Program P1. -/
theorem test_init :
    ((nextState (exec .init (booted ref))).map fun t =>
      (t.trace.length, t.phase, t.initIdx, t.cs, t.bufLen, t.xferCount)) =
        some (29, .ready, 6, .deasserted, 0, 6) := by decide
/-- Program P6. -/
theorem test_init_fault :
    ((nextState (exec .init (failing 3 1 (booted ref)))).map fun t => (t.trace.length, t.fault, t.initIdx)) =
      some (19, some ⟨.transferError, .transfer 3⟩, 3) ∧
    ((nextState (exec .init (failing 3 1 (booted ref)))).map fun t => (t.trace.getLast?, t.bufLen, t.buf.slice 2)) =
      some (some (.xfer .low [0x36]), 2, [0x36, 0x28]) := by decide

/-! ## The panel command kinds: 42_controller_init.md R126 to R130, 30_encoding.md R66 -/

theorem test_pwrctl : events (.pwrctl 0 0xC0 [0x23] 0) (ready ref) = some (cmd [0xC0, 0x23]) := by decide
theorem test_pixfmt : events (.pixfmt 2 0x3A [0x55] 0) (ready ref) = some (cmd [0x3A, 0x55]) := by decide
theorem test_madctl : events (.madctl 3 0x36 0) (ready ref) = some (cmd [0x36, 0x28]) := by decide
theorem test_slpout : ((nextState (exec (.slpout 4 0x11 120) (ready ref))).map fun t => (t.trace, t.initIdx)) =
    some (cmd [0x11] ++ [.delay 120], 4) := by decide
theorem test_dispon : events (.dispon 5 0x29 0) (ready ref) = some (cmd [0x29]) := by decide
theorem test_colset : events (.colset 0x2A [0, 0, 1, 0x3F]) (ready ref) = some (cmd [0x2A, 0, 0, 1, 0x3F]) := by decide
theorem test_rowset : events (.rowset 0x2B [0, 0, 0, 0xEF]) (ready ref) = some (cmd [0x2B, 0, 0, 0, 0xEF]) := by decide
theorem test_memwr : events (.memwr 0x2C) (ready ref) = some (cmd [0x2C]) := by decide

/-! ## Window, pixels, fill, idle, halt: V43 -/

/-- V43.1, V43.2. -/
theorem test_set_window :
    events (.setWindow 0 0 319 239) (ready ref) = some (cmd [0x2A, 0, 0, 1, 0x3F] ++ cmd [0x2B, 0, 0, 0, 0xEF]) ∧
    ((nextState (exec (.setWindow 319 239 319 239) (ready ref))).map fun t => (t.win, t.winValid)) =
      some (⟨319, 239, 319, 239⟩, true) := by decide
/-- V43.3 to V43.7. -/
theorem test_set_window_checks :
    faultOf (.setWindow 0 0 320 239) (ready ref) = some ⟨.windowOutOfBounds, .window 0 0 320 239⟩ ∧
    faultOf (.setWindow 0 0 319 240) (ready ref) = some ⟨.windowOutOfBounds, .window 0 0 319 240⟩ ∧
    faultOf (.setWindow 5 0 4 0) (ready ref) = some ⟨.windowOutOfBounds, .window 5 0 4 0⟩ ∧
    events (.setWindow 0 0 320 239) (ready ref) = some [] ∧
    faultOf (.setWindow 0 0 0 0) (booted ref) = some ⟨.illegalState, .operation .setWindow⟩ := by decide
/-- The example of 43_window_pixels.md R142. -/
theorem test_write_pixels :
    events (.writePixels [0x001F]) { ready ref with win := ⟨5, 7, 5, 7⟩, winValid := true } =
      some (cmd [0x2C] ++ pix [0x00, 0x1F]) := by decide
/-- V43.9, V43.10. -/
theorem test_write_pixels_checks :
    faultOf (.writePixels [0]) (ready ref) = some ⟨.illegalState, .windowNotSet⟩ ∧
    ((nextState (exec (.writePixels [1, 2, 3]) { ready ref with win := ⟨0, 0, 1, 1⟩, winValid := true })).map
      fun t => (t.fault, t.winValid, t.trace)) = some (some ⟨.lengthMismatch, .lengths 3 4⟩, true, []) := by decide
/-- V43.13. -/
theorem test_set_pixels :
    events (.setPixels 0 0 1 0 [0xF800, 0x07E0]) (ready ref) =
      some (cmd [0x2A, 0, 0, 0, 1] ++ cmd [0x2B, 0, 0, 0, 0] ++ cmd [0x2C] ++ pix [0xF8, 0x00, 0x07, 0xE0]) := by decide
/-- V43.14, V43.15. -/
theorem test_set_pixels_checks :
    faultOf (.setPixels 0 0 1 0 [0xF800]) (ready ref) = some ⟨.lengthMismatch, .lengths 1 2⟩ ∧
    faultOf (.setPixels 0 0 320 0 [0xF800]) (ready ref) = some ⟨.windowOutOfBounds, .window 0 0 320 0⟩ := by decide
/-- V43.12. -/
theorem test_fill_rect :
    events (.fillRect 3 4 3 4 0xFFFF) (ready ref) =
      some (cmd [0x2A, 0, 3, 0, 3] ++ cmd [0x2B, 0, 4, 0, 4] ++ cmd [0x2C] ++ pix [0xFF, 0xFF]) := by decide
/-- 43_window_pixels.md R148 on a screen of one pixel. -/
theorem test_fill_screen :
    events (.fillScreen 0x001F) (ready tiny) =
      some (cmd [0x2A, 0, 0, 0, 0] ++ cmd [0x2B, 0, 0, 0, 0] ++ cmd [0x2C] ++ pix [0x00, 0x1F]) := by decide
/-- Program P2 on a screen of one pixel. -/
theorem test_main :
    ((nextState (exec (.main tiny) .reset)).map fun t =>
      (t.trace.length, t.phase, t.win, t.winValid, t.idling, t.pins.dc)) =
        some (45, .ready, ⟨0, 0, 0, 0⟩, false, true, .high) := by decide
/-- V43.21, V43.22. -/
theorem test_idle :
    faultOf .idle (booted ref) = some ⟨.illegalState, .operation .idle⟩ ∧
    nextState (exec .idle (ready ref)) = some { ready ref with idling := true } ∧
    nextState (exec (.setWindow 0 0 0 0) { ready ref with idling := true }) = none := by decide
/-- V43.23. -/
theorem test_halt :
    nextState (exec .halt (ready ref)) = some { ready ref with phase := .halted } ∧
    nextState (exec (.setWindow 0 0 0 0) { ready ref with phase := .halted }) = none := by decide

/-! ## Steps -/

/-- V43.24, V43.25, and 60_exceptions.md R172. -/
theorem test_step :
    ((nextState (step (asked .host (.pinSetLow .bl) (ready ref)))).map (·.trace)) = some [.pin .bl .low] ∧
    nextState (step (asked .host (.sendCommand 0x11 []) (ready ref))) = none ∧
    ((nextState (step (asked .component (.sendCommand 0x11 []) (ready ref)))).map (·.trace)) = some (cmd [0x11]) ∧
    nextState (step (asked .host (.pinSetLow .bl) .reset)) = none ∧
    nextState (step (asked .host (.pinSetLow .dc) (ready ref))) = none := by decide
theorem test_step_of_a_table_word :
    ((nextState (step (State.reset.withFetchWord 9 0x02C))).map (·.trace)) = none ∧
    ((nextState (step (State.reset.withFetchWord 8 0x15))).map (·.trace)) = some [.delay 0] ∧
    ((nextState (step (State.reset.withFetchWord 8 0x02))).bind (·.fault)) =
      some ⟨.illegalState, .operation .init⟩ := by decide

/-! ## Witnesses: for each statement with hypotheses, a state and operands that meet them, one for each clause -/

/-- An outcome whose next state is some state has that next state. -/
theorem next_of {o : Host.Outcome State Fault Refusal} {t : State} (h : nextState o = some t) : o = .next t := by
  cases o <;> simp_all [nextState]

/-- An outcome with a next state. -/
theorem has_next {o : Host.Outcome State Fault Refusal} (h : (nextState o).isSome = true) : ∃ t, o = .next t := by
  cases o <;> simp_all [nextState]

theorem all_ok (s : State) (h : s.env.xferFaults = []) : AllTransfersOk s := fun k => by
  simp [Env.xferFault, h, faultEntry]

theorem reset_live : Live State.reset := by decide
theorem ready_live : Live (ready ref) := by decide
theorem ready_framer : FramerReady (ready ref) ∧ (ready ref).cfg.bufSize % 2 = 0 := by decide

theorem witness_PinConstructSetsTheLevel : Live State.reset ∧ Issuer.host = .host := by decide
theorem witness_PinSetLowDrivesTheLine : Live (ready ref) ∧ Pin.rst ≠ Pin.bl := by decide
theorem witness_PinSetHighDrivesTheLine : Live (ready ref) ∧ Pin.dc ≠ Pin.bl := by decide
theorem witness_SpiConstructClaimsTheTransport :
    (Live State.reset ∧ State.reset.env.claimOk = true) ∧
    Live { State.reset with env := ⟨false, []⟩ } ∧ ({ State.reset with env := ⟨false, []⟩ } : State).env.claimOk = false := by
  decide
theorem witness_SpiBeginAssertsChipSelect :
    (Live (ready ref) ∧ (ready ref).cs = .deasserted) ∧ Live (inside (ready ref)) ∧ (inside (ready ref)).cs = .asserted := by
  decide
/-- Lists of 1 and of BUF_SIZE bytes, prefixes of no byte and of all. -/
theorem witness_SpiXferTransfersOrFails :
    let s := inside (ready { ref with bufSize := 2 })
    (Live s ∧ s.cs = .asserted ∧ 1 ≤ [(1 : Byte)].length ∧ [(1 : Byte), 2].length ≤ s.cfg.bufSize ∧
      s.env.xferFault s.xferCount = none) ∧
    (failing 6 0 s).env.xferFault (failing 6 0 s).xferCount = some 0 ∧
    (failing 6 2 s).env.xferFault (failing 6 2 s).xferCount = some 2 ∧ 2 ≤ [(1 : Byte), 2].length := by decide
theorem witness_SpiWriteIsBeginXferEnd :
    Live (ready ref) ∧ (ready ref).cs = .deasserted ∧ 1 ≤ [(0x29 : Byte)].length ∧
    [(0x29 : Byte)].length ≤ (ready ref).cfg.bufSize ∧ (ready ref).env.xferFault (ready ref).xferCount = none := by decide
theorem witness_SpiEndDeassertsChipSelect : Live (inside (ready ref)) ∧ (inside (ready ref)).cs = .asserted := by decide
theorem witness_BrokenAssertsAreModelFaults :
    (Live (ready ref) ∧ (ready ref).cs = .deasserted) ∧ Live (inside (ready { ref with bufSize := 2 })) ∧
    (inside (ready { ref with bufSize := 2 })).cs = .asserted ∧
    ¬ (1 ≤ ([] : List Byte).length ∧ ([] : List Byte).length ≤ 2) ∧
    ¬ (1 ≤ [(1 : Byte), 2, 3].length ∧ [(1 : Byte), 2, 3].length ≤ 2) := by decide
theorem witness_DelayMsEmitsADelay : Live (ready ref) := by decide
/-- The words at the ends of the two classes. -/
theorem witness_SymbolWordLayout :
    (0x0FF#9).toNat < 0x100 ∧ 0x100 ≤ (0x100#9).toNat ∧ (0x000#9).toNat < 0x100 ∧ 0x100 ≤ (0x1FF#9).toNat := by decide
theorem witness_SymbolsTransferAtTheirClass :
    (Live (inside (ready ref)) ∧ (inside (ready ref)).cs = .asserted ∧ 1 ≤ (inside (ready ref)).cfg.bufSize ∧
      (inside (ready ref)).env.xferFault (inside (ready ref)).xferCount = none) ∧
    Live (ready ref) ∧ (ready ref).cs = .deasserted := by decide
theorem witness_SendCommandCompletes :
    Live (ready ref) ∧ FramerReady (ready ref) ∧ TransfersOk (ready ref) (commandTransfers ref [0x55]) :=
  ⟨ready_live, ready_framer.1, fun _ _ => rfl⟩
/-- Both levels of PARAM_DC, the first and a later transfer. -/
theorem witness_SendCommandFirstFailingTransfer :
    let low := failing 7 1 (ready { ref with bufSize := 2 })
    let high := failing 7 0 (ready { ref with bufSize := 2, paramDc := .high })
    let first := failing 6 0 (ready { ref with bufSize := 2, paramDc := .high })
    (Live low ∧ FramerReady low ∧ TransfersOk low 1 ∧ low.env.xferFault (low.xferCount + 1) = some 1 ∧
      low.cfg.paramDc = .low ∧ 1 < chunkCount low.cfg.bufSize ([(1 : Byte), 2].length + 1)) ∧
    (Live high ∧ FramerReady high ∧ TransfersOk high 1 ∧ high.env.xferFault (high.xferCount + 1) = some 0 ∧
      high.cfg.paramDc = .high ∧ 0 < chunkCount high.cfg.bufSize [(1 : Byte)].length) ∧
    (Live first ∧ FramerReady first ∧ TransfersOk first 0 ∧ first.env.xferFault (first.xferCount + 0) = some 0 ∧
      first.cfg.paramDc = .high) := by
  refine ⟨⟨by decide, by decide, fun j hj => ?_, by decide⟩, ⟨by decide, by decide, fun j hj => ?_, by decide⟩,
    by decide, by decide, fun j hj => absurd hj (by omega), by decide⟩ <;>
  · obtain rfl : j = 0 := by omega
    decide
theorem witness_SendPixelsCompletes :
    Live (ready ref) ∧ FramerReady (ready ref) ∧ (ready ref).cfg.bufSize % 2 = 0 ∧
    TransfersOk (ready ref) (chunkCount (ready ref).cfg.bufSize (2 * [(0x001F : U16)].length)) :=
  ⟨ready_live, ready_framer.1, ready_framer.2, fun _ _ => rfl⟩
theorem witness_SendPixelsFirstFailingTransfer :
    let s := failing 7 1 (ready { ref with bufSize := 2 })
    Live s ∧ FramerReady s ∧ s.cfg.bufSize % 2 = 0 ∧ TransfersOk s 1 ∧
    s.env.xferFault (s.xferCount + 1) = some 1 ∧ 1 < chunkCount s.cfg.bufSize (2 * [(1 : U16), 2].length) := by
  refine ⟨by decide, by decide, by decide, fun j hj => ?_, by decide⟩
  obtain rfl : j = 0 := by omega
  decide
theorem witness_ChunkingInvisibleOnWire :
    (Live (ready ref) ∧ FramerReady (ready ref) ∧ (ready ref).cfg.bufSize % 2 = 0 ∧ AllTransfersOk (ready ref) ∧
      (ready ref).cfg.paramDc = .low) ∧
    (let s := ready { ref with bufSize := 2, paramDc := .high }
     Live s ∧ FramerReady s ∧ s.cfg.bufSize % 2 = 0 ∧ AllTransfersOk s ∧ s.cfg.paramDc = .high ∧
      [(1 : Byte)] ≠ []) :=
  ⟨⟨ready_live, ready_framer.1, ready_framer.2, all_ok _ rfl, rfl⟩,
    by decide, by decide, by decide, all_ok _ rfl, by decide, by decide⟩
/-- A state for each branch. -/
theorem witness_BootOutcome :
    Live (booted ref) ∧ (booted ref).phase ≠ .powerOn ∧ Live State.reset ∧ State.reset.phase = .powerOn ∧
    firstFailingClause { ref with width := 0 } = some 1 ∧ firstFailingClause { ref with bufSize := 511 } = some 2 ∧
    firstFailingClause { ref with initTable := [] } = some 3 ∧ firstFailingClause { ref with pixelBits := 18 } = some 4 ∧
    firstFailingClause ref = none ∧ State.reset.env.claimOk = true ∧
    firstFailingClause { ref with bufSize := 2, width := 1, height := 65535 } = none ∧
    Live { State.reset with env := ⟨false, []⟩ } := by decide
theorem witness_WellFormedTables :
    tableOk ref = true ∧ tableOk { ref with initTable := refTable.drop 1 } = true ∧ Live State.reset ∧
    State.reset.phase = .powerOn ∧ tableOk { ref with initTable := refTable.drop 2 } = false := by decide
theorem witness_ResetPulseDrivesTheResetLine :
    (Live (booted ref) ∧ (booted ref).phase = .uninitialized) ∧ Live (ready ref) ∧ (ready ref).phase ≠ .uninitialized := by
  decide
theorem witness_ConfigureReplaysTheTable :
    (let s := { booted ref with phase := .resetting }
     Live s ∧ s.phase = .resetting ∧ FramerReady s ∧ AllTransfersOk s) ∧
    Live (ready ref) ∧ (ready ref).phase ≠ .resetting :=
  ⟨⟨by decide, rfl, by decide, all_ok _ rfl⟩, by decide, by decide⟩
/-- Entry 3 of program P6. -/
theorem witness_ConfigureFaultKeepsTheEntry :
    let s := failing 3 1 { booted ref with phase := .resetting }
    Live s ∧ s.phase = .resetting ∧ FramerReady s ∧ s.fault = none ∧
    s.cfg.initTable = refTable.take 3 ++ ⟨.madctl, 0x36, [0x28], 0⟩ :: refTable.drop 4 ∧
    0 < commandTransfers s.cfg [0x28] ∧ TransfersOk s (tableTransfers s.cfg (refTable.take 3) + 0) ∧
    s.env.xferFault (s.xferCount + (tableTransfers s.cfg (refTable.take 3) + 0)) = some 1 := by
  have h3 : tableTransfers ref (refTable.take 3) = 3 := by decide
  refine ⟨by decide, rfl, by decide, rfl, by decide, by decide, fun j hj => ?_, by decide⟩
  have hj' : j < 3 := by rw [← h3]; exact hj
  have : j = 0 ∨ j = 1 ∨ j = 2 := by omega
  rcases this with rfl | rfl | rfl <;> decide
theorem witness_InitRunsTheStateMachine :
    (Live (booted ref) ∧ (booted ref).phase = .uninitialized ∧ FramerReady (booted ref) ∧ AllTransfersOk (booted ref)) ∧
    Live (ready ref) ∧ (ready ref).phase ≠ .uninitialized :=
  ⟨⟨by decide, rfl, by decide, all_ok _ rfl⟩, by decide, by decide⟩
theorem witness_InitEventShape :
    Live (booted ref) ∧ (booted ref).phase = .uninitialized ∧ FramerReady (booted ref) ∧ AllTransfersOk (booted ref) :=
  ⟨by decide, rfl, by decide, all_ok _ rfl⟩
theorem witness_InitEntriesComplete :
    Live (ready ref) ∧ FramerReady (ready ref) ∧ TransfersOk (ready ref) (commandTransfers ref [0x23]) ∧
    TransfersOk (ready ref) (commandTransfers ref [madctlByte ref]) ∧ TransfersOk (ready ref) (commandTransfers ref []) :=
  ⟨ready_live, ready_framer.1, fun _ _ => rfl, fun _ _ => rfl, fun _ _ => rfl⟩
theorem witness_WindowCommandsComplete :
    Live (ready ref) ∧ FramerReady (ready ref) ∧ TransfersOk (ready ref) (commandTransfers ref [0, 0, 1, 0x3F]) ∧
    TransfersOk (ready ref) (commandTransfers ref []) :=
  ⟨ready_live, ready_framer.1, fun _ _ => rfl, fun _ _ => rfl⟩
/-- Two rectangles that differ in one coordinate; the reference scheme with other opcodes. -/
theorem witness_WindowCommandsAreLawful :
    ref.windowCmds.lawful = true ∧ (0 : U16) ≤ 319 ∧ (0 : U16) ≤ 239 ∧ (1 : U16) ≤ 319 ∧
    tiny.windowCmds = ref.windowCmds ∧ tiny.opcColset = ref.opcColset ∧ tiny.opcRowset = ref.opcRowset ∧
    ref.windowCmds = referenceWindow ∧
    windowCmds { ref with opcColset := 0x75, opcRowset := 0x15 } ⟨0, 0, 319, 239⟩ =
      [⟨0x75, [0x00, 0x00, 0x01, 0x3F]⟩, ⟨0x15, [0x00, 0x00, 0x00, 0xEF]⟩] := by decide
/-- The largest rectangle, one a column too wide, one inverted; a halt at a failing transfer. -/
theorem witness_SetWindowOutcome :
    (Live (booted ref) ∧ (booted ref).phase ≠ .ready) ∧
    (Live (ready ref) ∧ (ready ref).phase = .ready ∧ ¬ ((320 : U16) < ref.width) ∧ ¬ ((5 : U16) ≤ 4) ∧
      ((0 : U16) ≤ 319 ∧ (319 : U16) < ref.width ∧ (0 : U16) ≤ 239 ∧ (239 : U16) < ref.height)) ∧
    (FramerReady (ready ref) ∧ AllTransfersOk (ready ref)) ∧
    ∃ t, exec (.setWindow 0 0 319 239) (failing 6 0 (ready ref)) = .next t ∧ t.phase = .halted := by
  refine ⟨by decide, by decide, ⟨ready_framer.1, all_ok _ rfl⟩, _, next_of (Option.some_get (by decide)).symm, by decide⟩
theorem witness_WritePixelsOutcome :
    (Live (booted ref) ∧ (booted ref).phase ≠ .ready) ∧ (Live (ready ref) ∧ (ready ref).winValid = false) ∧
    (let s := { ready ref with win := ⟨5, 7, 5, 7⟩, winValid := true }
     Live s ∧ s.phase = .ready ∧ s.winValid = true ∧ ([] : List U16).length ≠ pixelCount s.win ∧
      [(0x001F : U16)].length = pixelCount s.win ∧ FramerReady s ∧ s.cfg.bufSize % 2 = 0) ∧
    AllTransfersOk { ready ref with win := ⟨5, 7, 5, 7⟩, winValid := true } :=
  ⟨by decide, by decide, by decide, all_ok _ rfl⟩
theorem witness_SetPixelsOutcome :
    (Live (booted ref) ∧ (booted ref).phase ≠ .ready) ∧
    (Live (ready ref) ∧ (ready ref).phase = .ready ∧ inBounds ref ⟨0, 0, 320, 0⟩ = false ∧
      inBounds ref ⟨319, 239, 319, 239⟩ = true ∧ ([] : List U16).length ≠ pixelCount ⟨319, 239, 319, 239⟩ ∧
      [(7 : U16)].length = pixelCount ⟨319, 239, 319, 239⟩ ∧ FramerReady (ready ref) ∧ ref.bufSize % 2 = 0) ∧
    AllTransfersOk (ready ref) :=
  ⟨by decide, by decide, all_ok _ rfl⟩
theorem witness_FillRectOutcome :
    (Live (booted ref) ∧ (booted ref).phase ≠ .ready) ∧
    (Live (ready ref) ∧ (ready ref).phase = .ready ∧ (ready ref).fault = none ∧ inBounds ref ⟨0, 0, 320, 0⟩ = false ∧
      inBounds ref ⟨0, 0, 0, 0⟩ = true ∧ FramerReady (ready ref) ∧ ref.bufSize % 2 = 0) ∧
    AllTransfersOk (ready ref) ∧ ∃ t, exec (.fillRect 0 0 0 0 7) (ready ref) = .next t :=
  ⟨by decide, by decide, all_ok _ rfl, has_next (by decide)⟩
theorem witness_FillScreenFillsTheWholeScreen :
    Live (ready ref) ∧ 1 ≤ (ready ref).cfg.width.toNat ∧ 1 ≤ (ready ref).cfg.height.toNat ∧ (ready ref).phase = .ready ∧
    FramerReady (ready ref) ∧ (ready ref).cfg.bufSize % 2 = 0 ∧ AllTransfersOk (ready ref) :=
  ⟨ready_live, by decide, by decide, rfl, ready_framer.1, ready_framer.2, all_ok _ rfl⟩
theorem witness_MainRunsTheWholePath :
    Live State.reset ∧ State.reset.phase = .powerOn ∧ firstFailingClause ref = none ∧ State.reset.env.claimOk = true ∧
    State.reset.bufLen = 0 ∧ AllTransfersOk State.reset :=
  ⟨reset_live, rfl, by decide, rfl, rfl, all_ok _ rfl⟩
theorem witness_PixelWriteFollowsItsWindow :
    Live (ready ref) ∧ (ready ref).phase = .ready ∧ inBounds (ready ref).cfg ⟨319, 239, 319, 239⟩ = true ∧
    [(0x001F : U16)].length = pixelCount ⟨319, 239, 319, 239⟩ ∧ FramerReady (ready ref) ∧
    (ready ref).cfg.bufSize % 2 = 0 ∧ AllTransfersOk (ready ref) :=
  ⟨ready_live, rfl, by decide, by decide, ready_framer.1, ready_framer.2, all_ok _ rfl⟩
/-- Two states that differ in a line, a window and the transfer counter. -/
theorem witness_SameFillSameEvents :
    let s' := { ready ref with pins := ⟨.high, .high, .low⟩, win := ⟨1, 1, 2, 2⟩, winValid := true, xferCount := 99 }
    Live (ready ref) ∧ Live s' ∧ (ready ref).phase = .ready ∧ s'.phase = .ready ∧ s'.cfg = (ready ref).cfg ∧
    inBounds (ready ref).cfg ⟨3, 4, 3, 4⟩ = true ∧ FramerReady (ready ref) ∧ FramerReady s' ∧
    (ready ref).cfg.bufSize % 2 = 0 ∧ AllTransfersOk (ready ref) ∧ AllTransfersOk s' :=
  ⟨ready_live, by decide, rfl, rfl, rfl, by decide, ready_framer.1, by decide, ready_framer.2, all_ok _ rfl, all_ok _ rfl⟩
/-- A cell at each corner of the window of program P3, and one beside it. -/
theorem witness_PeerWritesEachCellOnce :
    let w : Window := ⟨1, 2, 2, 3⟩
    w.x0 ≤ w.x1 ∧ w.y0 ≤ w.y1 ∧ [(0xF800 : U16), 0x07E0, 0x001F, 0xFFFF].length = pixelCount w ∧
    (w.x0.toNat ≤ 1 ∧ 2 ≤ w.x1.toNat ∧ w.y0.toNat ≤ 2 ∧ 3 ≤ w.y1.toNat) ∧
    ¬ (w.x0.toNat ≤ 3 ∧ 3 ≤ w.x1.toNat ∧ w.y0.toNat ≤ 2 ∧ 2 ≤ w.y1.toNat) := by decide
theorem witness_IdleNeverCompletes :
    (Live (booted ref) ∧ (booted ref).phase ≠ .ready) ∧ Live (ready ref) ∧ (ready ref).phase = .ready := by decide
theorem witness_HaltedForEver :
    Live (ready ref) ∧ ({ ready ref with phase := .halted } : State).phase = .halted ∧
    ({ ready ref with phase := .halted } : State).requests = [] ∧
    ∃ t, step { ready ref with phase := .halted } = .next t :=
  ⟨ready_live, rfl, rfl, _, rfl⟩
/-- A check that fails, and a claim that fails. -/
theorem witness_ChecksArePrecise :
    (∃ t, (ready ref).fault = none ∧ exec (.setWindow 0 0 320 239) (ready ref) = .next t ∧
      t.fault = some ⟨.windowOutOfBounds, .window 0 0 320 239⟩ ∧ FaultCode.windowOutOfBounds ≠ .transferError) ∧
    ∃ t, exec (.boot ref) { State.reset with env := ⟨false, []⟩ } = .next t ∧
      t.fault = some ⟨.resourceUnavailable, .transport⟩ :=
  ⟨⟨_, rfl, next_of (Option.some_get (by decide)).symm, by decide, by decide⟩,
    _, next_of (Option.some_get (by decide)).symm, by decide⟩

/-- S_ready is well-formed. -/
theorem ready_wf (s : State) (h : s = { ready ref with env := s.env, requests := s.requests }) : WellFormedState s := by
  rw [h]
  exact ⟨by simp [ready, booted, State.reset], fun _ _ => (by decide : firstFailingClause ref = none),
    fun h => Bool.noConfusion h, fun _ => ⟨rfl, rfl⟩, (by decide : 6 ≤ refTable.length),
    fun _ => (by decide : 6 = refTable.length), fun h => Phase.noConfusion h,
    ⟨fun h => Phase.noConfusion h, fun h => Phase.noConfusion h⟩, fun h => Bool.noConfusion h, Nat.zero_le _,
    ⟨.nil, fun _ h => (nomatch h)⟩, fun _ h => (nomatch h), fun h => Phase.noConfusion h,
    (by decide : referenceWindow.lawful = true)⟩

theorem witness_TransferErrorIsTheFirstFailure :
    ∃ t, (failing 7 0 (ready ref)).fault = none ∧
      exec (.setWindow 0 0 319 239) (failing 7 0 (ready ref)) = .next t ∧
      t.fault = some ⟨.transferError, .transfer 7⟩ ∧ WellFormedState (failing 7 0 (ready ref)) ∧
      hostVisible (.setWindow 0 0 319 239) = true :=
  ⟨_, rfl, next_of (Option.some_get (by decide)).symm, by decide, ready_wf _ rfl, rfl⟩
theorem witness_PhasesMoveOnlyForward :
    (∃ t, exec .resetPulse (booted ref) = .next t) ∧ ∃ t, step (asked .host .init (booted ref)) = .next t :=
  ⟨has_next (by decide), has_next (by decide)⟩
theorem witness_FirstFaultIsKept :
    let s := { ready ref with fault := some ⟨.illegalState, .windowNotSet⟩ }
    s.fault = some ⟨.illegalState, .windowNotSet⟩ ∧ ∃ t, exec (.delayMs 1) s = .next t ∧ t.phase ≠ .halted :=
  ⟨rfl, _, rfl, by decide⟩
theorem witness_ControlRegistersFrame :
    (∃ t, exec (.setPixels 0 0 0 0 [7]) (ready ref) = .next t) ∧ writesCfg (.setPixels 0 0 0 0 [7]) = false ∧
    writesInitIdx (.setPixels 0 0 0 0 [7]) = false ∧ startsIdling (.setPixels 0 0 0 0 [7]) = false :=
  ⟨has_next (by decide), rfl, rfl, rfl⟩
theorem witness_WindowRegistersFrame :
    (∃ t, exec .init (booted ref) = .next t) ∧ writesWin .init = false ∧ writesWinValid .init = false :=
  ⟨has_next (by decide), rfl, rfl⟩
theorem witness_LinesFrame :
    (∃ t, exec (.spiWrite [1]) (ready ref) = .next t ∧ t.phase ≠ .halted) ∧ writesRst (.spiWrite [1]) = false ∧
    writesBl (.spiWrite [1]) = false ∧ leavesDc (.spiWrite [1]) = true ∧ movesCs (.spiWrite [1]) = false :=
  ⟨⟨_, next_of (Option.some_get (by decide)).symm, by decide⟩, rfl, rfl, rfl, rfl⟩
/-- An address at the limit, and one below it. -/
theorem witness_BufferFrame :
    (ready ref).bufLen = 0 ∧ (∃ t, exec (.sendPixels [1, 2]) (ready ref) = .next t ∧ t.phase ≠ .halted) ∧
    storeLimit (ready ref).cfg (.sendPixels [1, 2]) ≤ 4 ∧ ¬ storeLimit (ready ref).cfg (.sendPixels [1, 2]) ≤ 3 :=
  ⟨rfl, ⟨_, next_of (Option.some_get (by decide)).symm, by decide⟩, by decide, by decide⟩
theorem witness_BufferStaysCanonical :
    (ready ref).buf.wf ∧ ∃ t, exec (.sendPixels [1, 2]) (ready ref) = .next t :=
  ⟨⟨.nil, fun _ h => (nomatch h)⟩, has_next (by decide)⟩
theorem witness_TraceIsOnlyAppended : ∃ t, exec (.sendPixels [1, 2]) (ready ref) = .next t := has_next (by decide)
theorem witness_TraceReplaysTheLines :
    constructs (.sendPixels [1, 2]) = false ∧ ∃ t, exec (.sendPixels [1, 2]) (ready ref) = .next t ∧ t.phase ≠ .halted :=
  ⟨rfl, _, next_of (Option.some_get (by decide)).symm, by decide⟩
/-- A request of the host, and one of a component. -/
theorem witness_StepRunsTheDecodedInstruction :
    ((asked .host .init (booted ref)).requests = [⟨.host, encode .init⟩] ∧ decode (encode .init) = .ok .init ∧
      Instr.init.wellFormed (booted ref).cfg.bufSize = true ∧ hostVisible .init = true ∧ isPinSet .init = false) ∧
    (asked .component (.spiXfer [1]) (ready ref)).requests = [⟨.component, encode (.spiXfer [1])⟩] ∧
    decode (encode (.spiXfer [1])) = .ok (.spiXfer [1]) ∧ (Instr.spiXfer [1]).wellFormed (ready ref).cfg.bufSize = true := by
  decide
/-- A reserved code, an internal code, and the pin the host does not own. -/
theorem witness_ReservedAndInternalAreRefused :
    ({ ready ref with requests := [⟨.host, ⟨.req 0x08, []⟩⟩] } : State).requests = [⟨.host, ⟨.req 0x08, []⟩⟩] ∧
    (0x08 : Byte) ∉ [(0x01 : Byte), 0x02, 0x03, 0x04, 0x05, 0x06, 0x07, 0x10, 0x11, 0x12, 0x13, 0x14, 0x15, 0x16, 0x17,
      0x18, 0x20, 0x21, 0x30, 0x31, 0x3F] ∧
    (asked .host (.sendCommand 0x11 []) (ready ref)).requests = [⟨.host, encode (.sendCommand 0x11 [])⟩] ∧
    (encode (.sendCommand 0x11 [])).head = .req 0x20 ∧
    (0x20 : Byte) ∉ [(0x01 : Byte), 0x02, 0x03, 0x04, 0x05, 0x06, 0x07, 0x11, 0x12] ∧
    (asked .host (.pinSetLow .dc) (ready ref)).requests = [⟨.host, ⟨.req 0x11, [.pin .dc]⟩⟩] ∧ PinRole.dc ≠ .bl := by
  decide
theorem witness_IllFormedAndEarlyAreRefused :
    ((asked .component (.spiWrite []) (ready ref)).requests = [⟨.component, encode (.spiWrite [])⟩]) ∧
    (ready { ref with bufSize := 2 }).cfg.bufSize < [(1 : Byte), 2, 3].length ∧
    ({ ref with windowCmds := .layout [] } : Cfg).windowCmds.lawful = false ∧
    State.reset.phase = .powerOn ∧ (asked .host (.pinSetLow .bl) .reset).requests = [⟨.host, encode (.pinSetLow .bl)⟩] := by
  decide
theorem witness_StepWithoutARequest :
    ((ready ref).requests = [] ∧ (ready ref).idling = false) ∧
    ({ ready ref with idling := true } : State).phase ≠ .halted ∧
    ({ ready ref with phase := .halted, idling := true } : State).phase = .halted := by decide
theorem witness_EncodeAfterDecode : decode ⟨.req 0x15, [.nat 20]⟩ = .ok (.delayMs 20) := by decide
theorem witness_StepKeepsWellFormed :
    WellFormedState (asked .host (.fillRect 0 0 0 0 7) (ready ref)) ∧ HostOnly (asked .host (.fillRect 0 0 0 0 7) (ready ref)) ∧
    ∃ t, step (asked .host (.fillRect 0 0 0 0 7) (ready ref)) = .next t :=
  ⟨ready_wf _ rfl, fun r h => by simp only [asked, List.mem_singleton] at h; rw [h], has_next (by decide)⟩
theorem witness_HostRequestsNeverBreakAnAssert :
    WellFormedState (asked .host .idle (ready ref)) ∧ HostOnly (asked .host .idle (ready ref)) :=
  ⟨ready_wf _ rfl, fun r h => by simp only [asked, List.mem_singleton] at h; rw [h]⟩

end Sys2Proof.Machine.Tests
end

section
/-! The wire view forgets chunk boundaries (30_encoding.md R65). -/
namespace Sys2Proof.Machine

@[simp] theorem wire_nil : wire [] = [] := rfl
@[simp] theorem wire_xfer (dc : Level) (bytes : List Byte) (es : List Event) :
    wire (.xfer dc bytes :: es) = bytes.map (fun b => .sym ⟨dc, b⟩) ++ wire es := rfl
@[simp] theorem wire_pin (p : Pin) (v : Level) (es : List Event) :
    wire (.pin p v :: es) = .event (.pin p v) :: wire es := rfl
@[simp] theorem wire_csAssert (es : List Event) : wire (.csAssert :: es) = .event .csAssert :: wire es := rfl
@[simp] theorem wire_csDeassert (es : List Event) : wire (.csDeassert :: es) = .event .csDeassert :: wire es := rfl
@[simp] theorem wire_delay (n : Nat) (es : List Event) : wire (.delay n :: es) = .event (.delay n) :: wire es := rfl

@[simp] theorem wire_append (es fs : List Event) : wire (es ++ fs) = wire es ++ wire fs := by
  induction es with
  | nil => rfl
  | cons e es ih => cases e <;> simp [ih]

/-- Transfers in a row at one DC level are, on the wire, the transfer of their bytes joined. -/
theorem wire_map_xfer (dc : Level) (parts : List (List Byte)) :
    wire (parts.map (.xfer dc)) = wire [.xfer dc parts.flatten] := by
  induction parts with
  | nil => rfl
  | cons part parts ih => simpa using ih

/-- On the wire a payload's chunks are the payload in one transfer (30_encoding.md R65). -/
theorem wire_streamEvents {cfg : Cfg} (hn : 0 < cfg.bufSize) (dc : Level) (payload : List Byte) :
    wire (streamEvents cfg dc payload) = wire [.xfer dc payload] := by
  rw [streamEvents, wire_map_xfer, chunks_flatten hn]

theorem wire_commandEvents_low {cfg : Cfg} (hn : 0 < cfg.bufSize) (hd : cfg.paramDc = .low) (opcode : Byte)
    (params : List Byte) : wire (commandEvents cfg opcode params) =
      wire [.pin .dc .low, .csAssert, .xfer .low (opcode :: params), .csDeassert] := by
  simp [commandEvents, commandBody, hd, wire_streamEvents hn]

theorem wire_commandEvents_high {cfg : Cfg} (hn : 0 < cfg.bufSize) (hd : cfg.paramDc = .high) (opcode : Byte)
    {params : List Byte} (hp : params ≠ []) : wire (commandEvents cfg opcode params) =
      wire [.pin .dc .low, .csAssert, .xfer .low [opcode], .pin .dc .high, .xfer .high params, .csDeassert] := by
  simp [commandEvents, commandBody, hd, hp, wire_streamEvents hn]

theorem wire_commandEvents_high_nil {cfg : Cfg} (hn : 0 < cfg.bufSize) (hd : cfg.paramDc = .high) (opcode : Byte) :
    wire (commandEvents cfg opcode []) = wire [.pin .dc .low, .csAssert, .xfer .low [opcode], .csDeassert] := by
  simp [commandEvents, commandBody, hd, wire_streamEvents hn]

theorem wire_pixelEvents {cfg : Cfg} (hn : 0 < cfg.bufSize) (pixels : List U16) : wire (pixelEvents cfg pixels) =
    wire [.pin .dc .high, .csAssert, .xfer .high (pixelPayload cfg pixels), .csDeassert] := by
  simp [pixelEvents, wire_streamEvents hn]

/-- SEND_COMMAND accepted, with every transfer it makes succeeding (41_framer.md R101). -/
theorem exec_sendCommand_of_ok {s : State} (hl : Live s) (hr : FramerReady s) (opcode : Byte) (params : List Byte)
    (hx : TransfersOk s (commandTransfers s.cfg params)) :
    exec (.sendCommand opcode params) s = .next (afterCommand opcode params s) := by
  rw [exec_of_live hl, bodyOf, sendCommand_ok opcode params s hr hx, Result.outcome_ok]

/-- SEND_PIXELS accepted, with every transfer it makes succeeding (41_framer.md R104). -/
theorem exec_sendPixels_of_ok {s : State} (hl : Live s) (hr : FramerReady s) (he : s.cfg.bufSize % 2 = 0)
    (pixels : List U16) (hx : TransfersOk s (chunkCount s.cfg.bufSize (2 * pixels.length))) :
    exec (.sendPixels pixels) s = .next (afterPixels pixels s) := by
  rw [exec_of_live hl, bodyOf, sendPixels_ok pixels s hr he hx, Result.outcome_ok]

/-- Settles O17: the events of a transaction are those of its chunks, which on the wire join to the payload. -/
theorem chunkingInvisibleOnWire : Obligations.ChunkingInvisibleOnWire := by
  intro s opcode params pixels hl hr he hx
  have ⟨_, _, hn⟩ := hr
  have command (ps : List Byte) : exec (.sendCommand opcode ps) s = .next (afterCommand opcode ps s) :=
    exec_sendCommand_of_ok hl hr opcode ps (hx.transfersOk _)
  refine ⟨fun hd => ?_, fun hd hp => ?_, fun hd => ?_, ?_⟩
  · exact ⟨_, _, command params, rfl, wire_commandEvents_low hn hd opcode params⟩
  · exact ⟨_, _, command params, rfl, wire_commandEvents_high hn hd opcode hp⟩
  · exact ⟨_, _, command [], rfl, wire_commandEvents_high_nil hn hd opcode⟩
  · exact ⟨_, _, exec_sendPixels_of_ok hl hr he pixels (hx.transfersOk _), rfl, wire_pixelEvents hn pixels⟩

end Sys2Proof.Machine
end

section
/-! A symbol's word as a number: bit 8 the DC level, bits 7:0 the byte (30_encoding.md R60). -/
namespace Sys2Proof.Machine

theorem toNat_commandSymbol (b : Byte) : (commandSymbol b).toNat = b.toNat := by
  rw [commandSymbol, BitVec.toNat_append, ← Nat.shiftLeft_add_eq_or_of_lt b.isLt]
  exact Nat.zero_add _

theorem toNat_dataSymbol (b : Byte) : (dataSymbol b).toNat = 0x100 + b.toNat := by
  rw [dataSymbol, BitVec.toNat_append, ← Nat.shiftLeft_add_eq_or_of_lt b.isLt]
  rfl

theorem symbolIsData_eq_decide (w : BitVec 9) : symbolIsData w = decide (0x100 ≤ w.toNat) := by
  rw [symbolIsData, ← BitVec.msb_eq_getLsbD_last, BitVec.msb_eq_decide]

theorem symbolByte_eq_ofNat (w : BitVec 9) : symbolByte w = BitVec.ofNat 8 w.toNat :=
  (BitVec.ofNat_toNat 8 w).symm

/-- A word with bit 8 set: what stands above the byte is 0x100. -/
theorem symbolByte_eq_ofNat_sub {w : BitVec 9} (h : 0x100 ≤ w.toNat) :
    symbolByte w = BitVec.ofNat 8 (w.toNat - 0x100) := by
  rw [symbolByte_eq_ofNat]
  apply BitVec.eq_of_toNat_eq
  simp only [BitVec.toNat_ofNat]
  omega

theorem decode_sym (w : BitVec 9) : decode ⟨.sym w, []⟩ =
    .ok (if symbolIsData w then .symData (symbolByte w) else .symCommand (symbolByte w)) := by
  cases h : symbolIsData w <;> simp [decode, h, noOperands, named]

/-- A word is the word of the symbol of its two halves, and of no other (30_encoding.md R60). -/
theorem symWord_eq_iff (y : Sym) (w : BitVec 9) :
    symWord y = w ↔ y = ⟨if symbolIsData w then .high else .low, symbolByte w⟩ := by
  constructor
  · rintro rfl
    obtain ⟨dc, b⟩ := y
    cases dc <;> simp [symWord]
  · rintro rfl
    have hw := symbol_of_halves w
    cases h : symbolIsData w <;> simpa [symWord, h] using hw

/-- Settles O11: the layout is that of the two appends, and a word's two halves determine its symbol. -/
theorem symbolWordLayout : Obligations.SymbolWordLayout := by
  refine ⟨fun b => ⟨toNat_commandSymbol b, toNat_dataSymbol b⟩, fun w => ⟨?_, fun h => ?_, fun h => ?_⟩⟩
  · exact ⟨_, (symWord_eq_iff _ w).mpr rfl, fun y hy => (symWord_eq_iff y w).mp hy⟩
  · rw [decode_sym, symbolIsData_eq_decide, symbolByte_eq_ofNat]
    simp [Nat.not_le.mpr h]
  · rw [decode_sym, symbolIsData_eq_decide, symbolByte_eq_ofNat_sub h]
    simp [h]

end Sys2Proof.Machine
end

section
/-! Which packets are refused before any instruction runs (30_encoding.md R72). -/
namespace Sys2Proof.Machine

/-- A code that is no row's is no operation's: it is reserved. -/
theorem reqOpOf_eq_none {op : Byte} (h : op ∉ reqOps.map ReqOp.code) : reqOpOf op = none := by
  simpa [reqOpOf, List.find?_eq_none] using h

theorem decode_of_reserved {p : Packet} {op : Byte} (hp : p.head = .req op) (h : op ∉ reqOps.map ReqOp.code) :
    decode p = .error (.reservedCode op) := by
  simp [decode, hp, reqOpOf_eq_none h]

/-- A coded packet that decodes has a row's code and that row's operands. -/
theorem decode_req_eq_ok {p : Packet} {op : Byte} {i : Instr} (hp : p.head = .req op) (h : decode p = .ok i) :
    ∃ r : ReqOp, r.code = op ∧ reqInstr r p.operands = some i := by
  simp only [decode, hp] at h
  cases hr : reqOpOf op with
  | none => simp [hr] at h
  | some r =>
    rw [hr] at h
    exact ⟨r, reqOpOf_code hr, named_eq_ok.mp h⟩

/-- The operations with a code that the host may ask for in some form (30_encoding.md R70). -/
def hostOps : List ReqOp :=
  [.boot, .init, .setWindow, .writePixels, .setPixels, .fillRect, .idle, .pinSetLow, .pinSetHigh]

/-- What an operation outside `hostOps` decodes to, the host may not ask for. -/
theorem hostVisible_of_not_hostOps {r : ReqOp} {os : List Operand} {i : Instr} (hr : r ∉ hostOps)
    (h : reqInstr r os = some i) : hostVisible i = false := by
  cases r with
  | boot | init | setWindow | writePixels | setPixels | fillRect | idle | pinSetLow | pinSetHigh =>
    exact absurd (by decide) hr
  | spiBegin | spiEnd | resetPulse | configure | halt =>
    obtain ⟨-, rfl⟩ := noOperands_eq_some.mp h
    rfl
  | spiWrite | spiXfer =>
    obtain ⟨_, -, rfl⟩ := byteOperand_eq_some.mp h
    rfl
  | spiConstruct | delayMs =>
    obtain ⟨_, -, rfl⟩ := natOperand_eq_some.mp h
    rfl
  | sendPixels =>
    obtain ⟨_, -, rfl⟩ := pixelOperand_eq_some.mp h
    rfl
  | pinConstruct | sendCommand =>
    simp only [reqInstr] at h
    split at h
    · cases h; rfl
    · cases h

/-- What a set call decodes to for another pin than BL, the host may not ask for. -/
theorem hostVisible_of_pin_ne_bl {p : PinRole} {f : Pin → Instr} {i : Instr} (hp : p ≠ .bl)
    (hf : ∀ q, hostVisible (f q) = decide (q = .bl)) (h : pinOperand f [.pin p] = some i) : hostVisible i = false := by
  obtain ⟨q, hq, rfl⟩ := pinOperand_eq_some.mp h
  rw [hf, decide_eq_false_iff_not]
  rintro rfl
  simp [Pin.role, hp] at hq

theorem step_of_decode_error {s : State} {r : Request} {rest : List Request} {e : DecodeError}
    (hs : s.requests = r :: rest) (h : decode r.packet = .error e) : step s = .refused (.notAnInstruction e) := by
  simp [step, hs, requested, h]

/-- A request of the host is refused when no instruction it decodes to is one the host may ask for. -/
theorem step_refused_of_not_hostVisible {s : State} {r : Request} {rest : List Request}
    (hs : s.requests = r :: rest) (hh : r.issuer = .host) (h : ∀ i, decode r.packet = .ok i → hostVisible i = false) :
    ∃ why, step s = .refused why := by
  cases hd : decode r.packet with
  | error e => exact ⟨_, step_of_decode_error hs hd⟩
  | ok i =>
    have hv := h i hd
    cases hw : i.wellFormed s.cfg.bufSize with
    | false => exact ⟨.illFormed, by simp [step, hs, requested, hd, hw]⟩
    | true => exact ⟨.internalOperation, by simp [step, hs, requested, hd, hw, hh, hv]⟩

/-- Settles O50: a reserved code decodes to nothing, and nothing an internal request decodes to is host-visible. -/
theorem reservedAndInternalAreRefused : Obligations.ReservedAndInternalAreRefused := by
  refine ⟨fun s r rest op hs hp hop => ?_, fun s r rest op hs hh hp hop => ?_, fun s r rest p hs hh hp hbl => ?_,
    fun opcode params => rfl⟩
  · exact step_of_decode_error hs (decode_of_reserved hp hop)
  · refine step_refused_of_not_hostVisible hs hh fun i hi => ?_
    obtain ⟨q, rfl, hq⟩ := decode_req_eq_ok hp hi
    exact hostVisible_of_not_hostOps (fun hm => hop (List.mem_map_of_mem (f := ReqOp.code) hm)) hq
  · refine step_refused_of_not_hostVisible hs hh fun i hi => ?_
    rcases hp with hp | hp <;> rw [hp] at hi
    · exact hostVisible_of_pin_ne_bl hbl (fun _ => rfl) (named_eq_ok.mp hi)
    · exact hostVisible_of_pin_ne_bl hbl (fun _ => rfl) (named_eq_ok.mp hi)

end Sys2Proof.Machine
end

section
/-! What the pin, transport and delay operations share: a coded packet decodes by its row, a request of the host is no
internal operation, and a composite operation of accepted parts (30_encoding.md R70 to R72, R75). -/
namespace Sys2Proof.Machine

@[simp] theorem reqOpOf_code_self (r : ReqOp) : reqOpOf r.code = some r := by
  cases r <;> rfl

/-- A coded packet is the instruction its row reads from the operands. -/
theorem decode_reqPacket_eq_ok (r : ReqOp) {os : List Operand} {i : Instr} :
    decode (reqPacket r os) = .ok i ↔ reqInstr r os = some i := by
  simp [decode, reqPacket, named_eq_ok]

/-- No packet makes a request of the host an internal operation. -/
theorem requested_ne_of_not_hostVisible {r : Request} {i : Instr} (hh : r.issuer = .host) (hi : hostVisible i = false)
    (s : State) : requested r s ≠ .ok i := by
  cases hd : decode r.packet with
  | error e => simp [requested, hd]
  | ok j =>
    by_cases hj : j = i
    · cases hw : i.wellFormed s.cfg.bufSize <;> simp [requested, hd, hj, hw, hh, hi]
    · simp only [requested, hd]
      split_ifs <;> simp [hj]

theorem followedBy_of_live {m : State} (hm : Live m) (f : State → Host.Outcome State Fault Refusal) :
    followedBy (.next m) f = f m := by
  simp [followedBy, hm.1]

/-- `outcome_andThen_admitted` for a first part known by what it leaves. -/
theorem outcome_andThen_of_post {r : Result} (h : r.Post Live fun m => m.phase = .halted) (f : State → Result) :
    (r.andThen f).outcome = followedBy r.outcome (admitted f) :=
  outcome_andThen_admitted f (fun m hm => by simpa [hm] using h) (fun m hm => by simpa [hm] using h)

/-- The framer's parts keep an accepting block accepting, or raise and halt it (60_exceptions.md R168). -/
theorem framerRule_live : FramerRule (fun s t => Live s → Live t) (fun _ t => t.phase = .halted) where
  refl _ := id
  trans hm ht hs := ht (hm hs)
  fail _ hf := hf
  dc _ _ := id
  begins _ _ := id
  ends _ _ := id
  store _ _ _ := id
  drain _ := id
  moves _ _ _ _ _ _ := id
  faults _ _ _ _ _ _ _ := rfl

end Sys2Proof.Machine
end

section
/-! The pins and the delay (40_pin_spi_delay.md R80 to R82, R88). -/
namespace Sys2Proof.Machine

/-- Settles O1: each construction is one write of a level, and the operation is internal. -/
theorem pinConstructSetsTheLevel : Obligations.PinConstructSetsTheLevel := by
  intro s v hl
  refine ⟨exec_of_live hl _, exec_of_live hl _, exec_of_live hl _, exec_of_live hl _, fun p => ?_, fun r p hr => ?_⟩
  · exact (decode_reqPacket_eq_ok .pinConstruct).mpr rfl
  · exact requested_ne_of_not_hostVisible hr rfl s

/-- What a set call leaves, said by the levels of the pins. -/
theorem setPin_drives (p : Pin) (v : Level) (s : State) :
    setPin p v s = { s with pins := (setPin p v s).pins, trace := s.trace ++ [.pin p v] } ∧
      (setPin p v s).pins.get p = v ∧ ∀ q, q ≠ p → (setPin p v s).pins.get q = s.pins.get q :=
  ⟨rfl, Pins.get_set_same s.pins p v, fun q hq => Pins.get_set_other s.pins p q v hq⟩

theorem levels_singleton_pin (ps : Pins) (p : Pin) (v : Level) :
    levels ps [.pin p v] = if ps.get p = v then [] else [.pin p v] := rfl

/-- A set call decodes from the role of each of the three pins. -/
theorem pinOperand_role (f : Pin → Instr) (p : Pin) : pinOperand f [.pin p.role] = some (f p) :=
  pinOperand_eq_some.mpr ⟨p, rfl, rfl⟩

/-- Settles O2: the next state is that of `setPin` at the low level. -/
theorem pinSetLowDrivesTheLine : Obligations.PinSetLowDrivesTheLine := by
  intro s p hl
  refine ⟨⟨_, exec_of_live hl _, setPin_drives p .low s⟩, levels_singleton_pin _ _ _, ?_, fun i hi => ?_⟩
  · exact (decode_reqPacket_eq_ok .pinSetLow).mpr (pinOperand_role .pinSetLow p)
  · exact Option.some_ne_none i ((decode_reqPacket_eq_ok .pinSetLow).mp hi).symm

/-- Settles O3: the next state is that of `setPin` at the high level. -/
theorem pinSetHighDrivesTheLine : Obligations.PinSetHighDrivesTheLine := by
  intro s p hl
  refine ⟨⟨_, exec_of_live hl _, setPin_drives p .high s⟩, levels_singleton_pin _ _ _, ?_, fun i hi => ?_⟩
  · exact (decode_reqPacket_eq_ok .pinSetHigh).mpr (pinOperand_role .pinSetHigh p)
  · exact Option.some_ne_none i ((decode_reqPacket_eq_ok .pinSetHigh).mp hi).symm

theorem exec_delayMs {s : State} (hl : Live s) (n : Nat) : exec (.delayMs n) s = .next (delay n s) :=
  exec_of_live hl _

/-- Settles O10: a delay leaves the block live, so a second one is accepted and appends after the first. -/
theorem delayMsEmitsADelay : Obligations.DelayMsEmitsADelay := by
  refine ⟨fun _ => (decode_reqPacket_eq_ok .delayMs).mpr rfl, fun s m n hl => ⟨exec_delayMs hl n, ?_⟩⟩
  have hm : Live (delay m s) := hl
  rw [exec_delayMs hl, followedBy_of_live hm, exec_delayMs hm]
  simp [delay, emit]

end Sys2Proof.Machine
end

section
/-! The transport (40_pin_spi_delay.md R83 to R87). -/
namespace Sys2Proof.Machine

theorem constructSpi_of_claimed {s : State} (h : s.env.claimOk = true) :
    constructSpi s = .ok { s with cs := .deasserted } := by
  simp [constructSpi, h]

theorem constructSpi_of_unavailable {s : State} (h : s.env.claimOk = false) :
    constructSpi s = .raised (afterRaise .resourceUnavailable .transport s) := by
  simp [constructSpi, h]

/-- Settles O4: the claim decides between the two branches, and the operation is internal. -/
theorem spiConstructClaimsTheTransport : Obligations.SpiConstructClaimsTheTransport := by
  intro s spiCfg hl
  refine ⟨fun hc => ?_, fun hc => ?_, ?_, fun r hr => ?_⟩
  · rw [exec_of_live hl, bodyOf, constructSpi_of_claimed hc, Result.outcome_ok]
  · rw [exec_of_live hl, bodyOf, constructSpi_of_unavailable hc, Result.outcome_raised, afterRaise]
  · exact (decode_reqPacket_eq_ok .spiConstruct).mpr rfl
  · exact requested_ne_of_not_hostVisible hr rfl s

/-- Settles O5: chip-select's state decides between the edge and the fault of the model. -/
theorem spiBeginAssertsChipSelect : Obligations.SpiBeginAssertsChipSelect := by
  refine ⟨(decode_reqPacket_eq_ok .spiBegin).mpr rfl, fun s hl => ⟨fun hc => ?_, fun hc => ?_⟩⟩
  · rw [exec_of_live hl, bodyOf, csAssert_of_deasserted hc, Result.outcome_ok, emit]
  · rw [exec_of_live hl, bodyOf, csAssert_of_asserted hc, Result.outcome_broken]

/-- Settles O8: under its assert the operation is chip-select's other edge. -/
theorem spiEndDeassertsChipSelect : Obligations.SpiEndDeassertsChipSelect := by
  refine ⟨(decode_reqPacket_eq_ok .spiEnd).mpr rfl, fun s hl hc => ?_⟩
  rw [exec_of_live hl, bodyOf, csDeassert_of_asserted hc, Result.outcome_ok, emit]

/-- Of a transfer with a byte, the prefix on the wire is empty when no byte went out. -/
theorem take_eq_nil_iff_not_pos {bytes : List Byte} (h : 1 ≤ bytes.length) (j : Nat) :
    bytes.take j = [] ↔ ¬0 < j := by
  have hne : bytes ≠ [] := List.ne_nil_of_length_pos h
  simp [List.take_eq_nil_iff, hne]

/-- Settles O6: a legal transfer succeeds, or fails in `afterTransferFault`. -/
theorem spiXferTransfersOrFails : Obligations.SpiXferTransfersOrFails := by
  refine ⟨fun _ => (decode_reqPacket_eq_ok .spiXfer).mpr rfl,
    fun s bytes hl hc h1 h2 => ⟨fun hx => ?_, fun j hx _ => ?_⟩⟩
  · rw [exec_of_live hl, bodyOf, xfer_of_ok hc h1 h2 hx, Result.outcome_ok, emit]
  · refine ⟨Config.csAfterFault s.xferCount, s.xferCount + 1, ?_⟩
    rw [exec_of_live hl, bodyOf, xfer_of_fault hc h1 h2 hx, Result.outcome_raised]
    simp only [afterTransferFault, afterRaise, take_eq_nil_iff_not_pos h1, ite_not]

theorem exec_spiWrite_of_live {s : State} (hl : Live s) (bytes : List Byte) :
    exec (.spiWrite bytes) s = (((csAssert s).andThen (xfer bytes)).andThen csDeassert).outcome :=
  exec_of_live hl _

/-- SPI_WRITE is its three parts: each leaves an accepting block, or a halted one (40_pin_spi_delay.md R86). -/
theorem exec_spiWrite_eq_followedBy {s : State} (hl : Live s) (bytes : List Byte) :
    exec (.spiWrite bytes) s =
      followedBy (followedBy (exec .spiBegin s) (exec (.spiXfer bytes))) (exec .spiEnd) := by
  have begin_post : (csAssert s).Post Live fun m => m.phase = .halted :=
    Result.post_mono (framerRule_live.csAssert s) (fun _ hm => hm hl) fun _ hm => hm
  have xfer_post : ((csAssert s).andThen (xfer bytes)).Post Live fun m => m.phase = .halted :=
    Result.post_andThen begin_post fun m hm =>
      Result.post_mono (framerRule_live.xfer bytes m) (fun _ ht => ht hm) fun _ ht => ht
  calc exec (.spiWrite bytes) s
      = (((csAssert s).andThen (xfer bytes)).andThen csDeassert).outcome :=
        exec_spiWrite_of_live hl bytes
    _ = followedBy ((csAssert s).andThen (xfer bytes)).outcome (exec .spiEnd) :=
        outcome_andThen_of_post xfer_post csDeassert
    _ = followedBy (followedBy (csAssert s).outcome (exec (.spiXfer bytes))) (exec .spiEnd) := by
        rw [outcome_andThen_of_post begin_post]; rfl
    _ = _ := by rw [exec_of_live hl .spiBegin, bodyOf]

/-- SPI_WRITE when its transfer succeeds: the bracketed event, chip-select where it was. -/
theorem exec_spiWrite_of_ok {s : State} {bytes : List Byte} (hl : Live s) (hc : s.cs = .deasserted)
    (h1 : 1 ≤ bytes.length) (h2 : bytes.length ≤ s.cfg.bufSize) (hx : s.env.xferFault s.xferCount = none) :
    exec (.spiWrite bytes) s = .next { s with
      trace := s.trace ++ [.csAssert, .xfer s.pins.dc bytes, .csDeassert]
      xferCount := s.xferCount + 1 } := by
  rw [exec_spiWrite_of_live hl, csAssert_of_deasserted hc, Result.andThen_ok,
    xfer_of_ok (s := emit .csAssert { s with cs := .asserted }) rfl h1 h2 hx, Result.andThen_ok,
    csDeassert_of_asserted rfl, Result.outcome_ok]
  simp [emit, hc]

/-- Settles O7: the sequence by its parts, and its completion. -/
theorem spiWriteIsBeginXferEnd : Obligations.SpiWriteIsBeginXferEnd :=
  ⟨fun _ => (decode_reqPacket_eq_ok .spiWrite).mpr rfl,
    fun _ bytes hl => ⟨exec_spiWrite_eq_followedBy hl bytes, exec_spiWrite_of_ok hl⟩⟩

end Sys2Proof.Machine
end

section
/-! RESET_PULSE and INIT (42_controller_init.md R122, R123). -/
namespace Sys2Proof.Machine

/-- RESET_PULSE accepted in its own phase. -/
theorem exec_resetPulse_of_uninitialized {s : State} (hl : Live s) (hp : s.phase = .uninitialized) :
    exec .resetPulse s = .next (afterResetPulse s) := by
  rw [exec_of_live hl, bodyOf, resetPulse_ok hp, Result.outcome_ok]

/-- Settles O20: PHASE decides between the pulse and the raise, and the operation is internal. -/
theorem resetPulseDrivesTheResetLine : Obligations.ResetPulseDrivesTheResetLine := by
  refine ⟨(decode_reqPacket_eq_ok .resetPulse).mpr rfl, fun _ s hr => requested_ne_of_not_hostVisible hr rfl s,
    fun s hl => ⟨fun hp => ?_, fun hp => ?_⟩⟩
  · exact exec_resetPulse_of_uninitialized hl hp
  · rw [exec_of_live hl, bodyOf, resetPulse, requirePhase_of_ne hp, Result.outcome_raised]

/-- INIT from its own phase is its two parts: the pulse leaves the block accepting. -/
theorem exec_init_eq_followedBy {s : State} (hl : Live s) (hp : s.phase = .uninitialized) :
    exec .init s = followedBy (exec .resetPulse s) (exec .configure) := by
  have hm : Live (afterResetPulse s) := ⟨Phase.noConfusion, hl.2⟩
  calc exec .init s
      = ((resetPulse s).andThen configure).outcome := by
        rw [exec_of_live hl, bodyOf, initialise, requirePhase_of_eq hp]
    _ = exec .configure (afterResetPulse s) := by
        rw [resetPulse_ok hp, Result.andThen_ok, exec_of_live hm, bodyOf]
    _ = _ := by rw [exec_resetPulse_of_uninitialized hl hp, followedBy_of_live hm]

theorem afterConfigure_trace (s : State) : (afterConfigure s).trace = s.trace ++ tableEvents s.cfg := by
  obtain ⟨-, -, -, -, -, -, -, htrace⟩ := afterEntries_keeps s.cfg.initTable 0 s
  exact htrace

/-- The events of INIT are those of its two parts (42_controller_init.md R132). -/
theorem afterConfigure_afterResetPulse_trace (s : State) :
    (afterConfigure (afterResetPulse s)).trace = s.trace ++ initEvents s.cfg := by
  simp [afterConfigure_trace, initEvents]

/-- Settles O23: the sequence by its parts, the raise of its check, and its completion. -/
theorem initRunsTheStateMachine : Obligations.InitRunsTheStateMachine := by
  refine ⟨(decode_reqPacket_eq_ok .init).mpr rfl,
    fun s hl => ⟨exec_init_eq_followedBy hl, fun hp => ?_, fun hp hr hx => ?_⟩⟩
  · rw [exec_of_live hl, bodyOf, initialise, requirePhase_of_ne hp, Result.outcome_raised]
  · refine ⟨afterConfigure (afterResetPulse s), ?_, rfl, rfl, afterConfigure_afterResetPulse_trace s⟩
    rw [exec_of_live hl, bodyOf, initialise_ok hp hr hx, Result.outcome_ok]

end Sys2Proof.Machine
end

section
/-! BOOT: its checks in order, and what each raises (42_controller_init.md R120). -/
namespace Sys2Proof.Machine

theorem boot_of_phase_ne {s : State} (hp : s.phase ≠ .powerOn) (cfg : Cfg) :
    boot cfg s = .raised (afterRaise .illegalState (.operation .boot) s) := by
  rw [boot, requirePhase_of_ne hp]

theorem boot_of_failingClause {cfg : Cfg} {s : State} {n : Nat} (hp : s.phase = .powerOn)
    (hn : firstFailingClause cfg = some n) :
    boot cfg s = .raised (afterRaise .invalidConfiguration (.clause n) s) := by
  rw [boot, requirePhase_of_eq hp]
  simp [requireValid, hn]

/-- A claim that fails: the pins are constructed already, the configuration is not written. -/
theorem boot_of_unavailable {cfg : Cfg} {s : State} (hp : s.phase = .powerOn) (hv : firstFailingClause cfg = none)
    (hc : s.env.claimOk = false) : boot cfg s = .raised
      (afterRaise .resourceUnavailable .transport { s with pins := ⟨cfg.rstInit, cfg.dcInit, cfg.blInit⟩ }) := by
  rw [boot, requirePhase_of_eq hp]
  simp [requireValid, hv, constructPins_eq, constructSpi_of_unavailable, hc]

/-- BOOT from its own phase, by the first clause of valid(cfg) that fails and then by the claim. -/
theorem outcome_boot_of_powerOn {s : State} (hp : s.phase = .powerOn) (cfg : Cfg) :
    (boot cfg s).outcome = .next ((firstFailingClause cfg).elim
      (if s.env.claimOk = false then
        afterRaise .resourceUnavailable .transport { s with pins := ⟨cfg.rstInit, cfg.dcInit, cfg.blInit⟩ }
      else afterBoot cfg s)
      fun n => afterRaise .invalidConfiguration (.clause n) s) := by
  cases hv : firstFailingClause cfg with
  | some n => rw [boot_of_failingClause hp hv, Result.outcome_raised, Option.elim_some]
  | none =>
    cases hc : s.env.claimOk with
    | false => rw [boot_of_unavailable hp hv hc, Result.outcome_raised, Option.elim_none, if_pos rfl]
    | true => rw [boot_ok hp hv hc, Result.outcome_ok, Option.elim_none, if_neg nofun]

/-- Settles O18: after the check of PHASE, the first failing clause and the claim pick the branch. -/
theorem bootOutcome : Obligations.BootOutcome := by
  refine ⟨fun _ => (decode_reqPacket_eq_ok .boot).mpr rfl, fun s cfg hl => ?_⟩
  rw [exec_of_live hl, bodyOf]
  by_cases hp : s.phase = .powerOn
  · rw [outcome_boot_of_powerOn hp, firstFailingClause, if_neg (not_not.mpr hp)]
    split_ifs <;> rfl
  · rw [boot_of_phase_ne hp, Result.outcome_raised, if_pos hp]

end Sys2Proof.Machine
end

section
/-! Which init tables are well-formed (42_controller_init.md R125). -/
namespace Sys2Proof.Machine

/-- What stands before the rest is the leading PWRCTL entries. -/
theorem exists_replicate_append_afterPwrctl (ks : List EntryKind) :
    ∃ n, ks = List.replicate n .pwrctl ++ afterPwrctl ks := by
  induction ks with
  | nil => exact ⟨0, rfl⟩
  | cons k ks ih =>
    cases k with
    | pwrctl =>
      obtain ⟨n, hn⟩ := ih
      exact ⟨n + 1, congrArg (EntryKind.pwrctl :: ·) hn⟩
    | pixfmt | madctl | slpout | dispon => exact ⟨0, rfl⟩

theorem afterPwrctl_replicate_append (n : Nat) (ks : List EntryKind) :
    afterPwrctl (List.replicate n .pwrctl ++ ks) = afterPwrctl ks := by
  induction n with
  | zero => rfl
  | succ n ih => exact ih

/-- The pattern PWRCTL+ PIXFMT MADCTL SLPOUT DISPON, with the number of its PWRCTL. -/
theorem kindsOk_iff (ks : List EntryKind) : kindsOk ks = true ↔
    ∃ n, ks = List.replicate (n + 1) .pwrctl ++ [.pixfmt, .madctl, .slpout, .dispon] := by
  constructor
  · intro h
    cases ks with
    | nil => cases h
    | cons k ks =>
      cases k with
      | pwrctl =>
        obtain ⟨n, hn⟩ := exists_replicate_append_afterPwrctl ks
        rw [of_decide_eq_true h] at hn
        exact ⟨n, congrArg (EntryKind.pwrctl :: ·) hn⟩
      | pixfmt | madctl | slpout | dispon => cases h
  · rintro ⟨n, rfl⟩
    exact decide_eq_true (afterPwrctl_replicate_append n _)

/-- The entries of a table in the order R125 asks for, by their kinds. -/
def EntriesInOrder (power : List InitEntry) (pixfmt madctl slpout dispon : InitEntry) : Prop :=
  power ≠ [] ∧ (∀ e ∈ power, e.kind = .pwrctl) ∧
  pixfmt.kind = .pixfmt ∧ madctl.kind = .madctl ∧ slpout.kind = .slpout ∧ dispon.kind = .dispon

/-- The kinds of a table match the pattern exactly when its entries stand in order. -/
theorem kindsOk_map_kind_iff (es : List InitEntry) : kindsOk (es.map (·.kind)) = true ↔
    ∃ power pixfmt madctl slpout dispon,
      es = power ++ [pixfmt, madctl, slpout, dispon] ∧ EntriesInOrder power pixfmt madctl slpout dispon := by
  rw [kindsOk_iff]
  constructor
  · rintro ⟨n, h⟩
    obtain ⟨power, rest, rfl, hpower, hrest⟩ := List.map_eq_append_iff.mp h
    obtain ⟨hlen, hkind⟩ := List.eq_replicate_iff.mp hpower
    simp only [List.map_eq_cons_iff, List.map_eq_nil_iff] at hrest
    obtain ⟨pixfmt, _, rfl, hp, madctl, _, rfl, hm, slpout, _, rfl, hs, dispon, _, rfl, hd, rfl⟩ := hrest
    refine ⟨power, pixfmt, madctl, slpout, dispon, rfl, ?_, List.forall_mem_map.mp hkind, hp, hm, hs, hd⟩
    rintro rfl
    cases hlen
  · rintro ⟨power, pixfmt, madctl, slpout, dispon, rfl, hne, hkind, hp, hm, hs, hd⟩
    obtain ⟨e, es, rfl⟩ := List.exists_cons_of_ne_nil hne
    have hpower := List.eq_replicate_of_mem (List.forall_mem_map.mpr hkind)
    exact ⟨es.length, by rw [List.map_append, hpower]; simp [hp, hm, hs, hd]⟩

/-- What R125 asks of the parameters, for entries in order. -/
theorem EntriesInOrder.all_entryParamsOk_iff {power : List InitEntry} {pixfmt madctl slpout dispon : InitEntry}
    (h : EntriesInOrder power pixfmt madctl slpout dispon) (cfg : Cfg) :
    (power ++ [pixfmt, madctl, slpout, dispon]).all (entryParamsOk cfg) = true ↔
      madctl.params = [madctlByte cfg] ∧ slpout.params = [] ∧ dispon.params = [] := by
  obtain ⟨-, hkind, hp, hm, hs, hd⟩ := h
  have power_ok : power.all (entryParamsOk cfg) = true :=
    List.all_eq_true.mpr fun e he => by rw [entryParamsOk, hkind e he]
  rw [List.all_append, power_ok]
  simp [entryParamsOk, hp, hm, hs, hd]

/-- A table is well-formed exactly when its entries stand in order with the parameters of their kinds. -/
theorem tableOk_iff (cfg : Cfg) : tableOk cfg = true ↔
    ∃ power pixfmt madctl slpout dispon,
      cfg.initTable = power ++ [pixfmt, madctl, slpout, dispon] ∧ EntriesInOrder power pixfmt madctl slpout dispon ∧
      madctl.params = [madctlByte cfg] ∧ slpout.params = [] ∧ dispon.params = [] := by
  rw [tableOk, Bool.and_eq_true, kindsOk_map_kind_iff]
  constructor
  · rintro ⟨⟨power, pixfmt, madctl, slpout, dispon, htable, horder⟩, hparams⟩
    rw [htable, horder.all_entryParamsOk_iff] at hparams
    exact ⟨power, pixfmt, madctl, slpout, dispon, htable, horder, hparams⟩
  · rintro ⟨power, pixfmt, madctl, slpout, dispon, htable, horder, hparams⟩
    refine ⟨⟨power, pixfmt, madctl, slpout, dispon, htable, horder⟩, ?_⟩
    rwa [htable, horder.all_entryParamsOk_iff]

/-- A table that is not well-formed fails valid(cfg), at its clause 3 or before it. -/
theorem firstFailingClause_of_not_tableOk {cfg : Cfg} (h : tableOk cfg = false) :
    ∃ n, n ≤ 3 ∧ firstFailingClause cfg = some n := by
  unfold firstFailingClause
  split_ifs
  · exact ⟨3, by decide, rfl⟩
  · exact ⟨2, by decide, rfl⟩
  · exact ⟨1, by decide, rfl⟩

/-- Settles O19: the shape of a well-formed table, and the clause BOOT raises with any other. -/
theorem wellFormedTables : Obligations.WellFormedTables := by
  refine ⟨fun cfg => ?_, fun s cfg hl hp ht => ?_⟩
  · simp only [tableOk_iff, EntriesInOrder, and_assoc]
  · obtain ⟨n, hn, hclause⟩ := firstFailingClause_of_not_tableOk ht
    exact ⟨n, hn, by rw [exec_of_live hl, bodyOf, boot_of_failingClause hp hclause, Result.outcome_raised]⟩

end Sys2Proof.Machine
end

section
/-! What the framer leaves of the control state, and what SET_WINDOW, WRITE_PIXELS and SET_PIXELS leave of it once their
checks have passed (43_window_pixels.md R140, R142, R144). -/
namespace Sys2Proof.Machine

/-- The block's control state is the same: PHASE, the idle flag, FAULT, and the window with its flag. -/
structure SameControl (s t : State) : Prop where
  phase : t.phase = s.phase
  idling : t.idling = s.idling
  fault : t.fault = s.fault
  win : t.win = s.win
  winValid : t.winValid = s.winValid

/-- A transfer failed: the block halted with a TransferError, the window and its flag are the same. -/
structure TransferRaised (s t : State) : Prop where
  phase : t.phase = .halted
  fault : ∃ k, t.fault = some (s.fault.getD ⟨.transferError, .transfer k⟩)
  win : t.win = s.win
  winValid : t.winValid = s.winValid

theorem SameControl.live {s t : State} (h : SameControl s t) (hs : Live s) : Live t :=
  ⟨h.phase.trans_ne hs.1, h.idling.trans hs.2⟩

theorem SameControl.set_winValid {s t : State} (h : SameControl s t) (v : Bool) :
    SameControl { s with winValid := v } { t with winValid := v } :=
  ⟨h.phase, h.idling, h.fault, h.win, rfl⟩

/-- The framer writes none of the control state, but for the raise of a TransferError (60_exceptions.md R168). -/
theorem framerRule_control : FramerRule SameControl TransferRaised where
  refl _ := ⟨rfl, rfl, rfl, rfl, rfl⟩
  trans h g := ⟨g.phase.trans h.phase, g.idling.trans h.idling, g.fault.trans h.fault, g.win.trans h.win,
    g.winValid.trans h.winValid⟩
  fail h g := ⟨g.phase, h.fault ▸ g.fault, g.win.trans h.win, g.winValid.trans h.winValid⟩
  dc _ _ := ⟨rfl, rfl, rfl, rfl, rfl⟩
  begins _ _ := ⟨rfl, rfl, rfl, rfl, rfl⟩
  ends _ _ := ⟨rfl, rfl, rfl, rfl, rfl⟩
  store _ _ _ := ⟨rfl, rfl, rfl, rfl, rfl⟩
  drain _ := ⟨rfl, rfl, rfl, rfl, rfl⟩
  moves _ _ _ _ _ _ := ⟨rfl, rfl, rfl, rfl, rfl⟩
  faults s _ _ _ _ _ _ := ⟨rfl, ⟨s.xferCount, rfl⟩, rfl, rfl⟩

/-- SET_WINDOW past its checks: the rectangle is in WIN, valid on completion and not after a TransferError. -/
theorem setWindow_post {w : Window} {s : State} (hp : s.phase = .ready) (hb : inBounds s.cfg w = true) :
    (setWindow w s).Post (SameControl { s with win := w, winValid := true })
      (TransferRaised { s with win := w, winValid := false }) := by
  rw [setWindow, requirePhase_of_eq hp, requireInBounds_of_in hb]
  exact Result.post_andThen (framerRule_control.sendCommands _ _) fun _ hm => hm.set_winValid true

/-- WRITE_PIXELS past its checks: WIN_VALID is cleared, on completion and after a TransferError. -/
theorem writePixels_post {px : List U16} {s : State} (hp : s.phase = .ready) (hw : s.winValid = true)
    (hn : px.length = pixelCount s.win) :
    (writePixels px s).Post (SameControl { s with winValid := false })
      (TransferRaised { s with winValid := false }) := by
  rw [writePixels, requirePhase_of_eq hp, requireWindow_of_valid hw, requireCount_of_eq hn]
  exact framerRule_control.seq (framerRule_control.sendCommand _ _ _) fun m _ => framerRule_control.sendPixels px m

/-- SET_PIXELS past its checks is SET_WINDOW, then WRITE_PIXELS. -/
theorem setPixels_eq_andThen {w : Window} {px : List U16} {s : State} (hp : s.phase = .ready)
    (hb : inBounds s.cfg w = true) (hn : px.length = pixelCount w) :
    setPixels w px s = (setWindow w s).andThen (writePixels px) := by
  rw [setPixels, requirePhase_of_eq hp, requireInBounds_of_in hb, requireCount_of_eq hn]

/-- SET_PIXELS past its checks: those of WRITE_PIXELS hold of what SET_WINDOW leaves, so only a transfer can fail. -/
theorem setPixels_post {w : Window} {px : List U16} {s : State} (hp : s.phase = .ready)
    (hb : inBounds s.cfg w = true) (hn : px.length = pixelCount w) :
    (setPixels w px s).Post (SameControl { s with win := w, winValid := false })
      (TransferRaised { s with win := w, winValid := false }) := by
  rw [setPixels_eq_andThen hp hb hn]
  refine Result.post_andThen (setWindow_post hp hb) fun m hm => ?_
  have hcount : px.length = pixelCount m.win := by rw [hm.win]; exact hn
  have hsame := hm.set_winValid false
  exact Result.post_mono (writePixels_post (hm.phase.trans hp) hm.winValid hcount)
    (fun _ => framerRule_control.trans hsame) fun _ => framerRule_control.fail hsame

theorem afterWritePixels_trace (px : List U16) (s : State) :
    (afterWritePixels px s).trace = s.trace ++ writeEvents s.cfg px :=
  List.append_assoc _ _ _

/-- What SET_PIXELS leaves when its transfers succeed (43_window_pixels.md R144). -/
theorem afterSetPixels_keeps (w : Window) (px : List U16) (s : State) :
    (afterSetPixels w px s).phase = s.phase ∧ (afterSetPixels w px s).win = w ∧
      (afterSetPixels w px s).winValid = false ∧
      (afterSetPixels w px s).trace = s.trace ++ windowEvents s.cfg w ++ writeEvents s.cfg px := by
  obtain ⟨hcfg, -, hphase, hwin, -, htrace⟩ := afterSetWindow_keeps w s
  exact ⟨hphase, hwin, rfl, by rw [afterSetPixels, afterWritePixels_trace, htrace, hcfg]⟩

end Sys2Proof.Machine
end

section
/-! SET_WINDOW, WRITE_PIXELS, SET_PIXELS and FILL_RECT: their checks in order, and what each does past them
(43_window_pixels.md R140 to R147). -/
namespace Sys2Proof.Machine

/-- The bounds predicate as R141 writes it, on the coordinates as unsigned words. -/
theorem inBounds_iff (cfg : Cfg) (w : Window) : inBounds cfg w = true ↔
    w.x0 ≤ w.x1 ∧ w.x1 < cfg.width ∧ w.y0 ≤ w.y1 ∧ w.y1 < cfg.height :=
  decide_eq_true_iff

/-- Settles O27: past the two checks the framer alone runs, and it leaves the window as SET_WINDOW wrote it. -/
theorem setWindowOutcome : Obligations.SetWindowOutcome := by
  refine ⟨fun _ _ _ _ => (decode_reqPacket_eq_ok .setWindow).mpr rfl,
    fun s x0 y0 x1 y1 hl => ⟨fun hp => ?_, fun hp hout => ?_, fun hp hin => ?_⟩⟩
  · rw [exec_of_live hl, bodyOf, setWindow, requirePhase_of_ne hp, Result.outcome_raised]
  · have hb : inBounds s.cfg ⟨x0, y0, x1, y1⟩ = false := Bool.eq_false_iff.mpr (mt (inBounds_iff _ _).mp hout)
    rw [exec_of_live hl, bodyOf, setWindow, requirePhase_of_eq hp, requireInBounds_of_out hb, Result.outcome_raised]
  · have hb : inBounds s.cfg ⟨x0, y0, x1, y1⟩ = true := (inBounds_iff _ _).mpr hin
    refine ⟨fun hr hx => ?_, fun t ht hhalted => ?_⟩
    · obtain ⟨-, -, hphase, hwin, hvalid, htrace⟩ := afterSetWindow_keeps ⟨x0, y0, x1, y1⟩ s
      refine ⟨_, ?_, rfl, hwin, hvalid, hphase.trans hp, htrace⟩
      rw [exec_of_live hl, bodyOf, setWindow_ok hp hb hr hx, Result.outcome_ok]
    · rcases exec_post ht (setWindow_post hp hb) with hok | hraised
      · exact absurd hhalted (hok.live hl).1
      · exact ⟨hraised.win, hraised.winValid⟩

/-- Settles O28: past the three checks WIN_VALID is cleared, and the framer leaves it so. -/
theorem writePixelsOutcome : Obligations.WritePixelsOutcome := by
  refine ⟨fun _ => (decode_reqPacket_eq_ok .writePixels).mpr rfl,
    fun s pixels hl => ⟨fun hp => ?_, fun hp hw => ?_, fun hp hw hn => ?_, fun hp hw hn => ⟨fun hr he hx => ?_,
      fun t ht => ?_⟩⟩⟩
  · rw [exec_of_live hl, bodyOf, writePixels, requirePhase_of_ne hp, Result.outcome_raised]
  · rw [exec_of_live hl, bodyOf, writePixels, requirePhase_of_eq hp, requireWindow_of_not hw, Result.outcome_raised]
  · rw [exec_of_live hl, bodyOf, writePixels, requirePhase_of_eq hp, requireWindow_of_valid hw,
      requireCount_of_ne hn, Result.outcome_raised]
  · refine ⟨?_, rfl⟩
    rw [exec_of_live hl, bodyOf, writePixels_ok hp hw hn hr he hx, Result.outcome_ok]
  · rcases exec_post ht (writePixels_post hp hw hn) with hok | hraised
    · exact hok.winValid
    · exact hraised.winValid

/-- SET_PIXELS past its checks is its two parts: SET_WINDOW leaves an accepting block, or a halted one. -/
theorem exec_setPixels_eq_followedBy {s : State} {x0 y0 x1 y1 : U16} {pixels : List U16} (hl : Live s)
    (hp : s.phase = .ready) (hb : inBounds s.cfg ⟨x0, y0, x1, y1⟩ = true)
    (hn : pixels.length = pixelCount ⟨x0, y0, x1, y1⟩) : exec (.setPixels x0 y0 x1 y1 pixels) s =
      followedBy (exec (.setWindow x0 y0 x1 y1) s) (exec (.writePixels pixels)) := by
  have window_post : (setWindow ⟨x0, y0, x1, y1⟩ s).Post Live fun m => m.phase = .halted :=
    Result.post_mono (setWindow_post hp hb) (fun _ hm => hm.live hl) fun _ hm => hm.phase
  calc exec (.setPixels x0 y0 x1 y1 pixels) s
      = ((setWindow ⟨x0, y0, x1, y1⟩ s).andThen (writePixels pixels)).outcome := by
        rw [exec_of_live hl, bodyOf, setPixels_eq_andThen hp hb hn]
    _ = followedBy (setWindow ⟨x0, y0, x1, y1⟩ s).outcome (exec (.writePixels pixels)) :=
        outcome_andThen_of_post window_post _
    _ = _ := by rw [exec_of_live hl (.setWindow x0 y0 x1 y1), bodyOf]

/-- SET_PIXELS accepted, its checks passed, with every transfer succeeding (43_window_pixels.md R144). -/
theorem exec_setPixels_of_ok {s : State} {x0 y0 x1 y1 : U16} {pixels : List U16} (hl : Live s)
    (hp : s.phase = .ready) (hb : inBounds s.cfg ⟨x0, y0, x1, y1⟩ = true)
    (hn : pixels.length = pixelCount ⟨x0, y0, x1, y1⟩) (hr : FramerReady s) (he : s.cfg.bufSize % 2 = 0)
    (hx : AllTransfersOk s) :
    exec (.setPixels x0 y0 x1 y1 pixels) s = .next (afterSetPixels ⟨x0, y0, x1, y1⟩ pixels s) := by
  rw [exec_of_live hl, bodyOf, setPixels_ok hp hb hn hr he hx, Result.outcome_ok]

/-- Settles O29: the raises of its checks, the sequence by its parts, and its completion. -/
theorem setPixelsOutcome : Obligations.SetPixelsOutcome := by
  refine ⟨fun _ _ _ _ _ => (decode_reqPacket_eq_ok .setPixels).mpr rfl,
    fun s x0 y0 x1 y1 pixels hl => ⟨fun hp => ?_, fun hp hb => ?_, fun hp hb hn => ?_, fun hp hb hn =>
      ⟨exec_setPixels_eq_followedBy hl hp hb hn, fun hr he hx => ?_⟩⟩⟩
  · rw [exec_of_live hl, bodyOf, setPixels, requirePhase_of_ne hp, Result.outcome_raised]
  · rw [exec_of_live hl, bodyOf, setPixels, requirePhase_of_eq hp, requireInBounds_of_out hb, Result.outcome_raised]
  · rw [exec_of_live hl, bodyOf, setPixels, requirePhase_of_eq hp, requireInBounds_of_in hb, requireCount_of_ne hn,
      Result.outcome_raised]
  · obtain ⟨-, hafter⟩ := afterSetPixels_keeps ⟨x0, y0, x1, y1⟩ pixels s
    exact ⟨_, exec_setPixels_of_ok hl hp hb hn hr he hx, hafter⟩

/-- FILL_RECT past its checks is SET_PIXELS of the rectangle's count of the colour. -/
theorem exec_fillRect_eq_setPixels {s : State} {x0 y0 x1 y1 : U16} (hl : Live s) (hp : s.phase = .ready)
    (hb : inBounds s.cfg ⟨x0, y0, x1, y1⟩ = true) (color : U16) : exec (.fillRect x0 y0 x1 y1 color) s =
      exec (.setPixels x0 y0 x1 y1 (List.replicate (pixelCount ⟨x0, y0, x1, y1⟩) color)) s := by
  rw [exec_of_live hl, exec_of_live hl, bodyOf, bodyOf, fillRect, requirePhase_of_eq hp, requireInBounds_of_in hb]

/-- Settles O30: the replicated colour has the rectangle's count, so of SET_PIXELS only a transfer can fail. -/
theorem fillRectOutcome : Obligations.FillRectOutcome := by
  refine ⟨fun _ _ _ _ _ => (decode_reqPacket_eq_ok .fillRect).mpr rfl,
    fun s x0 y0 x1 y1 color hl => ⟨fun hp => ?_, fun hp hb => ?_, fun hp hb => ?_⟩⟩
  · rw [exec_of_live hl, bodyOf, fillRect, requirePhase_of_ne hp, Result.outcome_raised]
  · rw [exec_of_live hl, bodyOf, fillRect, requirePhase_of_eq hp, requireInBounds_of_out hb, Result.outcome_raised]
  · have hn := List.length_replicate (n := pixelCount ⟨x0, y0, x1, y1⟩) (a := color)
    rw [exec_fillRect_eq_setPixels hl hp hb]
    refine ⟨rfl, fun t given count hs ht => ?_, fun hr he hx => ?_⟩
    · rcases exec_post ht (setPixels_post hp hb hn) with hok | hraised
      · simp [hok.fault, hs]
      · obtain ⟨k, hk⟩ := hraised.fault
        simp [hk, hs]
    · obtain ⟨hphase, hafter⟩ := afterSetPixels_keeps ⟨x0, y0, x1, y1⟩ (List.replicate _ color) s
      exact ⟨_, exec_setPixels_of_ok hl hp hb hn hr he hx, hphase.trans hp, hafter⟩

end Sys2Proof.Machine
end

section
/-! HALT, and the halted block (43_window_pixels.md R152). -/
namespace Sys2Proof.Machine

theorem step_of_halted_of_no_request {s : State} (hp : s.phase = .halted) (hs : s.requests = []) :
    step s = .next s := by
  simp [step, hs, quiet, hp]

/-- A halted block refuses the request that waits, whatever it is. -/
theorem step_refused_of_halted {s : State} {r : Request} {rest : List Request} (hp : s.phase = .halted)
    (hs : s.requests = r :: rest) : ∃ why, step s = .refused why := by
  cases hr : requested r s with
  | error why => exact ⟨why, by simp [step, hs, hr]⟩
  | ok i =>
    have hi := exec_of_halted (s := { s with requests := rest }) hp i
    exact ⟨.halted, by simp [step, hs, hr, hi]⟩

/-- Settles O37: HALT writes PHASE; a halted block steps only without a request, and then to itself. -/
theorem haltedForEver : Obligations.HaltedForEver := by
  refine ⟨(decode_reqPacket_eq_ok .halt).mpr rfl, fun r s hr => requested_ne_of_not_hostVisible hr rfl s,
    fun s => ⟨fun hl => exec_of_live hl _, fun hp => ⟨exec_of_halted hp, step_of_halted_of_no_request hp,
      fun t ht => ?_⟩⟩⟩
  cases hs : s.requests with
  | nil =>
    rw [step_of_halted_of_no_request hp hs] at ht
    cases ht
    rfl
  | cons r rest =>
    obtain ⟨why, hwhy⟩ := step_refused_of_halted hp hs
    rw [hwhy] at ht
    cases ht

end Sys2Proof.Machine
end

section
/-! Decoding and encoding are inverse to each other (30_encoding.md R60, R66, R70, R71). -/
namespace Sys2Proof.Machine

/-- A panel command's packet is the instruction its row reads from the operands. -/
theorem decode_cmdPacket_eq_ok (k : CmdKind) {op : Byte} {os : List Operand} {i : Instr} :
    decode (cmdPacket k op os) = .ok i ↔ cmdInstr k op os = some i := by
  simp [decode, cmdPacket, named_eq_ok]

/-- Settles O53: each head leads to its row, and the row reads back the operands the encoder wrote. -/
theorem decodeAfterEncode : Obligations.DecodeAfterEncode := by
  intro i
  cases i with
  | boot | init | setWindow | writePixels | setPixels | fillRect | idle | pinConstruct | spiConstruct | spiWrite
  | delayMs | spiBegin | spiXfer | spiEnd | sendCommand | sendPixels | resetPulse | configure | halt =>
    exact (decode_reqPacket_eq_ok _).mpr rfl
  | pinSetLow p => exact (decode_reqPacket_eq_ok .pinSetLow).mpr (pinOperand_role .pinSetLow p)
  | pinSetHigh p => exact (decode_reqPacket_eq_ok .pinSetHigh).mpr (pinOperand_role .pinSetHigh p)
  | fillScreen | main => rfl
  | pwrctl | pixfmt | madctl | slpout | dispon | colset | rowset | memwr =>
    exact (decode_cmdPacket_eq_ok _).mpr rfl
  | symCommand b => simp [encode, decode_sym]
  | symData b => simp [encode, decode_sym]

theorem encode_of_reqInstr {r : ReqOp} {os : List Operand} {i : Instr} (h : reqInstr r os = some i) :
    encode i = reqPacket r os := by
  cases r with
  | boot =>
    obtain ⟨_, rfl, rfl⟩ := cfgOperand_eq_some.mp h
    rfl
  | init | idle | spiBegin | spiEnd | resetPulse | configure | halt =>
    obtain ⟨rfl, rfl⟩ := noOperands_eq_some.mp h
    rfl
  | setWindow =>
    obtain ⟨_, _, _, _, _, rfl, h⟩ := rectOperands_eq_some.mp h
    obtain ⟨rfl, rfl⟩ := noOperands_eq_some.mp h
    rfl
  | setPixels =>
    obtain ⟨_, _, _, _, _, rfl, h⟩ := rectOperands_eq_some.mp h
    obtain ⟨_, rfl, rfl⟩ := pixelOperand_eq_some.mp h
    rfl
  | fillRect =>
    obtain ⟨_, _, _, _, _, rfl, h⟩ := rectOperands_eq_some.mp h
    obtain ⟨_, rfl, rfl⟩ := u16Operand_eq_some.mp h
    rfl
  | writePixels | sendPixels =>
    obtain ⟨_, rfl, rfl⟩ := pixelOperand_eq_some.mp h
    rfl
  | spiConstruct | delayMs =>
    obtain ⟨_, rfl, rfl⟩ := natOperand_eq_some.mp h
    rfl
  | spiWrite | spiXfer =>
    obtain ⟨_, rfl, rfl⟩ := byteOperand_eq_some.mp h
    rfl
  | pinSetLow | pinSetHigh =>
    obtain ⟨_, rfl, rfl⟩ := pinOperand_eq_some.mp h
    rfl
  | pinConstruct | sendCommand =>
    simp only [reqInstr] at h
    split at h
    · cases h; rfl
    · cases h

theorem encode_of_cmdInstr {k : CmdKind} {op : Byte} {os : List Operand} {i : Instr} (h : cmdInstr k op os = some i) :
    encode i = cmdPacket k op os := by
  cases k with
  | pwrctl | pixfmt =>
    obtain ⟨_, _, _, rfl, rfl⟩ := entryOperands_eq_some.mp h
    rfl
  | madctl | slpout | dispon =>
    obtain ⟨_, _, rfl, rfl⟩ := shortEntryOperands_eq_some.mp h
    rfl
  | colset | rowset =>
    obtain ⟨_, rfl, rfl⟩ := byteOperand_eq_some.mp h
    rfl
  | memwr =>
    obtain ⟨rfl, rfl⟩ := noOperands_eq_some.mp h
    rfl

/-- A word whose bit 8 is clear is the command symbol of its byte. -/
theorem commandSymbol_symbolByte {w : BitVec 9} (h : symbolIsData w = false) : commandSymbol (symbolByte w) = w := by
  simpa [h] using symbol_of_halves w

/-- A word whose bit 8 is set is the data symbol of its byte. -/
theorem dataSymbol_symbolByte {w : BitVec 9} (h : symbolIsData w = true) : dataSymbol (symbolByte w) = w := by
  simpa [h] using symbol_of_halves w

/-- Settles O54: by the packet's head, whose code or word the instruction determines. -/
theorem encodeAfterDecode : Obligations.EncodeAfterDecode := by
  rintro ⟨head, os⟩ i h
  cases head with
  | req op =>
    obtain ⟨r, rfl, hr⟩ := decode_req_eq_ok rfl h
    exact encode_of_reqInstr hr
  | cmd k w =>
    cases hw : symbolIsData w <;> simp only [decode, hw, named_eq_ok, reduceIte, reduceCtorEq, Bool.false_eq_true] at h
    rw [encode_of_cmdInstr h, cmdPacket, commandSymbol_symbolByte hw]
  | sym w =>
    cases hw : symbolIsData w <;>
      simp only [decode, hw, named_eq_ok, noOperands_eq_some, reduceIte, Bool.false_eq_true] at h <;>
      obtain ⟨rfl, rfl⟩ := h
    · rw [encode, commandSymbol_symbolByte hw]
    · rw [encode, dataSymbol_symbolByte hw]
  | fillScreen =>
    obtain ⟨_, rfl, rfl⟩ := u16Operand_eq_some.mp (named_eq_ok.mp h)
    rfl
  | main =>
    obtain ⟨_, rfl, rfl⟩ := cfgOperand_eq_some.mp (named_eq_ok.mp h)
    rfl

/-- Settles O55: each packet written out is the encoding of its instruction. -/
theorem wordsDecodeAsTheSpecWrites : Obligations.WordsDecodeAsTheSpecWrites :=
  ⟨decodeAfterEncode (.setWindow 0 0 319 239), decodeAfterEncode (.setPixels 0 0 1 0 [0xF800, 0x07E0]),
    decodeAfterEncode (.pinSetHigh .bl), decodeAfterEncode (.delayMs 20),
    decodeAfterEncode (.sendCommand 0x2A [0x00, 0x00, 0x01, 0x3F]), decodeAfterEncode (.symData 0x1F),
    decodeAfterEncode (.slpout 4 0x11 120)⟩

end Sys2Proof.Machine
end

section
/-! Rules of the whole machine that every primitive of the block keeps: the buffer's canonical form, and the first
fault (10_state.md R15, R19, 60_exceptions.md R168). -/
namespace Sys2Proof.Machine

/-- Only a store writes the buffer, and a store keeps its canonical form. -/
theorem bodyRule_canonical :
    BodyRule (fun s t => s.buf.wf → t.buf.wf) (fun s t => s.buf.wf → t.buf.wf) where
  refl _ := id
  trans h g := g ∘ h
  fail h g := g ∘ h
  dc _ _ := id
  begins _ _ := id
  ends _ _ := id
  store s b _ := Memory.wf_write s.buf s.bufLen b
  drain _ := id
  moves _ _ _ _ _ _ := id
  faults _ _ _ _ _ _ _ := id
  check _ _ _ _ := id
  pin _ _ _ := id
  waits _ _ := id
  phase _ _ := id
  index _ _ := id
  window _ _ _ := id
  idles _ := id
  builds _ p _ := by cases p <;> exact id
  claims _ := id
  configures _ _ := id

/-- Settles O46: of the block's primitives a store alone writes the buffer. -/
theorem bufferStaysCanonical : Obligations.BufferStaysCanonical := by
  intro i s t hs ht
  rcases bodyRule_canonical.exec ht with h | h <;> exact h hs

/-- A raise: the block is halted, and a fault that stands is kept. -/
structure RaisedOnce (s t : State) : Prop where
  phase : t.phase = .halted
  fault : ∃ d, t.fault = some (s.fault.getD d)

/-- FAULT is written by a raise alone, which keeps the first. -/
theorem bodyRule_fault : BodyRule (fun s t => t.fault = s.fault) RaisedOnce where
  refl _ := rfl
  trans h g := g.trans h
  fail h g := ⟨g.phase, h ▸ g.fault⟩
  dc _ _ := rfl
  begins _ _ := rfl
  ends _ _ := rfl
  store _ _ _ := rfl
  drain _ := rfl
  moves _ _ _ _ _ _ := rfl
  faults _ _ _ _ _ _ _ := ⟨rfl, _, rfl⟩
  check _ _ _ _ := ⟨rfl, _, rfl⟩
  pin _ _ _ := rfl
  waits _ _ := rfl
  phase _ _ := rfl
  index _ _ := rfl
  window _ _ _ := rfl
  idles _ := rfl
  builds _ p _ := by cases p <;> rfl
  claims _ := rfl
  configures _ _ := rfl

/-- Settles O41: an instruction leaves FAULT alone or raises once, and only a live block runs one. -/
theorem firstFaultIsKept : Obligations.FirstFaultIsKept := by
  intro i s t ht
  obtain ⟨⟨hlive, -⟩, -⟩ := exec_eq_next ht
  rcases bodyRule_fault.exec ht with h | h
  · exact ⟨fun f hf => h.trans hf, fun _ => h, hlive⟩
  · obtain ⟨d, hd⟩ := h.fault
    exact ⟨fun f hf => by simp [hd, hf], fun hp => absurd h.phase hp, hlive⟩

end Sys2Proof.Machine
end

section
/-! The appended events replay the lines (00_scope.md R8, 20_memory.md R50, 30_encoding.md R61, R64). -/
namespace Sys2Proof.Machine

/-- The lines of a state. -/
def linesOf (s : State) : Lines := ⟨s.pins, s.cs⟩

/-- A trace replays in two parts. -/
theorem replay_append {n : Nat} {l m : Lines} {es fs : List Event} (h : replay n l es = some m) :
    replay n l (es ++ fs) = replay n m fs := by
  induction es generalizing l with
  | nil => cases h; rfl
  | cons e es ih =>
    cases e with
    | pin p v => exact ih h
    | delay ms => exact ih h
    | csAssert | csDeassert | xfer dc bytes =>
      simp only [List.cons_append, replay] at h ⊢
      split_ifs at h ⊢
      exact ih h

/-- A transfer that the line's level and an open bracket allow replays to the same lines. -/
theorem replay_xfer {n : Nat} {s : State} {bytes : List Byte} (hc : s.cs = .asserted) (h1 : 1 ≤ bytes.length)
    (h2 : bytes.length ≤ n) : replay n (linesOf s) [.xfer s.pins.dc bytes] = some (linesOf s) := by
  simp [replay, linesOf, hc, h1, h2]

/-- The operation went on: the events it appended replay to the lines it left. -/
structure Replays (s t : State) : Prop where
  cfg : t.cfg = s.cfg
  events : ∃ es, t.trace = s.trace ++ es ∧ replay s.cfg.bufSize (linesOf s) es = some (linesOf t)

/-- The operation raised: its events replay to the pins it left, chip-select left open. -/
structure ReplaysToHalt (s t : State) : Prop where
  phase : t.phase = .halted
  events : ∃ es l, t.trace = s.trace ++ es ∧ replay s.cfg.bufSize (linesOf s) es = some l ∧ l.pins = t.pins

/-- A step without an event that leaves the lines. -/
theorem Replays.of_silent {s t : State} (hc : t.cfg = s.cfg) (ht : t.trace = s.trace) (hl : linesOf t = linesOf s) :
    Replays s t :=
  ⟨hc, [], by simp [ht], by rw [hl]; rfl⟩

/-- A step with one event. -/
theorem Replays.of_event {s t : State} {e : Event} (hc : t.cfg = s.cfg) (ht : t.trace = s.trace ++ [e])
    (hl : replay s.cfg.bufSize (linesOf s) [e] = some (linesOf t)) : Replays s t :=
  ⟨hc, [e], ht, hl⟩

theorem Replays.trans {s m t : State} (h : Replays s m) (g : Replays m t) : Replays s t := by
  obtain ⟨es, hes, hl⟩ := h.events
  obtain ⟨fs, hfs, hm⟩ := g.events
  exact ⟨g.cfg.trans h.cfg, es ++ fs, by simp [hfs, hes], by rw [replay_append hl, ← h.cfg, hm]⟩

theorem Replays.toHalt {s m t : State} (h : Replays s m) (g : ReplaysToHalt m t) : ReplaysToHalt s t := by
  obtain ⟨es, hes, hl⟩ := h.events
  obtain ⟨fs, l, hfs, hm, hp⟩ := g.events
  exact ⟨g.phase, es ++ fs, l, by simp [hfs, hes], by rw [replay_append hl, ← h.cfg, hm], hp⟩

/-- What a failing transfer put on the wire replays, inside its bracket. -/
theorem replaysToHalt_of_fault {s : State} {bytes : List Byte} (j : Nat) (hc : s.cs = .asserted)
    (h2 : bytes.length ≤ s.cfg.bufSize) : ReplaysToHalt s (afterTransferFault bytes j s) := by
  by_cases hj : bytes.take j = []
  · exact ⟨rfl, [], linesOf s, by simp [afterTransferFault, hj], rfl, rfl⟩
  · refine ⟨rfl, [.xfer s.pins.dc (bytes.take j)], linesOf s, by simp [afterTransferFault, hj],
      replay_xfer hc (List.length_pos_of_ne_nil hj) ?_, rfl⟩
    exact (List.length_take_le' j bytes).trans h2

/-- Every primitive of the block that constructs nothing tells the lines in its events. -/
theorem blockRule_replays : BlockRule Replays ReplaysToHalt where
  refl _ := .of_silent rfl rfl rfl
  trans := .trans
  fail := Replays.toHalt
  dc _ _ := .of_event rfl rfl rfl
  begins s hc := .of_event rfl rfl (by simp [replay, linesOf, hc])
  ends s hc := .of_event rfl rfl (by simp [replay, linesOf, hc])
  store _ _ _ := .of_silent rfl rfl rfl
  drain _ := .of_silent rfl rfl rfl
  moves _ _ hc h1 h2 _ := .of_event rfl rfl (replay_xfer hc h1 h2)
  faults _ _ j hc _ h2 _ := replaysToHalt_of_fault j hc h2
  check _ _ _ _ := ⟨rfl, [], _, by simp, rfl, rfl⟩
  pin _ _ _ := .of_event rfl rfl rfl
  waits _ _ := .of_event rfl rfl rfl
  phase _ _ := .of_silent rfl rfl rfl
  index _ _ := .of_silent rfl rfl rfl
  window _ _ _ := .of_silent rfl rfl rfl
  idles _ := .of_silent rfl rfl rfl

/-- Settles O48: the primitives' events replay one after another. -/
theorem traceReplaysTheLines : Obligations.TraceReplaysTheLines := by
  intro i s t hi ht
  rcases blockRule_replays.exec hi ht with h | h
  · obtain ⟨es, hes, hl⟩ := h.events
    exact ⟨es, linesOf t, hes, hl, rfl, fun _ => rfl⟩
  · obtain ⟨es, l, hes, hl, hp⟩ := h.events
    exact ⟨es, l, hes, hl, hp, fun hn => absurd h.phase hn⟩

end Sys2Proof.Machine
end

section
/-! The asserts of the transport, broken (40_pin_spi_delay.md R84, R85, R87). -/
namespace Sys2Proof.Machine

theorem xfer_of_deasserted {s : State} (hc : s.cs = .deasserted) (bytes : List Byte) :
    xfer bytes s = .broken .chipSelectDeasserted := by
  simp [xfer, hc]

theorem xfer_of_bad_length {s : State} {bytes : List Byte} (hc : s.cs = .asserted)
    (hlen : bytes.length = 0 ∨ s.cfg.bufSize < bytes.length) : xfer bytes s = .broken .transferLength := by
  simp only [xfer, hc, reduceCtorEq, ↓reduceIte, hlen]

/-- Settles O9: chip-select or the length breaks the first part of each operation. -/
theorem brokenAssertsAreModelFaults : Obligations.BrokenAssertsAreModelFaults := by
  refine fun s hl => ⟨fun hc => ⟨?_, fun bytes => ?_⟩, fun hc => ⟨fun bytes hlen => ?_, fun bytes => ?_,
    fun op ps => ?_, fun px => ?_⟩⟩
  · rw [exec_of_live hl, bodyOf, csDeassert_of_deasserted hc, Result.outcome_broken]
  · rw [exec_of_live hl, bodyOf, xfer_of_deasserted hc, Result.outcome_broken]
  · rw [exec_of_live hl, bodyOf, xfer_of_bad_length hc (by omega), Result.outcome_broken]
  · rw [exec_spiWrite_of_live hl, csAssert_of_asserted hc]; rfl
  · rw [exec_of_live hl, bodyOf, sendCommand, csAssert_of_asserted (s := setPin .dc .low s) hc]; rfl
  · rw [exec_of_live hl, bodyOf, sendPixels, csAssert_of_asserted (s := setPin .dc .high s) hc]; rfl

/-- A symbol when its transfer succeeds: DC at the class's level, then the byte (30_encoding.md R64). -/
theorem sendSymbol_ok {s : State} (hc : s.cs = .asserted) (hn : 1 ≤ s.cfg.bufSize)
    (hx : s.env.xferFault s.xferCount = none) (c : ByteClass) (b : Byte) :
    sendSymbol c b s = .ok { s with
      pins := { s.pins with dc := dcLevel c }
      trace := s.trace ++ [.pin .dc (dcLevel c), .xfer (dcLevel c) [b]]
      xferCount := s.xferCount + 1 } := by
  rw [sendSymbol, xfer_of_ok (bytes := [b]) (s := setPin .dc (dcLevel c) s) hc le_rfl hn hx]
  simp [emit, setPin, Pins.set]

/-- Settles O12: a symbol is its class's DC level and one transfer, under the transfer's assert. -/
theorem symbolsTransferAtTheirClass : Obligations.SymbolsTransferAtTheirClass := by
  refine fun s b hl => ⟨fun hc hn hx => ⟨?_, ?_⟩, fun hc => ⟨?_, ?_⟩⟩
  · rw [exec_of_live hl, bodyOf, sendSymbol_ok hc hn hx, Result.outcome_ok]; rfl
  · rw [exec_of_live hl, bodyOf, sendSymbol_ok hc hn hx, Result.outcome_ok]; rfl
  · rw [exec_of_live hl, bodyOf, sendSymbol, xfer_of_deasserted (s := setPin .dc _ s) hc, Result.outcome_broken]
  · rw [exec_of_live hl, bodyOf, sendSymbol, xfer_of_deasserted (s := setPin .dc _ s) hc, Result.outcome_broken]

end Sys2Proof.Machine
end

section
/-! No operation reads the trace: on top of another trace each does the same and appends the same (10_state.md
R26). -/
namespace Sys2Proof.Machine

/-- A state whose trace stands on top of an earlier one. -/
def State.onTop (T : List Event) (s : State) : State := { s with trace := T ++ s.trace }

/-- A result on top of an earlier trace. -/
def Result.onTop (T : List Event) : Result → Result
  | .ok s => .ok (s.onTop T)
  | .raised s => .raised (s.onTop T)
  | .broken e => .broken e

/-- The operation neither reads the trace nor changes what stands there. -/
def TraceBlind (f : State → Result) : Prop := ∀ T s, f (s.onTop T) = (f s).onTop T

theorem TraceBlind.andThen {f g : State → Result} (hf : TraceBlind f) (hg : TraceBlind g) :
    TraceBlind fun s => (f s).andThen g := by
  intro T s
  simp only [hf T s]
  cases f s with
  | ok m => exact hg T m
  | raised m => rfl
  | broken e => rfl

theorem TraceBlind.comp {f : State → Result} {u : State → State} (hf : TraceBlind f)
    (hu : ∀ T s, u (s.onTop T) = (u s).onTop T) : TraceBlind fun s => f (u s) := by
  intro T s
  simp only [hu, hf T]

theorem emit_onTop (T : List Event) (e : Event) (s : State) : emit e (s.onTop T) = (emit e s).onTop T := by
  simp [emit, State.onTop]

theorem setPin_onTop (T : List Event) (p : Pin) (v : Level) (s : State) :
    setPin p v (s.onTop T) = (setPin p v s).onTop T :=
  emit_onTop T _ { s with pins := s.pins.set p v }

theorem delay_onTop (T : List Event) (n : Nat) (s : State) : delay n (s.onTop T) = (delay n s).onTop T :=
  emit_onTop T _ s

/-- An operation that only updates the state. -/
theorem traceBlind_ok {u : State → State} (hu : ∀ T s, u (s.onTop T) = (u s).onTop T) :
    TraceBlind fun s => .ok (u s) := fun T s => by simp only [hu, Result.onTop]

theorem traceBlind_require {c : State → Bool} {code : FaultCode} {info : State → FaultInfo} {body : State → Result}
    (hc : ∀ T s, c (s.onTop T) = c s) (hi : ∀ T s, info (s.onTop T) = info s) (hb : TraceBlind body) :
    TraceBlind fun s => require (c s) code (info s) body s := by
  intro T s
  simp only [hc, hi]
  cases h : c s with
  | true => rw [require_of_true rfl, require_of_true rfl, hb T s]
  | false => rw [require_of_false rfl, require_of_false rfl]; rfl

theorem traceBlind_csAssert : TraceBlind csAssert := by
  intro T s
  cases hc : s.cs with
  | asserted => rw [csAssert_of_asserted (s := s.onTop T) hc, csAssert_of_asserted hc]; rfl
  | deasserted =>
    rw [csAssert_of_deasserted (s := s.onTop T) hc, csAssert_of_deasserted hc]
    exact congrArg _ (emit_onTop T _ { s with cs := .asserted })

theorem traceBlind_csDeassert : TraceBlind csDeassert := by
  intro T s
  cases hc : s.cs with
  | deasserted => rw [csDeassert_of_deasserted (s := s.onTop T) hc, csDeassert_of_deasserted hc]; rfl
  | asserted =>
    rw [csDeassert_of_asserted (s := s.onTop T) hc, csDeassert_of_asserted hc]
    exact congrArg _ (emit_onTop T _ { s with cs := .deasserted })

theorem traceBlind_xfer (bytes : List Byte) : TraceBlind (xfer bytes) := by
  intro T s
  rcases xfer_cases bytes s with ⟨hc, h⟩ | ⟨hc, hlen, h⟩ | ⟨hc, h1, h2, hx, h⟩ | ⟨hc, h1, h2, j, hx, h⟩ <;> rw [h]
  · rw [xfer_of_deasserted (s := s.onTop T) hc]; rfl
  · rw [xfer_of_bad_length (s := s.onTop T) hc hlen]; rfl
  · rw [xfer_of_ok (s := s.onTop T) hc h1 h2 hx]
    exact congrArg _ (emit_onTop T _ { s with xferCount := s.xferCount + 1 })
  · rw [xfer_of_fault (s := s.onTop T) hc h1 h2 hx]
    simp [Result.onTop, State.onTop, afterTransferFault, afterRaise]

theorem traceBlind_bufStore (b : Byte) : TraceBlind (bufStore b) := by
  intro T s
  by_cases hl : s.bufLen < s.cfg.bufSize
  · rw [bufStore_of_lt (s := s.onTop T) hl, bufStore_of_lt hl]; rfl
  · rw [bufStore_of_ge (s := s.onTop T) hl, bufStore_of_ge hl]; rfl

theorem traceBlind_flush : TraceBlind flush := by
  intro T s
  exact (traceBlind_xfer (s.buf.slice s.bufLen)).andThen (traceBlind_ok (u := fun s => { s with bufLen := 0 })
    fun _ _ => rfl) T s

theorem traceBlind_ite {c : State → Prop} [DecidablePred c] {f g : State → Result} (hc : ∀ T s, c (s.onTop T) ↔ c s)
    (hf : TraceBlind f) (hg : TraceBlind g) : TraceBlind fun s => if c s then f s else g s := by
  intro T s
  simp only [hc, hf T, hg T]
  split <;> rfl

theorem traceBlind_id : TraceBlind .ok := traceBlind_ok fun _ _ => rfl

theorem traceBlind_flushIfFull : TraceBlind flushIfFull :=
  traceBlind_ite (fun _ _ => .rfl) traceBlind_flush traceBlind_id

theorem traceBlind_flushRest : TraceBlind flushRest :=
  traceBlind_ite (fun _ _ => .rfl) traceBlind_flush traceBlind_id

theorem traceBlind_putBytes (bs : List Byte) : TraceBlind (putBytes bs) := by
  induction bs with
  | nil => exact traceBlind_id
  | cons b bs ih => exact ((traceBlind_bufStore b).andThen traceBlind_flushIfFull).andThen ih

theorem traceBlind_streamBytes (bs : List Byte) : TraceBlind (streamBytes bs) :=
  (traceBlind_putBytes bs).andThen traceBlind_flushRest

theorem traceBlind_putPixels (ps : List U16) : TraceBlind (putPixels ps) := by
  induction ps with
  | nil => exact traceBlind_id
  | cons p ps ih =>
    intro T s
    exact ((((traceBlind_bufStore _).andThen (traceBlind_bufStore _)).andThen traceBlind_flushIfFull).andThen ih) T s

theorem traceBlind_streamPixels (ps : List U16) : TraceBlind (streamPixels ps) :=
  (traceBlind_putPixels ps).andThen traceBlind_flushRest

theorem traceBlind_streamDataParams (ps : List Byte) : TraceBlind (streamDataParams ps) :=
  traceBlind_ite (fun _ _ => .rfl) traceBlind_id
    ((traceBlind_streamBytes ps).comp fun T s => setPin_onTop T .dc .high s)

theorem traceBlind_streamCommand (op : Byte) (ps : List Byte) : TraceBlind (streamCommand op ps) := by
  intro T s
  cases hd : s.cfg.paramDc with
  | low => simpa [streamCommand, State.onTop, hd] using traceBlind_streamBytes (op :: ps) T s
  | high =>
    simpa [streamCommand, State.onTop, hd] using
      (traceBlind_streamBytes [op]).andThen (traceBlind_streamDataParams ps) T s

theorem traceBlind_sendCommand (op : Byte) (ps : List Byte) : TraceBlind (sendCommand op ps) :=
  ((traceBlind_csAssert.comp fun T s => setPin_onTop T .dc .low s).andThen
    (traceBlind_streamCommand op ps)).andThen traceBlind_csDeassert

theorem traceBlind_sendPixels (ps : List U16) : TraceBlind (sendPixels ps) :=
  ((traceBlind_csAssert.comp fun T s => setPin_onTop T .dc .high s).andThen
    (traceBlind_streamPixels ps)).andThen traceBlind_csDeassert

theorem traceBlind_sendCommands (cmds : List Cmd) : TraceBlind (sendCommands cmds) := by
  induction cmds with
  | nil => exact traceBlind_id
  | cons c cmds ih => exact (traceBlind_sendCommand c.opcode c.params).andThen ih

theorem postDelay_onTop (T : List Event) (ms : Nat) (s : State) :
    postDelay ms (s.onTop T) = (postDelay ms s).onTop T := by
  unfold postDelay
  split
  · exact delay_onTop T ms s
  · rfl

theorem traceBlind_sendEntry (idx : Nat) (op : Byte) (ps : List Byte) (ms : Nat) :
    TraceBlind (sendEntry idx op ps ms) :=
  ((traceBlind_sendCommand op ps).comp (u := fun s => { s with initIdx := idx }) fun _ _ => rfl).andThen
    (traceBlind_ok fun T s => postDelay_onTop T ms s)

theorem traceBlind_sendEntries (es : List InitEntry) (idx : Nat) : TraceBlind (sendEntries idx es) := by
  induction es generalizing idx with
  | nil => exact traceBlind_id
  | cons e es ih => exact (traceBlind_sendEntry idx e.opcode e.params e.postDelayMs).andThen (ih (idx + 1))

theorem traceBlind_requirePhase {ph : Phase} {op : CheckedOp} {body : State → Result} (hb : TraceBlind body) :
    TraceBlind (requirePhase ph op body) :=
  traceBlind_require (fun _ _ => rfl) (fun _ _ => rfl) hb

theorem traceBlind_requireInBounds {w : Window} {body : State → Result} (hb : TraceBlind body) :
    TraceBlind (requireInBounds w body) :=
  traceBlind_require (fun _ _ => rfl) (fun _ _ => rfl) hb

theorem traceBlind_requireCount {given n : Nat} {body : State → Result} (hb : TraceBlind body) :
    TraceBlind (requireCount given n body) :=
  traceBlind_require (fun _ _ => rfl) (fun _ _ => rfl) hb

theorem pulse_onTop (T : List Event) (s : State) : pulse (s.onTop T) = (pulse s).onTop T := by
  simp [pulse, delay, setPin, emit, State.onTop]

theorem traceBlind_resetPulse : TraceBlind resetPulse :=
  traceBlind_requirePhase (traceBlind_ok (u := fun s => pulse { s with phase := .resetting })
    fun T s => pulse_onTop T { s with phase := .resetting })

theorem traceBlind_configure : TraceBlind configure := by
  refine traceBlind_requirePhase fun T s => ?_
  exact ((traceBlind_sendEntries s.cfg.initTable 0).comp (u := fun s => { s with phase := .configuringInterface })
    fun _ _ => rfl).andThen (traceBlind_ok (u := fun t =>
      { t with initIdx := s.cfg.initTable.length, phase := .ready }) fun _ _ => rfl) T s

theorem traceBlind_initialise : TraceBlind initialise :=
  traceBlind_requirePhase (traceBlind_resetPulse.andThen traceBlind_configure)

theorem traceBlind_constructSpi : TraceBlind constructSpi :=
  traceBlind_ite (fun _ _ => .rfl) (traceBlind_ok (u := fun s => { s with cs := .deasserted }) fun _ _ => rfl)
    fun _ _ => rfl

theorem traceBlind_boot (cfg : Cfg) : TraceBlind (boot cfg) := by
  refine traceBlind_requirePhase fun T s => ?_
  unfold requireValid
  cases firstFailingClause cfg with
  | some n => rfl
  | none =>
    exact (traceBlind_constructSpi.comp (u := constructPins cfg) fun _ _ => rfl).andThen
      (traceBlind_ok (u := fun s => { s with cfg := cfg, phase := .uninitialized }) fun _ _ => rfl) T s

theorem traceBlind_setWindow (w : Window) : TraceBlind (setWindow w) := by
  refine traceBlind_requirePhase (traceBlind_requireInBounds fun T s => ?_)
  exact ((traceBlind_sendCommands (windowCmds s.cfg w)).comp (u := fun s => { s with winValid := false, win := w })
    fun _ _ => rfl).andThen (traceBlind_ok (u := fun s => { s with winValid := true }) fun _ _ => rfl) T s

theorem traceBlind_writePixels (px : List U16) : TraceBlind (writePixels px) := by
  refine traceBlind_requirePhase (traceBlind_require (fun _ _ => rfl) (fun _ _ => rfl) fun T s => ?_)
  refine traceBlind_requireCount (n := pixelCount s.win) (fun T s => ?_) T s
  exact ((traceBlind_sendCommand s.cfg.opcMemwr []).comp (u := fun s => { s with winValid := false })
    fun _ _ => rfl).andThen (traceBlind_sendPixels px) T s

theorem traceBlind_setPixels (w : Window) (px : List U16) : TraceBlind (setPixels w px) :=
  traceBlind_requirePhase (traceBlind_requireInBounds (traceBlind_requireCount
    ((traceBlind_setWindow w).andThen (traceBlind_writePixels px))))

theorem traceBlind_fillRect (w : Window) (color : U16) : TraceBlind (fillRect w color) :=
  traceBlind_requirePhase (traceBlind_requireInBounds (traceBlind_setPixels w _))

theorem traceBlind_fillScreen (color : U16) : TraceBlind (fillScreen color) :=
  fun T s => traceBlind_fillRect (screen s.cfg) color T s

theorem traceBlind_idle : TraceBlind idle :=
  traceBlind_requirePhase (traceBlind_ok (u := fun s => { s with idling := true }) fun _ _ => rfl)

theorem traceBlind_sendSymbol (c : ByteClass) (b : Byte) : TraceBlind (sendSymbol c b) :=
  (traceBlind_xfer [b]).comp fun T s => setPin_onTop T .dc (dcLevel c) s

/-- No meaning reads the trace. -/
theorem traceBlind_bodyOf (i : Instr) : TraceBlind (bodyOf i) := by
  cases i with
  | boot cfg => exact traceBlind_boot cfg
  | init => exact traceBlind_initialise
  | setWindow => exact traceBlind_setWindow _
  | writePixels px => exact traceBlind_writePixels px
  | setPixels x0 y0 x1 y1 px => exact traceBlind_setPixels _ px
  | fillRect => exact traceBlind_fillRect _ _
  | idle => exact traceBlind_idle
  | pinConstruct p v => exact traceBlind_ok fun _ _ => by cases p <;> rfl
  | pinSetLow p => exact traceBlind_ok fun T s => setPin_onTop T p .low s
  | pinSetHigh p => exact traceBlind_ok fun T s => setPin_onTop T p .high s
  | spiConstruct => exact traceBlind_constructSpi
  | spiWrite bs => exact (traceBlind_csAssert.andThen (traceBlind_xfer bs)).andThen traceBlind_csDeassert
  | delayMs n => exact traceBlind_ok fun T s => delay_onTop T n s
  | spiBegin => exact traceBlind_csAssert
  | spiXfer bs => exact traceBlind_xfer bs
  | spiEnd => exact traceBlind_csDeassert
  | sendCommand op ps => exact traceBlind_sendCommand op ps
  | sendPixels px => exact traceBlind_sendPixels px
  | resetPulse => exact traceBlind_resetPulse
  | configure => exact traceBlind_configure
  | halt => exact traceBlind_ok fun _ _ => rfl
  | fillScreen c => exact traceBlind_fillScreen c
  | main cfg =>
    exact (((traceBlind_boot cfg).andThen traceBlind_initialise).andThen
      (traceBlind_fillScreen cfg.fillColor)).andThen traceBlind_idle
  | pwrctl | pixfmt | slpout | dispon => exact traceBlind_sendEntry _ _ _ _
  | madctl i op d => exact fun T s => traceBlind_sendEntry i op [madctlByte s.cfg] d T s
  | colset op ps | rowset op ps => exact traceBlind_sendCommand op ps
  | memwr op => exact traceBlind_sendCommand op []
  | symCommand b => exact traceBlind_sendSymbol .command b
  | symData b => exact traceBlind_sendSymbol .data b

/-- An outcome on top of an earlier trace. -/
theorem exec_onTop {i : Instr} {s t : State} (h : exec i s = .next t) (T : List Event) :
    exec i (s.onTop T) = .next (t.onTop T) := by
  obtain ⟨hl, h⟩ := exec_eq_next h
  rw [exec_of_live (s := s.onTop T) hl, traceBlind_bodyOf i T s]
  rcases h with h | h <;> rw [h] <;> rfl

/-- An outcome from a trace is the outcome from the empty one, on top of that trace. -/
theorem exists_exec_of_empty_trace {i : Instr} {s t : State} (h : exec i s = .next t) :
    ∃ u, exec i { s with trace := [] } = .next u ∧ t = u.onTop s.trace := by
  obtain ⟨hl, hb⟩ := exec_eq_next h
  have hs : s = State.onTop s.trace { s with trace := [] } := by simp [State.onTop]
  have hblind := traceBlind_bodyOf i s.trace { s with trace := [] }
  rw [← hs] at hblind
  rw [exec_of_live (s := { s with trace := [] }) hl]
  cases hr : bodyOf i { s with trace := [] } with
  | ok u | raised u =>
    rw [hr] at hblind
    refine ⟨u, rfl, ?_⟩
    rcases hb with hb | hb <;> rw [hb] at hblind <;> cases hblind
    rfl
  | broken e =>
    rw [hr] at hblind
    rcases hb with hb | hb <;> rw [hb] at hblind <;> cases hblind

/-- Settles O47: what an instruction appends is what it appends to the empty trace. -/
theorem traceIsOnlyAppended : Obligations.TraceIsOnlyAppended := by
  refine ⟨rfl, fun i s t h => ?_⟩
  obtain ⟨u, hu, rfl⟩ := exists_exec_of_empty_trace h
  refine ⟨u.trace, rfl, fun T => ?_⟩
  simpa [State.onTop] using exec_onTop hu T

end Sys2Proof.Machine
end

section
/-! One step: what runs, what is refused, and what a step without a request does (30_encoding.md R70 to R72,
43_window_pixels.md R150, R152). -/
namespace Sys2Proof.Machine

theorem step_of_requested {s : State} {r : Request} {rest : List Request} {i : Instr} (hs : s.requests = r :: rest)
    (hr : requested r s = .ok i) : step s = exec i { s with requests := rest } := by
  simp [step, hs, hr]

theorem step_of_not_requested {s : State} {r : Request} {rest : List Request} {why : Refusal}
    (hs : s.requests = r :: rest) (hr : requested r s = .error why) : step s = .refused why := by
  simp [step, hs, hr]

theorem step_of_no_request {s : State} (hs : s.requests = []) : step s = .next (quiet s) := by
  simp [step, hs]

theorem quiet_of_at_rest {s : State} (h : s.phase = .halted ∨ s.idling = false) : quiet s = s := by
  unfold quiet
  split_ifs <;> simp_all

theorem quiet_of_idling {s : State} (hp : s.phase ≠ .halted) (hi : s.idling = true) :
    quiet s = delay s.cfg.idleMs s := by
  simp [quiet, hp, hi]

/-- Settles O52: `quiet` by its two cases. -/
theorem stepWithoutARequest : Obligations.StepWithoutARequest := by
  refine fun s hs => ⟨fun h => ?_, fun hp hi => ?_⟩
  · rw [step_of_no_request hs, quiet_of_at_rest h]
  · rw [step_of_no_request hs, quiet_of_idling hp hi]; rfl

/-- Settles O49: a well-formed instruction that its issuer may ask for is the one requested. -/
theorem stepRunsTheDecodedInstruction : Obligations.StepRunsTheDecodedInstruction := by
  intro s r rest i hs hd hw hissuer
  refine step_of_requested hs ?_
  rcases hissuer with hc | ⟨hv, hp⟩
  · simp [requested, hd, hw, hc]
  · simpa [requested, hd, hw, hv] using fun _ => not_and.mp hp

theorem step_of_illFormed {s : State} {r : Request} {rest : List Request} {i : Instr} (hs : s.requests = r :: rest)
    (hp : r.packet = encode i) (hw : i.wellFormed s.cfg.bufSize = false) : step s = .refused .illFormed :=
  step_of_not_requested hs (by simp [requested, hp, decodeAfterEncode i, hw])

theorem step_of_pin_before_boot {s : State} {r : Request} {rest : List Request} {i : Instr}
    (hs : s.requests = r :: rest) (hp : r.packet = encode i) (hw : i.wellFormed s.cfg.bufSize = true)
    (hh : r.issuer = .host) (hv : hostVisible i = true) (hi : isPinSet i = true) (hphase : s.phase = .powerOn) :
    step s = .refused .pinNotConstructed :=
  step_of_not_requested hs (by simp [requested, hp, decodeAfterEncode i, hw, hh, hv, hi, hphase])

/-- Settles O51: each packet is the encoding of an instruction that one of the checks refuses. -/
theorem illFormedAndEarlyAreRefused : Obligations.IllFormedAndEarlyAreRefused := by
  refine fun s r rest hs => ⟨fun bytes hlen hp => ?_, fun cfg hcfg hp => ?_, fun hphase hh hp => ?_⟩
  · have hbad : ¬(1 ≤ bytes.length ∧ bytes.length ≤ s.cfg.bufSize) := by
      rcases hlen with rfl | hlen
      · exact fun h => absurd h.1 (by decide)
      · omega
    rcases hp with hp | hp <;> exact step_of_illFormed hs hp (decide_eq_false hbad)
  · rcases hp with hp | hp <;> exact step_of_illFormed hs hp hcfg
  · rcases hp with hp | hp <;> exact step_of_pin_before_boot hs hp rfl hh rfl rfl hphase

theorem idle_ok {s : State} (hp : s.phase = .ready) : idle s = .ok { s with idling := true } := by
  rw [idle, requirePhase_of_eq hp]

/-- Settles O36: the flag is set in Ready alone; it refuses every instruction and makes every step a heartbeat. -/
theorem idleNeverCompletes : Obligations.IdleNeverCompletes := by
  refine fun s hl => ⟨fun hp => ?_, fun hp => ⟨?_, fun i es => ?_, fun es => ?_⟩⟩
  · rw [exec_of_live hl, bodyOf, idle, requirePhase_of_ne hp, Result.outcome_raised]
  · rw [exec_of_live hl, bodyOf, idle_ok hp, Result.outcome_ok]
  · exact exec_of_idling (s := { s with idling := true, trace := es }) hl.1 rfl i
  · exact (stepWithoutARequest { s with idling := true, requests := [], trace := es } rfl).2 hl.1 rfl

/-- Settles O56: the reset state written out. -/
theorem resetValues : Obligations.ResetValues := ⟨rfl, rfl, rfl, rfl, rfl, rfl⟩

/-- Settles O57: at reset no operation has begun, the buffer is empty and nothing waits. -/
theorem resetIsWellFormed : Obligations.ResetIsWellFormed where
  left :=
    { fault_iff_halted := by decide
      booted_cfg_valid := fun h => absurd rfl h
      window_valid := nofun
      at_rest := fun _ => ⟨rfl, rfl⟩
      index_in_table := le_rfl
      index_when_ready := nofun
      index_at_power_on := fun _ => rfl
      rests := by decide
      idle_is_ready := nofun
      length_in_buffer := Nat.zero_le _
      buffer_canonical := State.reset_buf_wf
      buffer_in_range := nofun
      buffer_at_power_on := fun _ => rfl
      window_cmds_lawful := rfl }
  right := nofun

end Sys2Proof.Machine
end

section
/-! SEND_COMMAND, SEND_PIXELS and the panel command kinds when their transfers succeed (41_framer.md R101, R104,
42_controller_init.md R126 to R130). -/
namespace Sys2Proof.Machine

/-- Settles O13 by the closed form of a completed SEND_COMMAND. -/
theorem sendCommandCompletes : Obligations.SendCommandCompletes := fun _ op ps hl hr hx =>
  exec_sendCommand_of_ok hl hr op ps hx

/-- Settles O15 by the closed form of a completed SEND_PIXELS. -/
theorem sendPixelsCompletes : Obligations.SendPixelsCompletes := fun _ px hl hr he hx =>
  exec_sendPixels_of_ok hl hr he px hx

/-- Settles O25: each kind is one round of CONFIGURE's loop. -/
theorem initEntriesComplete : Obligations.InitEntriesComplete := by
  intro s idx op ps ms hl hr
  have entry {params : List Byte} (hx : TransfersOk s (commandTransfers s.cfg params)) :
      (sendEntry idx op params ms s).outcome = .next (afterEntry idx op params ms s) := by
    rw [sendEntry_ok idx op params ms s hr hx, Result.outcome_ok]
  refine ⟨fun hx => ⟨?_, ?_⟩, fun hx => ?_, fun hx => ⟨?_, ?_⟩⟩ <;> exact (exec_of_live hl _).trans (entry hx)

/-- Settles O26: each kind is one SEND_COMMAND. -/
theorem windowCommandsComplete : Obligations.WindowCommandsComplete := by
  intro s op ps hl hr
  have command {params : List Byte} (hx : TransfersOk s (commandTransfers s.cfg params)) :
      (sendCommand op params s).outcome = .next (afterCommand op params s) := by
    rw [sendCommand_ok op params s hr hx, Result.outcome_ok]
  refine ⟨fun hx => ⟨?_, ?_⟩, fun hx => ?_⟩ <;> exact (exec_of_live hl _).trans (command hx)

end Sys2Proof.Machine
end

section
/-! SEND_COMMAND and SEND_PIXELS at their first failing transfer (41_framer.md R101, R104, 60_exceptions.md R164). -/
namespace Sys2Proof.Machine

theorem streamCommand_of_low {s : State} (hd : s.cfg.paramDc = .low) (op : Byte) (ps : List Byte) :
    streamCommand op ps s = streamBytes (op :: ps) s := by
  simp [streamCommand, hd]

theorem streamCommand_of_high {s : State} (hd : s.cfg.paramDc = .high) (op : Byte) (ps : List Byte) :
    streamCommand op ps s = (streamBytes [op] s).andThen (streamDataParams ps) := by
  simp [streamCommand, hd]

/-- A transaction whose body raises has raised. -/
theorem sendCommand_of_raised {s t : State} {op : Byte} {ps : List Byte} (hc : s.cs = .deasserted)
    (h : streamCommand op ps (opened .low s) = .raised t) : sendCommand op ps s = .raised t := by
  rw [sendCommand, csAssert_setPin_dc hc, Result.andThen_ok, h, Result.andThen_raised]

/-- With PARAM_DC = low the payload is the opcode and the parameters. -/
theorem sendCommand_fault_low {s : State} {op : Byte} {ps : List Byte} {j p : Nat} (hr : FramerReady s)
    (hd : s.cfg.paramDc = .low) (hj : j < chunkCount s.cfg.bufSize (ps.length + 1)) (hx : TransfersOk s j)
    (hp : s.env.xferFault (s.xferCount + j) = some p) :
    ∃ m : Memory, m.slice (chunk s.cfg.bufSize (op :: ps) j).length = chunk s.cfg.bufSize (op :: ps) j ∧
      sendCommand op ps s = .raised (afterTransferFault (chunk s.cfg.bufSize (op :: ps) j) p { s with
        pins := { s.pins with dc := .low }
        cs := .asserted
        buf := m
        bufLen := (chunk s.cfg.bufSize (op :: ps) j).length
        trace := s.trace ++ [.pin .dc .low, .csAssert] ++ ((chunks s.cfg.bufSize (op :: ps)).take j).map (.xfer .low)
        xferCount := s.xferCount + j }) := by
  obtain ⟨hc, h0, hn⟩ := hr
  obtain ⟨m, hm, hstream⟩ := streamBytes_fault (op :: ps) (opened .low s) j p rfl h0 hn hj hx hp
  refine ⟨m, hm, sendCommand_of_raised hc ?_⟩
  rw [streamCommand_of_low (s := opened .low s) hd, hstream]
  rfl

/-- With PARAM_DC = high the opcode is a payload of its own, of one transfer. -/
theorem sendCommand_fault_opcode {s : State} {op : Byte} {ps : List Byte} {p : Nat} (hr : FramerReady s)
    (hd : s.cfg.paramDc = .high) (hp : s.env.xferFault s.xferCount = some p) :
    ∃ m : Memory, m.slice 1 = [op] ∧
      sendCommand op ps s = .raised (afterTransferFault [op] p { s with
        pins := { s.pins with dc := .low }
        cs := .asserted
        buf := m
        bufLen := 1
        trace := s.trace ++ [.pin .dc .low, .csAssert] }) := by
  obtain ⟨hc, h0, hn⟩ := hr
  have hchunk : chunk s.cfg.bufSize [op] 0 = [op] := chunk_zero_of_le hn
  obtain ⟨m, hm, hstream⟩ := streamBytes_fault [op] (opened .low s) 0 p rfl h0 hn
    (by show 0 < chunkCount s.cfg.bufSize 1; rw [chunkCount_one hn]; exact Nat.one_pos) nofun hp
  have hcfg : (opened .low s).cfg = s.cfg := rfl
  rw [hcfg, hchunk] at hm hstream
  refine ⟨m, hm, sendCommand_of_raised hc ?_⟩
  rw [streamCommand_of_high (s := opened .low s) hd, hstream]
  simp [opened, Pins.set]

/-- The opcode of a command with PARAM_DC = high, when its one transfer succeeds. -/
theorem streamBytes_opcode_ok {s : State} (hr : FramerReady s) (hx : s.env.xferFault s.xferCount = none) (op : Byte) :
    streamBytes [op] (opened .low s) = .ok { opened .low s with
      buf := storeWrapped s.cfg.bufSize 0 [op] s.buf
      bufLen := 0
      trace := s.trace ++ [.pin .dc .low, .csAssert, .xfer .low [op]]
      xferCount := s.xferCount + 1 } := by
  obtain ⟨-, h0, hn⟩ := hr
  have hx' : TransfersOk (opened .low s) (chunkCount (opened .low s).cfg.bufSize [op].length) := by
    intro j hj
    obtain rfl : j = 0 := by simpa [opened, chunkCount_one hn] using hj
    exact hx
  rw [streamBytes_ok [op] (opened .low s) rfl h0 hn hx']
  simp [opened, streamEvents, chunks_small (n := s.cfg.bufSize) (l := [op]) Nat.one_pos hn, chunkCount_one hn]

/-- With PARAM_DC = high the parameters are a second payload, at the high level. -/
theorem sendCommand_fault_params {s : State} {op : Byte} {ps : List Byte} {i p : Nat} (hr : FramerReady s)
    (hd : s.cfg.paramDc = .high) (hi : i < chunkCount s.cfg.bufSize ps.length) (hx : TransfersOk s (i + 1))
    (hp : s.env.xferFault (s.xferCount + (i + 1)) = some p) :
    ∃ m : Memory, m.slice (chunk s.cfg.bufSize ps i).length = chunk s.cfg.bufSize ps i ∧
      sendCommand op ps s = .raised (afterTransferFault (chunk s.cfg.bufSize ps i) p { s with
        pins := { s.pins with dc := .high }
        cs := .asserted
        buf := m
        bufLen := (chunk s.cfg.bufSize ps i).length
        trace := s.trace ++ [.pin .dc .low, .csAssert, .xfer .low [op], .pin .dc .high] ++
          ((chunks s.cfg.bufSize ps).take i).map (.xfer .high)
        xferCount := s.xferCount + (i + 1) }) := by
  have hne : ps ≠ [] := by
    rintro rfl
    simp at hi
  have hopcode := streamBytes_opcode_ok hr (hx 0 (Nat.succ_pos i)) op
  obtain ⟨hc, -, hn⟩ := hr
  obtain ⟨m, hm, hstream⟩ := streamBytes_fault ps (setPin .dc .high { opened .low s with
      buf := storeWrapped s.cfg.bufSize 0 [op] s.buf
      bufLen := 0
      trace := s.trace ++ [.pin .dc .low, .csAssert, .xfer .low [op]]
      xferCount := s.xferCount + 1 }) i p rfl rfl hn hi
    (fun j hj => by simpa [opened, Nat.add_assoc, Nat.add_comm 1] using hx (j + 1) (by omega))
    (by simpa [opened, Nat.add_assoc, Nat.add_comm 1] using hp)
  refine ⟨m, hm, sendCommand_of_raised hc ?_⟩
  rw [streamCommand_of_high (s := opened .low s) hd, hopcode, Result.andThen_ok, streamDataParams, if_neg hne, hstream]
  simp [opened, setPin, emit, Pins.set, Nat.add_assoc, Nat.add_comm 1]

/-- Settles O14: by PARAM_DC and, where the opcode goes alone, by whether it is the transfer that fails. -/
theorem sendCommandFirstFailingTransfer : Obligations.SendCommandFirstFailingTransfer := by
  refine fun s op ps j p hl hr hx hp => ⟨fun hd hj => ?_, fun hd hj => ?_, fun hd i hj hi => ?_⟩
  · obtain ⟨m, hm, h⟩ := sendCommand_fault_low (op := op) hr hd hj hx hp
    exact ⟨m, hm, by rw [exec_of_live hl, bodyOf, h, Result.outcome_raised]⟩
  · subst hj
    obtain ⟨m, hm, h⟩ := sendCommand_fault_opcode (op := op) (ps := ps) hr hd hp
    exact ⟨m, hm, by rw [exec_of_live hl, bodyOf, h, Result.outcome_raised]⟩
  · subst hj
    obtain ⟨m, hm, h⟩ := sendCommand_fault_params (op := op) hr hd hi hx hp
    exact ⟨m, hm, by rw [exec_of_live hl, bodyOf, h, Result.outcome_raised]⟩

theorem sendPixels_fault {s : State} {px : List U16} {j p : Nat} (hr : FramerReady s) (he : s.cfg.bufSize % 2 = 0)
    (hj : j < chunkCount s.cfg.bufSize (2 * px.length)) (hx : TransfersOk s j)
    (hp : s.env.xferFault (s.xferCount + j) = some p) :
    ∃ m : Memory, m.slice (chunk s.cfg.bufSize (pixelPayload s.cfg px) j).length =
        chunk s.cfg.bufSize (pixelPayload s.cfg px) j ∧
      sendPixels px s = .raised (afterTransferFault (chunk s.cfg.bufSize (pixelPayload s.cfg px) j) p { s with
        pins := { s.pins with dc := .high }
        cs := .asserted
        buf := m
        bufLen := (chunk s.cfg.bufSize (pixelPayload s.cfg px) j).length
        trace := s.trace ++ [.pin .dc .high, .csAssert] ++
          ((chunks s.cfg.bufSize (pixelPayload s.cfg px)).take j).map (.xfer .high)
        xferCount := s.xferCount + j }) := by
  obtain ⟨hc, h0, hn⟩ := hr
  obtain ⟨m, hm, hstream⟩ := streamBytes_fault (pixelPayload s.cfg px) (opened .high s) j p rfl h0 hn
    (by rwa [pixelPayload_length]) hx hp
  refine ⟨m, hm, ?_⟩
  rw [sendPixels, csAssert_setPin_dc hc, Result.andThen_ok, streamPixels_eq_streamBytes px (opened .high s) he h0]
  have hpayload : pixelPayload (opened .high s).cfg px = pixelPayload s.cfg px := rfl
  rw [hpayload, hstream]
  rfl

/-- Settles O16: SEND_PIXELS streams its payload through the chunking loop. -/
theorem sendPixelsFirstFailingTransfer : Obligations.SendPixelsFirstFailingTransfer := by
  intro s px j p hl hr he hx hp hj
  obtain ⟨m, hm, h⟩ := sendPixels_fault hr he hj hx hp
  exact ⟨m, hm, by rw [exec_of_live hl, bodyOf, h, Result.outcome_raised]⟩

end Sys2Proof.Machine
end

section
/-! CONFIGURE: the table replayed, and a transfer that fails in it (42_controller_init.md R124, 60_exceptions.md
R164). -/
namespace Sys2Proof.Machine

/-- The entries of a table write no pin but DC. -/
theorem afterEntries_rst_bl (es : List InitEntry) (i : Nat) (s : State) :
    (afterEntries i es s).pins.rst = s.pins.rst ∧ (afterEntries i es s).pins.bl = s.pins.bl := by
  induction es generalizing i s with
  | nil => exact ⟨rfl, rfl⟩
  | cons e es ih => exact ih (i + 1) (afterEntry i e.opcode e.params e.postDelayMs s)

/-- Settles O21: PHASE decides between the replay of the table and the raise. -/
theorem configureReplaysTheTable : Obligations.ConfigureReplaysTheTable := by
  refine fun s hl => ⟨fun hp hr hx => ?_, fun hp => ?_⟩
  · obtain ⟨hc, h0, -⟩ := hr.afterEntries s.cfg.initTable 0
    obtain ⟨hrst, hbl⟩ := afterEntries_rst_bl s.cfg.initTable 0 s
    refine ⟨?_, afterConfigure_trace s, rfl, rfl, hc, h0, hrst, hbl⟩
    rw [exec_of_live hl, bodyOf, configure_ok hp hr hx, Result.outcome_ok]
  · rw [exec_of_live hl, bodyOf, configure, requirePhase_of_ne hp, Result.outcome_raised]

/-- The transfers after the first `a`, from a state that has made those. -/
theorem TransfersOk.shift {s t : State} {a b : Nat} (h : TransfersOk s (a + b)) (he : t.env = s.env)
    (hk : t.xferCount = s.xferCount + a) : TransfersOk t b := by
  intro j hj
  rw [he, hk, Nat.add_assoc]
  exact h (a + j) (by omega)

theorem tableTransfers_cons (cfg : Cfg) (e : InitEntry) (es : List InitEntry) :
    tableTransfers cfg (e :: es) = commandTransfers cfg e.params + tableTransfers cfg es := by
  simp [tableTransfers]

theorem sendEntries_append (es fs : List InitEntry) (i : Nat) (s : State) :
    sendEntries i (es ++ fs) s = (sendEntries i es s).andThen (sendEntries (i + es.length) fs) := by
  induction es generalizing i s with
  | nil => rfl
  | cons e es ih =>
    have hlen : i + (e :: es).length = i + 1 + es.length := by rw [List.length_cons]; omega
    rw [List.cons_append, sendEntries, sendEntries, Result.andThen_assoc, hlen]
    exact congrArg _ (funext (ih (i + 1)))

/-- The first entries of a table, when the transfers they make succeed. -/
theorem sendEntries_ok_of_count (es : List InitEntry) (i : Nat) (s : State) (hr : FramerReady s)
    (hx : TransfersOk s (tableTransfers s.cfg es)) :
    sendEntries i es s = .ok (afterEntries i es s) ∧
      (afterEntries i es s).xferCount = s.xferCount + tableTransfers s.cfg es := by
  induction es generalizing i s with
  | nil => exact ⟨rfl, rfl⟩
  | cons e es ih =>
    rw [tableTransfers_cons] at hx ⊢
    obtain ⟨hok, hcount⟩ := ih (i + 1) _ (hr.afterEntry i e.opcode e.params e.postDelayMs) (hx.shift rfl rfl)
    refine ⟨?_, ?_⟩
    · rw [sendEntries, sendEntry_ok i e.opcode e.params e.postDelayMs s hr (hx.mono (Nat.le_add_right _ _)),
        Result.andThen_ok, hok, afterEntries]
    · rw [afterEntries, hcount, ← Nat.add_assoc]
      rfl

/-- A trace without a delay and without the end of a bracket: what a command that fails leaves. -/
def Unfinished (es : List Event) : Prop := (∀ ms, .delay ms ∉ es) ∧ .csDeassert ∉ es

/-- A command failed in transfer `k`: FAULT holds it, INIT_IDX stands, and its events are unfinished. -/
structure CommandFailed (s : State) (k : Nat) (t : State) : Prop where
  phase : t.phase = .halted
  initIdx : t.initIdx = s.initIdx
  fault : t.fault = some (s.fault.getD ⟨.transferError, .transfer k⟩)
  events : ∃ es, t.trace = s.trace ++ es ∧ Unfinished es

theorem unfinished_map_xfer (dc : Level) (parts : List (List Byte)) : Unfinished (parts.map (.xfer dc)) := by
  simp [Unfinished]

theorem Unfinished.append {es fs : List Event} (h : Unfinished es) (g : Unfinished fs) : Unfinished (es ++ fs) := by
  simpa [Unfinished, h.2, g.2] using fun ms => ⟨h.1 ms, g.1 ms⟩

/-- The transfer that fails comes after events of an unfinished command. -/
theorem commandFailed_of_fault {s u : State} {k : Nat} {es : List Event} (bytes : List Byte) (p : Nat)
    (hi : u.initIdx = s.initIdx) (hf : u.fault = s.fault) (hk : u.xferCount = k) (ht : u.trace = s.trace ++ es)
    (hes : Unfinished es) : CommandFailed s k (afterTransferFault bytes p u) where
  phase := rfl
  initIdx := hi
  fault := by simp [afterTransferFault, hf, hk]
  events := by
    refine ⟨es ++ if bytes.take p = [] then [] else [.xfer u.pins.dc (bytes.take p)], ?_, hes.append ?_⟩
    · simp [afterTransferFault, ht]
    · split <;> simp [Unfinished]

/-- SEND_COMMAND raises in the transfer that is the first to fail, whichever of its payloads that belongs to. -/
theorem sendCommand_fails {s : State} {ps : List Byte} {j p : Nat} (hr : FramerReady s)
    (hj : j < commandTransfers s.cfg ps) (hx : TransfersOk s j) (hp : s.env.xferFault (s.xferCount + j) = some p)
    (op : Byte) : ∃ t, sendCommand op ps s = .raised t ∧ CommandFailed s (s.xferCount + j) t := by
  cases hd : s.cfg.paramDc with
  | low =>
    simp only [commandTransfers, hd] at hj
    obtain ⟨m, -, h⟩ := sendCommand_fault_low (op := op) hr hd hj hx hp
    refine ⟨_, h, commandFailed_of_fault _ p rfl rfl rfl (List.append_assoc _ _ _) ?_⟩
    exact .append (by simp [Unfinished]) (unfinished_map_xfer _ _)
  | high =>
    simp only [commandTransfers, hd] at hj
    cases j with
    | zero =>
      obtain ⟨m, -, h⟩ := sendCommand_fault_opcode (op := op) (ps := ps) hr hd hp
      exact ⟨_, h, commandFailed_of_fault (es := [.pin .dc .low, .csAssert]) _ p rfl rfl rfl rfl
        (by simp [Unfinished])⟩
    | succ i =>
      obtain ⟨m, -, h⟩ := sendCommand_fault_params (op := op) (ps := ps) hr hd (by omega) hx hp
      refine ⟨_, h, commandFailed_of_fault _ p rfl rfl rfl (List.append_assoc _ _ _) ?_⟩
      exact .append (by simp [Unfinished]) (unfinished_map_xfer _ _)

/-- Settles O22: the entries before it complete, and the entry that fails has written its index. -/
theorem configureFaultKeepsTheEntry : Obligations.ConfigureFaultKeepsTheEntry := by
  intro s sent rest e j p hl hphase hr hfault htable hj hx hp
  let c : State := { s with phase := .configuringInterface }
  obtain ⟨hsent, hcount⟩ := sendEntries_ok_of_count sent 0 c hr (hx.mono (Nat.le_add_right _ _))
  obtain ⟨hcfg, henv, hkept, -, -, -, -, htrace⟩ := afterEntries_keeps sent 0 c
  let u : State := { afterEntries 0 sent c with initIdx := sent.length }
  have hu : FramerReady u := hr.afterEntries (s := c) sent 0
  obtain ⟨t, ht, hfailed⟩ := sendCommand_fails (s := u) (ps := e.params) (j := j) (p := p) hu
    (by rw [show u.cfg = s.cfg from hcfg]; exact hj) (hx.shift henv hcount)
    (by rw [show u.env = s.env from henv, show u.xferCount = _ from hcount, Nat.add_assoc]; exact hp) e.opcode
  have hconf : configure s = .raised t := by
    rw [configure, requirePhase_of_eq hphase, htable, sendEntries_append, hsent, Result.andThen_ok, sendEntries,
      sendEntry, Nat.zero_add, ht]
    rfl
  obtain ⟨es, hes, hunfinished⟩ := hfailed.events
  refine ⟨t, es, ?_, hfailed.phase, hfailed.initIdx, ?_, ?_, hunfinished⟩
  · rw [exec_of_live hl, bodyOf, hconf, Result.outcome_raised]
  · rw [hfailed.fault, show u.fault = none from hkept.trans hfault, show u.xferCount = _ from hcount, Nat.add_assoc]
    rfl
  · rw [hes, show u.trace = _ from htrace]

end Sys2Proof.Machine
end

section
/-! The shape and the number of INIT's events (42_controller_init.md section 4). -/
namespace Sys2Proof.Machine

/-- A payload with a byte makes a transfer. -/
theorem chunkCount_pos {n len : Nat} (hn : 0 < n) (h : 0 < len) : 0 < chunkCount n len :=
  Nat.div_pos (by omega) hn

theorem commandTransfers_pos {cfg : Cfg} (hn : 0 < cfg.bufSize) (ps : List Byte) : 0 < commandTransfers cfg ps := by
  unfold commandTransfers
  split
  · exact chunkCount_pos hn (Nat.succ_pos _)
  · omega

theorem streamEvents_length (cfg : Cfg) (dc : Level) (payload : List Byte) :
    (streamEvents cfg dc payload).length = chunkCount cfg.bufSize payload.length := by
  simp [streamEvents]

/-- A command adds to the four events of one write its further transfers and its change of DC. -/
theorem commandEvents_length {cfg : Cfg} (hn : 0 < cfg.bufSize) (op : Byte) (ps : List Byte) :
    (commandEvents cfg op ps).length = 4 + extraEvents cfg ps := by
  have hpos := commandTransfers_pos hn ps
  have hbody : (commandBody cfg op ps).length =
      commandTransfers cfg ps + if cfg.paramDc = .high ∧ ps ≠ [] then 1 else 0 := by
    cases hd : cfg.paramDc with
    | low => simp [commandBody, commandTransfers, hd, streamEvents_length]
    | high =>
      by_cases hps : ps = []
      · simp [commandBody, commandTransfers, hd, hps, streamEvents_length, chunkCount_one hn]
      · simp [commandBody, commandTransfers, hd, hps, streamEvents_length, chunkCount_one hn]
        omega
  simp only [commandEvents, List.length_append, hbody, extraEvents, List.length_cons, List.length_nil]
  omega

theorem postDelayEvents_length (ms : Nat) : (postDelayEvents ms).length = if 0 < ms then 1 else 0 := by
  unfold postDelayEvents
  split <;> rfl

theorem tableEvents_length {cfg : Cfg} (hn : 0 < cfg.bufSize) :
    (tableEvents cfg).length = (cfg.initTable.map fun e =>
      4 + extraEvents cfg e.params + (if 0 < e.postDelayMs then 1 else 0)).sum := by
  simp only [tableEvents, List.length_flatMap, entryEvents, List.length_append, commandEvents_length hn,
    postDelayEvents_length]

theorem pin_rst_not_mem_streamEvents (cfg : Cfg) (dc v : Level) (payload : List Byte) :
    .pin .rst v ∉ streamEvents cfg dc payload := by
  simp [streamEvents]

theorem pin_rst_not_mem_commandEvents (cfg : Cfg) (op : Byte) (ps : List Byte) (v : Level) :
    .pin .rst v ∉ commandEvents cfg op ps := by
  unfold commandEvents commandBody
  split
  · simp [pin_rst_not_mem_streamEvents]
  · split <;> simp [pin_rst_not_mem_streamEvents]

theorem pin_rst_not_mem_tableEvents (cfg : Cfg) (v : Level) : .pin .rst v ∉ tableEvents cfg := by
  intro h
  obtain ⟨e, -, he⟩ := List.mem_flatMap.mp h
  rcases List.mem_append.mp he with h | h
  · exact pin_rst_not_mem_commandEvents _ _ _ _ h
  · unfold postDelayEvents at h
    split at h <;> simp at h

/-- Settles O24: after the pulse INIT appends the table's events. -/
theorem initEventShape : Obligations.InitEventShape := by
  intro s hl hp hr hx
  refine ⟨afterConfigure (afterResetPulse s), tableEvents s.cfg, ?_, ?_, pin_rst_not_mem_tableEvents s.cfg, ?_⟩
  · rw [exec_of_live hl, bodyOf, initialise_ok hp hr hx, Result.outcome_ok]
  · rw [afterConfigure_afterResetPulse_trace, List.append_assoc]
    rfl
  · rw [tableEvents_length hr.2.2]

end Sys2Proof.Machine
end

section
/-! What a pixel write puts on the wire, and that a fill's events depend on the configuration alone
(43_window_pixels.md section 5, 41_framer.md section 5). -/
namespace Sys2Proof.Machine

theorem symbols_append (es fs : List Event) : symbols (es ++ fs) = symbols es ++ symbols fs := by
  induction es with
  | nil => rfl
  | cons e es ih => cases e <;> simp [symbols, ih]

theorem symbols_flatMap {α : Type} (f : α → List Event) (xs : List α) :
    symbols (xs.flatMap f) = xs.flatMap fun x => symbols (f x) := by
  induction xs with
  | nil => rfl
  | cons x xs ih => simp [symbols_append, ih]

theorem symbols_map_xfer (dc : Level) (parts : List (List Byte)) :
    symbols (parts.map (.xfer dc)) = parts.flatten.map fun b => ⟨dc, b⟩ := by
  induction parts with
  | nil => rfl
  | cons part parts ih => simp [symbols, ih]

/-- The symbols of a payload do not show its chunks. -/
theorem symbols_streamEvents {cfg : Cfg} (hn : 0 < cfg.bufSize) (dc : Level) (payload : List Byte) :
    symbols (streamEvents cfg dc payload) = payload.map fun b => ⟨dc, b⟩ := by
  rw [streamEvents, symbols_map_xfer, chunks_flatten hn]

theorem symbols_commandEvents {cfg : Cfg} (hn : 0 < cfg.bufSize) (op : Byte) (ps : List Byte) :
    symbols (commandEvents cfg op ps) = commandSymbols cfg op ps := by
  cases hd : cfg.paramDc with
  | low => simp [commandEvents, commandBody, commandSymbols, hd, symbols, symbols_append, symbols_streamEvents hn]
  | high =>
    by_cases hps : ps = [] <;>
      simp [commandEvents, commandBody, commandSymbols, hd, hps, symbols, symbols_append, symbols_streamEvents hn]

theorem symbols_pixelEvents {cfg : Cfg} (hn : 0 < cfg.bufSize) (px : List U16) :
    symbols (pixelEvents cfg px) = pixelSymbols cfg px := by
  simp [pixelEvents, pixelSymbols, symbols, symbols_append, symbols_streamEvents hn]

theorem symbols_drawEvents {cfg : Cfg} (hn : 0 < cfg.bufSize) (w : Window) (px : List U16) :
    symbols (drawEvents cfg w px) =
      (windowCmds cfg w).flatMap (fun c => commandSymbols cfg c.opcode c.params) ++ [⟨.low, cfg.opcMemwr⟩] ++
        pixelSymbols cfg px := by
  simp [drawEvents, windowEvents, writeEvents, symbols_append, symbols_flatMap, symbols_commandEvents hn,
    symbols_pixelEvents hn, commandSymbols]

theorem afterSetPixels_trace (w : Window) (px : List U16) (s : State) :
    (afterSetPixels w px s).trace = s.trace ++ drawEvents s.cfg w px := by
  obtain ⟨-, -, -, htrace⟩ := afterSetPixels_keeps w px s
  rw [htrace, List.append_assoc, drawEvents]

/-- Settles O33: the symbols of the window's commands, the opcode and the payload, in that order. -/
theorem pixelWriteFollowsItsWindow : Obligations.PixelWriteFollowsItsWindow := by
  intro s x0 y0 x1 y1 px hl hp hb hn hr he hx
  refine ⟨_, drawEvents s.cfg ⟨x0, y0, x1, y1⟩ px, exec_setPixels_of_ok hl hp hb hn hr he hx,
    afterSetPixels_trace _ px s, symbols_drawEvents hr.2.2 _ px, ?_⟩
  rw [pixelSymbols, List.length_map, pixelPayload_length, hn, pixelCount]

/-- FILL_RECT accepted, its checks passed, with every transfer succeeding (43_window_pixels.md R147). -/
theorem exec_fillRect_of_ok {s : State} {x0 y0 x1 y1 : U16} (hl : Live s) (hp : s.phase = .ready)
    (hb : inBounds s.cfg ⟨x0, y0, x1, y1⟩ = true) (hr : FramerReady s) (he : s.cfg.bufSize % 2 = 0)
    (hx : AllTransfersOk s) (color : U16) : exec (.fillRect x0 y0 x1 y1 color) s =
      .next (afterSetPixels ⟨x0, y0, x1, y1⟩ (List.replicate (pixelCount ⟨x0, y0, x1, y1⟩) color) s) := by
  rw [exec_of_live hl, bodyOf, fillRect_ok hp hb hr he hx, Result.outcome_ok]

/-- Settles O34: the events of a fill are a function of the configuration and the operands. -/
theorem sameFillSameEvents : Obligations.SameFillSameEvents := by
  intro s s' x0 y0 x1 y1 color hl hl' hp hp' hcfg hb hr hr' he hx hx'
  refine ⟨_, _, drawEvents s.cfg ⟨x0, y0, x1, y1⟩ _, exec_fillRect_of_ok hl hp hb hr he hx color,
    exec_fillRect_of_ok hl' hp' (hcfg ▸ hb) hr' (hcfg ▸ he) hx' color, afterSetPixels_trace _ _ s, ?_⟩
  rw [afterSetPixels_trace, hcfg]

end Sys2Proof.Machine
end

section
/-! The informative peer: the write pointer walks the window row by row (20_memory.md R47; PRESUMED, log 30). -/
namespace Sys2Proof.Machine

/-- A window's width and height in pixels. -/
def windowWidth (w : Window) : Nat := w.x1.toNat - w.x0.toNat + 1
def windowHeight (w : Window) : Nat := w.y1.toNat - w.y0.toNat + 1

/-- The pointer past row `q`, column `r` of the window: the next column, or the first of the next row. -/
def nextPlace (w : Window) (q r : Nat) : Nat × Nat := if r + 1 < windowWidth w then (q, r + 1) else (q + 1, 0)

/-- The place after one has the next number in row order. -/
theorem nextPlace_number {w : Window} {q r : Nat} (hr : r < windowWidth w) :
    (nextPlace w q r).1 * windowWidth w + (nextPlace w q r).2 = q * windowWidth w + r + 1 ∧
      (nextPlace w q r).2 < windowWidth w := by
  unfold nextPlace
  split
  · next h => exact ⟨rfl, h⟩
  · next h =>
    have hlast : r + 1 = windowWidth w := by omega
    exact ⟨by simp only [Nat.succ_mul, Nat.add_zero]; omega, Nat.succ_pos _⟩

/-- The pointer moves as `nextPlace` says while a further row is in the window. -/
theorem nextCell_eq {w : Window} {q r : Nat} (hx : w.x0 ≤ w.x1) (hr : r < windowWidth w)
    (hq : (nextPlace w q r).1 < windowHeight w) :
    nextCell w (w.x0.toNat + r) (w.y0.toNat + q) =
      (w.x0.toNat + (nextPlace w q r).2, w.y0.toNat + (nextPlace w q r).1) := by
  have hx' : w.x0.toNat ≤ w.x1.toNat := hx
  unfold nextPlace at hq ⊢
  unfold nextCell
  unfold windowWidth at *
  unfold windowHeight at hq
  split at hq
  · next h =>
    rw [if_pos h, if_pos (by omega), Nat.add_assoc]
  · next h =>
    simp only at hq
    rw [if_neg h, if_neg (by omega), if_pos (by omega), Nat.add_assoc]
    rfl

/-- A place is determined by its number. -/
theorem place_eq_of_number_eq {n q r q' r' : Nat} (hr : r < n) (hr' : r' < n) (h : q * n + r = q' * n + r') :
    q = q' ∧ r = r' := by
  have hdiv := congrArg (· / n) h
  have hn : 0 < n := by omega
  simp only [Nat.mul_comm _ n, Nat.mul_add_div hn, Nat.div_eq_of_lt hr, Nat.div_eq_of_lt hr', Nat.add_zero] at hdiv
  subst hdiv
  exact ⟨rfl, by omega⟩

/-- From the pointer at place `(q, r)` on, each cell of the window gets the pixel of its number, if there is one. -/
theorem peerFill_inside {w : Window} (hx : w.x0 ≤ w.x1) (ps : List U16) {q r : Nat} (fm : FrameMemory)
    (px py : Nat) (hpointer : ps ≠ [] → px = w.x0.toNat + r ∧ py = w.y0.toNat + q) (hr : r < windowWidth w)
    (hfit : q * windowWidth w + r + ps.length ≤ windowHeight w * windowWidth w) {q' r' : Nat}
    (hr' : r' < windowWidth w) :
    peerFill w ps px py fm (w.x0.toNat + r') (w.y0.toNat + q') =
      if q * windowWidth w + r ≤ q' * windowWidth w + r' then
        (ps[q' * windowWidth w + r' - (q * windowWidth w + r)]?).getD (fm (w.x0.toNat + r') (w.y0.toNat + q'))
      else fm (w.x0.toNat + r') (w.y0.toNat + q') := by
  induction ps generalizing q r fm px py with
  | nil => simp [peerFill]
  | cons p ps ih =>
    obtain ⟨rfl, rfl⟩ := hpointer (List.cons_ne_nil p ps)
    obtain ⟨hnumber, hcolumn⟩ := nextPlace_number (q := q) hr
    simp only [List.length_cons] at hfit
    have hnext : ps ≠ [] → nextCell w (w.x0.toNat + r) (w.y0.toNat + q) =
        (w.x0.toNat + (nextPlace w q r).2, w.y0.toNat + (nextPlace w q r).1) := by
      intro hps
      have hlen := List.length_pos_of_ne_nil hps
      refine nextCell_eq hx hr (Nat.lt_of_mul_lt_mul_right (a := windowWidth w) ?_)
      omega
    rw [peerFill, ih (q := (nextPlace w q r).1) (r := (nextPlace w q r).2) _ _ _
      (fun hps => by rw [hnext hps]; exact ⟨rfl, rfl⟩) hcolumn (by rw [hnumber]; omega), hnumber]
    by_cases hplace : q * windowWidth w + r = q' * windowWidth w + r'
    · obtain ⟨rfl, rfl⟩ := place_eq_of_number_eq hr hr' hplace
      simp [frameWrite]
    · have hcell : ¬(w.x0.toNat + r' = w.x0.toNat + r ∧ w.y0.toNat + q' = w.y0.toNat + q) := by
        rintro ⟨h1, h2⟩
        obtain rfl : r' = r := by omega
        obtain rfl : q' = q := by omega
        exact hplace rfl
      simp only [frameWrite, if_neg hcell]
      by_cases hle : q * windowWidth w + r ≤ q' * windowWidth w + r'
      · obtain ⟨d, hd⟩ := Nat.exists_eq_add_of_lt (lt_of_le_of_ne hle hplace)
        rw [if_pos hle, if_pos (by omega), hd,
          show q * windowWidth w + r + d + 1 - (q * windowWidth w + r + 1) = d by omega,
          show q * windowWidth w + r + d + 1 - (q * windowWidth w + r) = d + 1 by omega, List.getElem?_cons_succ]
      · rw [if_neg hle, if_neg (by omega)]

/-- A cell of the window. -/
abbrev InWindow (w : Window) (x y : Nat) : Prop :=
  w.x0.toNat ≤ x ∧ x ≤ w.x1.toNat ∧ w.y0.toNat ≤ y ∧ y ≤ w.y1.toNat

/-- The pointer never leaves the window. -/
theorem inWindow_nextCell {w : Window} {x y : Nat} (h : InWindow w x y) :
    InWindow w (nextCell w x y).1 (nextCell w x y).2 := by
  obtain ⟨h1, h2, h3, h4⟩ := h
  unfold nextCell
  split_ifs <;> refine ⟨?_, ?_, ?_, ?_⟩ <;> simp only <;> omega

/-- No cell outside the window changes. -/
theorem peerFill_outside {w : Window} (ps : List U16) (fm : FrameMemory) {px py x y : Nat} (hp : InWindow w px py)
    (hxy : ¬InWindow w x y) : peerFill w ps px py fm x y = fm x y := by
  induction ps generalizing px py fm with
  | nil => rfl
  | cons p ps ih =>
    rw [peerFill, ih _ (inWindow_nextCell hp), frameWrite, if_neg]
    rintro ⟨rfl, rfl⟩
    exact hxy hp

theorem pixelCount_eq (w : Window) : pixelCount w = windowHeight w * windowWidth w := Nat.mul_comm _ _

/-- Settles O35: the pointer starts at the window's first place, with as many pixels as places. -/
theorem peerWritesEachCellOnce : Obligations.PeerWritesEachCellOnce := by
  intro w ps fm x y hx hy hn
  have hx' : w.x0.toNat ≤ w.x1.toNat := hx
  have hy' : w.y0.toNat ≤ w.y1.toNat := hy
  refine ⟨fun h1 h2 h3 h4 => ?_, peerFill_outside ps fm ⟨le_rfl, hx', le_rfl, hy'⟩⟩
  obtain ⟨r, rfl⟩ := Nat.exists_eq_add_of_le h1
  obtain ⟨q, rfl⟩ := Nat.exists_eq_add_of_le h3
  have hr : r < windowWidth w := by unfold windowWidth; omega
  have hq : q + 1 ≤ windowHeight w := by unfold windowHeight; omega
  have hfill := peerFill_inside hx ps (q := 0) (r := 0) fm w.x0.toNat w.y0.toNat (fun _ => ⟨rfl, rfl⟩)
    (Nat.succ_pos _) (by rw [hn, pixelCount_eq]; omega) (q' := q) hr
  have hplace : q * windowWidth w + r < ps.length := by
    rw [hn, pixelCount_eq]
    calc q * windowWidth w + r < (q + 1) * windowWidth w := by rw [Nat.succ_mul]; omega
      _ ≤ windowHeight w * windowWidth w := Nat.mul_le_mul_right _ hq
  rw [peerWrite, hfill, if_pos (by omega), Nat.add_sub_cancel_left, Nat.add_sub_cancel_left, ← windowWidth]
  simp [List.getElem?_eq_getElem hplace]

end Sys2Proof.Machine
end

section
/-! WINDOW_CMDS: what `lawful` comes to (30_encoding.md R68; log 12). -/
namespace Sys2Proof.Machine

theorem sendsByte_iff {cmds : List (WinCmd WinByte)} {b : WinByte} :
    sendsByte cmds b = true ↔ ∃ c ∈ cmds, b ∈ c.params := by
  simp [sendsByte]

/-- A layout is lawful exactly when it sends both bytes of each coordinate. -/
theorem lawful_layout_iff {cmds : List (WinCmd WinByte)} : (WindowScheme.layout cmds).lawful = true ↔
    ∀ c, sendsByte cmds (.hi c) = true ∧ sendsByte cmds (.lo c) = true := by
  simp only [WindowScheme.lawful, Bool.and_eq_true]
  constructor
  · rintro ⟨⟨⟨⟨⟨⟨⟨h1, h2⟩, h3⟩, h4⟩, h5⟩, h6⟩, h7⟩, h8⟩ c
    cases c with
    | x0 => exact ⟨h1, h2⟩
    | y0 => exact ⟨h3, h4⟩
    | x1 => exact ⟨h5, h6⟩
    | y1 => exact ⟨h7, h8⟩
  · exact fun h => ⟨⟨⟨⟨⟨⟨⟨(h .x0).1, (h .x0).2⟩, (h .y0).1⟩, (h .y0).2⟩, (h .x1).1⟩, (h .x1).2⟩, (h .y1).1⟩, (h .y1).2⟩

/-- A layout's commands agree on two windows exactly when every byte it sends does. -/
theorem windowCmds_layout_eq_iff {cfg : Cfg} {cmds : List (WinCmd WinByte)} (h : cfg.windowCmds = .layout cmds)
    (w w' : Window) : windowCmds cfg w = windowCmds cfg w' ↔
      ∀ b, sendsByte cmds b = true → winByte w b = winByte w' b := by
  simp only [windowCmds, h, windowScheme, List.map_map, List.map_inj_left, Function.comp, WinCmd.sent, Cmd.mk.injEq,
    true_and, sendsByte_iff]
  exact ⟨fun hc b ⟨c, hcm, hb⟩ => hc c hcm b hb, fun hb c hcm b hbm => hb b ⟨c, hcm, hbm⟩⟩

theorem Window.eq_of_coordOf {w w' : Window} (h : ∀ c, coordOf w c = coordOf w' c) : w = w' := by
  obtain ⟨x0, y0, x1, y1⟩ := w
  obtain ⟨x0', y0', x1', y1'⟩ := w'
  obtain rfl : x0 = x0' := h .x0
  obtain rfl : y0 = y0' := h .y0
  obtain rfl : x1 = x1' := h .x1
  obtain rfl : y1 = y1' := h .y1
  rfl

/-- The window of the whole plane with one coordinate changed: a start coordinate keeps below its end. -/
def windowWith (c : Coord) (v : U16) : Window :=
  match c with
  | .x0 => ⟨v, 0, 0xFFFF, 0⟩
  | .y0 => ⟨0, v, 0, 0xFFFF⟩
  | .x1 => ⟨0, 0, v, 0⟩
  | .y1 => ⟨0, 0, 0, v⟩

theorem windowWith_ordered (c : Coord) (v : U16) :
    (windowWith c v).x0 ≤ (windowWith c v).x1 ∧ (windowWith c v).y0 ≤ (windowWith c v).y1 := by
  cases c <;> simp only [windowWith] <;> constructor <;> bv_omega

theorem coordOf_windowWith_same (c : Coord) (v : U16) : coordOf (windowWith c v) c = v := by
  cases c <;> rfl

theorem coordOf_windowWith_other {c c' : Coord} (h : c' ≠ c) (v v' : U16) :
    coordOf (windowWith c v) c' = coordOf (windowWith c v') c' := by
  cases c with
  | x0 =>
    cases c' with
    | x0 => exact absurd rfl h
    | y0 | x1 | y1 => rfl
  | y0 =>
    cases c' with
    | y0 => exact absurd rfl h
    | x0 | x1 | y1 => rfl
  | x1 =>
    cases c' with
    | x1 => exact absurd rfl h
    | x0 | y0 | y1 => rfl
  | y1 =>
    cases c' with
    | y1 => exact absurd rfl h
    | x0 | y0 | x1 => rfl

/-- Two values of a coordinate with the same less significant byte differ in no other byte a layout can send. -/
theorem winByte_windowWith_of_ne_hi {c : Coord} {b : WinByte} (hb : b ≠ .hi c) {v v' : U16}
    (hlo : loByte v = loByte v') : winByte (windowWith c v) b = winByte (windowWith c v') b := by
  cases b with
  | lit b => rfl
  | hi c' =>
    have hc : c' ≠ c := fun h => hb (congrArg _ h)
    exact congrArg hiByte (coordOf_windowWith_other hc v v')
  | lo c' =>
    by_cases hc : c' = c
    · simpa only [winByte, hc, coordOf_windowWith_same] using hlo
    · exact congrArg loByte (coordOf_windowWith_other hc v v')

/-- The same of two values with the same more significant byte. -/
theorem winByte_windowWith_of_ne_lo {c : Coord} {b : WinByte} (hb : b ≠ .lo c) {v v' : U16}
    (hhi : hiByte v = hiByte v') : winByte (windowWith c v) b = winByte (windowWith c v') b := by
  cases b with
  | lit b => rfl
  | lo c' =>
    have hc : c' ≠ c := fun h => hb (congrArg _ h)
    exact congrArg loByte (coordOf_windowWith_other hc v v')
  | hi c' =>
    by_cases hc : c' = c
    · simpa only [winByte, hc, coordOf_windowWith_same] using hhi
    · exact congrArg hiByte (coordOf_windowWith_other hc v v')

/-- What R68 requires of the commands of a configuration: never none, and distinct for distinct rectangles. -/
def AdmitsWindows (cfg : Cfg) : Prop :=
  (∀ w, windowCmds cfg w ≠ []) ∧
  ∀ w w' : Window, w.x0 ≤ w.x1 → w.y0 ≤ w.y1 → w'.x0 ≤ w'.x1 → w'.y0 ≤ w'.y1 →
    windowCmds cfg w = windowCmds cfg w' → w = w'

/-- Rectangles of two values of a coordinate have distinct commands, so the layout tells the values apart. -/
theorem AdmitsWindows.exists_sent_byte {cfg : Cfg} {cmds : List (WinCmd WinByte)} (ha : AdmitsWindows cfg)
    (h : cfg.windowCmds = .layout cmds) (c : Coord) {v v' : U16} (hv : v ≠ v') :
    ∃ b, sendsByte cmds b = true ∧ winByte (windowWith c v) b ≠ winByte (windowWith c v') b := by
  by_contra hsame
  push Not at hsame
  obtain ⟨hx, hy⟩ := windowWith_ordered c v
  obtain ⟨hx', hy'⟩ := windowWith_ordered c v'
  have hw := ha.2 _ _ hx hy hx' hy' ((windowCmds_layout_eq_iff h _ _).mpr hsame)
  have hcoord := congrArg (coordOf · c) hw
  simp only [coordOf_windowWith_same] at hcoord
  exact hv hcoord

theorem lawful_layout_of_admits {cfg : Cfg} {cmds : List (WinCmd WinByte)} (h : cfg.windowCmds = .layout cmds)
    (ha : AdmitsWindows cfg) : (WindowScheme.layout cmds).lawful = true := by
  refine lawful_layout_iff.mpr fun c => ⟨?_, ?_⟩
  · obtain ⟨b, hb, hne⟩ := ha.exists_sent_byte h c (show (0x000 : U16) ≠ 0x100 by decide)
    by_cases hbc : b = .hi c
    · exact hbc ▸ hb
    · exact absurd (winByte_windowWith_of_ne_hi hbc (by decide)) hne
  · obtain ⟨b, hb, hne⟩ := ha.exists_sent_byte h c (show (0x00 : U16) ≠ 0x01 by decide)
    by_cases hbc : b = .lo c
    · exact hbc ▸ hb
    · exact absurd (winByte_windowWith_of_ne_lo hbc (by decide)) hne

theorem admits_of_lawful_layout {cfg : Cfg} {cmds : List (WinCmd WinByte)} (h : cfg.windowCmds = .layout cmds)
    (hl : (WindowScheme.layout cmds).lawful = true) : AdmitsWindows cfg := by
  have hsent := lawful_layout_iff.mp hl
  refine ⟨fun w => ?_, fun w w' _ _ _ _ hw => Window.eq_of_coordOf fun c => ?_⟩
  · obtain ⟨c, hc, -⟩ := sendsByte_iff.mp (hsent .x0).1
    simp [windowCmds, h, windowScheme, List.ne_nil_of_mem hc]
  · have hbyte := (windowCmds_layout_eq_iff h w w').mp hw
    exact U16.eq_of_bytes (hbyte _ (hsent c).1) (hbyte _ (hsent c).2)

/-- A free function has what R68 requires by its type. -/
theorem admits_of_free {cfg : Cfg} {id : Nat} (h : cfg.windowCmds = .free id) : AdmitsWindows cfg := by
  refine ⟨fun w => ?_, fun w w' h1 h2 h3 h4 hw => ?_⟩
  · simpa [windowCmds, h, windowScheme] using (Config.freeWindowCmds id).nonempty w.x0 w.y0 w.x1 w.y1
  · simp only [windowCmds, h, windowScheme] at hw
    obtain ⟨hx0, hy0, hx1, hy1⟩ := (Config.freeWindowCmds id).distinct _ _ _ _ _ _ _ _ _ _ h1 h2 h3 h4 hw
    exact Window.eq_of_coordOf fun c => by cases c <;> assumption

theorem hiByte_eq_ofNat (v : U16) : hiByte v = .ofNat 8 (v.toNat / 256) := by
  apply BitVec.eq_of_toNat_eq
  simp [hiByte, BitVec.extractLsb'_toNat, Nat.shiftRight_eq_div_pow]

theorem loByte_eq_ofNat (v : U16) : loByte v = .ofNat 8 (v.toNat % 256) := by
  apply BitVec.eq_of_toNat_eq
  simp [loByte, BitVec.extractLsb'_toNat]

/-- Settles O60: of a layout by the bytes it sends, of a free function by its type. -/
theorem windowCommandsAreLawful : Obligations.WindowCommandsAreLawful := by
  refine ⟨fun cfg => ?_, fun cfg cfg' w hs hc hr => ?_, fun cfg w h => ?_⟩
  · change _ ↔ AdmitsWindows cfg
    cases h : cfg.windowCmds with
    | layout cmds => exact ⟨admits_of_lawful_layout h, lawful_layout_of_admits h⟩
    | free id => exact ⟨fun _ => admits_of_free h, fun _ => rfl⟩
  · simp only [windowCmds, hs, hc, hr]
  · simp only [windowCmds, h, referenceWindow, windowScheme, List.map_cons, List.map_nil, WinCmd.sent, WinOpcode.byte,
      winByte, coordOf, hiByte_eq_ofNat, loByte_eq_ofNat]

end Sys2Proof.Machine
end

section
/-! What the framer leaves of every register, and what it may leave elsewhere: a transaction that goes on ends where it
began, one that fails halts the block (41_framer.md R101, R104, 60_exceptions.md R164). -/
namespace Sys2Proof.Machine

theorem Result.post_and {r : Result} {Q Q' R R' : State → Prop} (h : r.Post Q R) (h' : r.Post Q' R') :
    r.Post (fun s => Q s ∧ Q' s) fun s => R s ∧ R' s := by
  cases r with
  | ok s => exact ⟨h, h'⟩
  | raised s => exact ⟨h, h'⟩
  | broken e => trivial

/-- The buffer's invariant (10_state.md R19, R33): its canonical form, and that nothing lies above BUF_SIZE. -/
structure BufferOk (bufSize : Nat) (buf : Memory) (bufLen : Nat) : Prop where
  canonical : buf.wf
  inRange : ∀ c ∈ buf, c.1 < bufSize
  length : bufLen ≤ bufSize

theorem BufferOk.store {n len : Nat} {m : Memory} (h : BufferOk n m len) (b : Byte) (hl : len < n) :
    BufferOk n (m.write len b) (len + 1) where
  canonical := Memory.wf_write _ _ _ h.canonical
  inRange c hc := by
    rcases Memory.mem_write _ _ _ c hc with hc | hc
    · exact hc ▸ hl
    · exact h.inRange c hc
  length := hl

theorem BufferOk.drain {n len : Nat} {m : Memory} (h : BufferOk n m len) : BufferOk n m 0 :=
  ⟨h.canonical, h.inRange, Nat.zero_le n⟩

/-- The registers no transaction writes, the pins but DC among them, and the buffer's invariant. -/
structure SameRegisters (s t : State) : Prop where
  initIdx : t.initIdx = s.initIdx
  cfg : t.cfg = s.cfg
  win : t.win = s.win
  winValid : t.winValid = s.winValid
  env : t.env = s.env
  idling : t.idling = s.idling
  requests : t.requests = s.requests
  rst : t.pins.rst = s.pins.rst
  bl : t.pins.bl = s.pins.bl
  buffer : BufferOk s.cfg.bufSize s.buf s.bufLen → BufferOk t.cfg.bufSize t.buf t.bufLen

/-- Inside a transaction: the control state stands too. -/
structure Runs (s t : State) : Prop extends SameRegisters s t where
  phase : t.phase = s.phase
  fault : t.fault = s.fault

/-- A part that went on and is between transactions again, as it was before. -/
structure Settled (s t : State) : Prop extends Runs s t where
  cs : t.cs = s.cs
  bufLen : s.bufLen = 0 → t.bufLen = 0

/-- A part whose transfer failed: the block halted with a TransferError. -/
structure Failed (s t : State) : Prop extends SameRegisters s t where
  phase : t.phase = .halted
  fault : ∃ k, t.fault = some (s.fault.getD ⟨.transferError, .transfer k⟩)

theorem SameRegisters.trans {s m t : State} (h : SameRegisters s m) (g : SameRegisters m t) : SameRegisters s t where
  initIdx := g.initIdx.trans h.initIdx
  cfg := g.cfg.trans h.cfg
  win := g.win.trans h.win
  winValid := g.winValid.trans h.winValid
  env := g.env.trans h.env
  idling := g.idling.trans h.idling
  requests := g.requests.trans h.requests
  rst := g.rst.trans h.rst
  bl := g.bl.trans h.bl
  buffer := g.buffer ∘ h.buffer

theorem Runs.trans {s m t : State} (h : Runs s m) (g : Runs m t) : Runs s t :=
  ⟨h.toSameRegisters.trans g.toSameRegisters, g.phase.trans h.phase, g.fault.trans h.fault⟩

theorem Runs.fail {s m t : State} (h : Runs s m) (g : Failed m t) : Failed s t :=
  ⟨h.toSameRegisters.trans g.toSameRegisters, g.phase, h.fault ▸ g.fault⟩

theorem Settled.refl (s : State) : Settled s s :=
  ⟨⟨⟨rfl, rfl, rfl, rfl, rfl, rfl, rfl, rfl, rfl, id⟩, rfl, rfl⟩, rfl, id⟩

theorem Settled.trans {s m t : State} (h : Settled s m) (g : Settled m t) : Settled s t :=
  ⟨h.toRuns.trans g.toRuns, g.cs.trans h.cs, g.bufLen ∘ h.bufLen⟩

/-- The framer's parts write none of the registers. -/
theorem framerRule_runs : FramerRule Runs Failed where
  refl s := (Settled.refl s).toRuns
  trans := Runs.trans
  fail := Runs.fail
  dc _ _ := ⟨⟨rfl, rfl, rfl, rfl, rfl, rfl, rfl, rfl, rfl, id⟩, rfl, rfl⟩
  begins _ _ := ⟨⟨rfl, rfl, rfl, rfl, rfl, rfl, rfl, rfl, rfl, id⟩, rfl, rfl⟩
  ends _ _ := ⟨⟨rfl, rfl, rfl, rfl, rfl, rfl, rfl, rfl, rfl, id⟩, rfl, rfl⟩
  store _ b hl := ⟨⟨rfl, rfl, rfl, rfl, rfl, rfl, rfl, rfl, rfl, fun h => h.store b hl⟩, rfl, rfl⟩
  drain _ := ⟨⟨rfl, rfl, rfl, rfl, rfl, rfl, rfl, rfl, rfl, fun h => h.drain⟩, rfl, rfl⟩
  moves _ _ _ _ _ _ := ⟨⟨rfl, rfl, rfl, rfl, rfl, rfl, rfl, rfl, rfl, id⟩, rfl, rfl⟩
  faults s _ _ _ _ _ _ :=
    ⟨⟨rfl, rfl, rfl, rfl, rfl, rfl, rfl, rfl, rfl, id⟩, rfl, s.xferCount, rfl⟩

theorem settled_emit (e : Event) (s : State) : Settled s (emit e s) :=
  ⟨⟨⟨rfl, rfl, rfl, rfl, rfl, rfl, rfl, rfl, rfl, id⟩, rfl, rfl⟩, rfl, id⟩

theorem settled_setDc (v : Level) (s : State) : Settled s (setPin .dc v s) :=
  ⟨⟨⟨rfl, rfl, rfl, rfl, rfl, rfl, rfl, rfl, rfl, id⟩, rfl, rfl⟩, rfl, id⟩

/-- One settled part after another. -/
theorem settled_andThen {s : State} {r : Result} {f : State → Result} (hr : r.Post (Settled s) (Failed s))
    (hf : ∀ m, Settled s m → (f m).Post (Settled m) (Failed m)) : (r.andThen f).Post (Settled s) (Failed s) :=
  Result.post_andThen hr fun m hm => Result.post_mono (hf m hm) (fun _ => hm.trans) fun _ => hm.toRuns.fail

/-- What ends in `flushRest` leaves the buffer empty. -/
theorem flushRest_empties (s : State) : (flushRest s).Post (fun t => t.bufLen = 0) fun _ => True := by
  unfold flushRest
  split
  · exact Result.post_andThen (Q := fun _ => True) (Result.post_mono (framerRule_runs.xfer _ s)
      (fun _ _ => trivial) fun _ _ => trivial) fun m _ => rfl
  · exact Nat.eq_zero_of_not_pos ‹_›

/-- A result of which nothing is said. -/
theorem Result.post_true (r : Result) : r.Post (fun _ => True) fun _ => True := by
  cases r <;> trivial

theorem streamBytes_empties (bs : List Byte) (s : State) :
    (streamBytes bs s).Post (fun t => t.bufLen = 0) fun _ => True :=
  Result.post_andThen (Result.post_true _) fun m _ => flushRest_empties m

theorem streamPixels_empties (px : List U16) (s : State) :
    (streamPixels px s).Post (fun t => t.bufLen = 0) fun _ => True :=
  Result.post_andThen (Result.post_true _) fun m _ => flushRest_empties m

theorem streamCommand_empties (op : Byte) (ps : List Byte) (s : State) :
    (streamCommand op ps s).Post (fun t => t.bufLen = 0) fun _ => True := by
  cases hd : s.cfg.paramDc with
  | low => rw [streamCommand_of_low hd]; exact streamBytes_empties _ s
  | high =>
    rw [streamCommand_of_high hd]
    refine Result.post_andThen (streamBytes_empties [op] s) fun m hm => ?_
    unfold streamDataParams
    split
    · exact hm
    · exact streamBytes_empties ps _

/-- A bracket that goes on found chip-select deasserted and leaves it so (41_framer.md R100). -/
theorem bracket_post {f : State → Result} (hf : ∀ m, (f m).Post (fun t => t.bufLen = 0) fun _ => True) (v : Level)
    (s : State) : (((csAssert (setPin .dc v s)).andThen f).andThen csDeassert).Post
      (fun t => t.cs = s.cs ∧ (s.bufLen = 0 → t.bufLen = 0)) fun _ => True := by
  cases hc : s.cs with
  | asserted => rw [csAssert_of_asserted (s := setPin .dc v s) hc]; trivial
  | deasserted =>
    rw [csAssert_setPin_dc hc, Result.andThen_ok]
    refine Result.post_andThen (hf _) fun m hm => ?_
    cases hm' : m.cs with
    | asserted => rw [csDeassert_of_asserted hm']; exact ⟨rfl, fun _ => hm⟩
    | deasserted => rw [csDeassert_of_deasserted hm']; trivial

/-- A part of the framer that ends between transactions is settled. -/
theorem settled_of_runs {s : State} {r : Result} (h : r.Post (Runs s) (Failed s))
    (hc : r.Post (fun t => t.cs = s.cs ∧ (s.bufLen = 0 → t.bufLen = 0)) fun _ => True) :
    r.Post (Settled s) (Failed s) :=
  Result.post_mono (Result.post_and h hc) (fun _ ⟨hruns, hcs, hlen⟩ => ⟨hruns, hcs, hlen⟩) fun _ hf => hf.1

theorem sendCommand_settled (op : Byte) (ps : List Byte) (s : State) :
    (sendCommand op ps s).Post (Settled s) (Failed s) :=
  settled_of_runs (framerRule_runs.sendCommand op ps s) (bracket_post (streamCommand_empties op ps) .low s)

theorem sendPixels_settled (px : List U16) (s : State) : (sendPixels px s).Post (Settled s) (Failed s) :=
  settled_of_runs (framerRule_runs.sendPixels px s) (bracket_post (streamPixels_empties px) .high s)

theorem xfer_settled (bytes : List Byte) (s : State) : (xfer bytes s).Post (Settled s) (Failed s) := by
  refine settled_of_runs (framerRule_runs.xfer bytes s) ?_
  rcases xfer_cases bytes s with ⟨_, h⟩ | ⟨_, _, h⟩ | ⟨_, _, _, _, h⟩ | ⟨_, _, _, _, _, h⟩ <;> rw [h]
  · trivial
  · trivial
  · exact ⟨rfl, id⟩
  · trivial

theorem sendSymbol_settled (c : ByteClass) (b : Byte) (s : State) : (sendSymbol c b s).Post (Settled s) (Failed s) :=
  Result.post_mono (xfer_settled [b] _) (fun _ => (settled_setDc _ s).trans)
    fun _ => (settled_setDc _ s).toRuns.fail

theorem spiWrite_settled (bytes : List Byte) (s : State) :
    (((csAssert s).andThen (xfer bytes)).andThen csDeassert).Post (Settled s) (Failed s) := by
  refine settled_of_runs (framerRule_runs.seq (framerRule_runs.seq (framerRule_runs.csAssert s)
    fun m _ => framerRule_runs.xfer bytes m) fun m _ => framerRule_runs.csDeassert m) ?_
  cases hc : s.cs with
  | asserted => rw [csAssert_of_asserted hc]; trivial
  | deasserted =>
    rw [csAssert_of_deasserted hc, Result.andThen_ok]
    refine Result.post_andThen (Result.post_mono (xfer_settled bytes _) (fun _ h => h) fun _ _ => trivial)
      fun m hm => ?_
    rw [csDeassert_of_asserted hm.cs]
    exact ⟨rfl, hm.bufLen⟩

theorem sendCommands_settled (cmds : List Cmd) (s : State) : (sendCommands cmds s).Post (Settled s) (Failed s) := by
  induction cmds generalizing s with
  | nil => exact Settled.refl s
  | cons c cmds ih => exact settled_andThen (sendCommand_settled c.opcode c.params s) fun m _ => ih m

end Sys2Proof.Machine
end

section
/-! What the controller's and the drawing operations can do, said once: past their checks they run transactions, and
each other check raises before anything else (42_controller_init.md, 43_window_pixels.md, 60_exceptions.md R167). -/
namespace Sys2Proof.Machine

theorem Settled.set_initIdx {s t : State} (h : Settled s t) (n : Nat) :
    Settled { s with initIdx := n } { t with initIdx := n } :=
  { h with initIdx := rfl }

theorem Settled.set_phase {s t : State} (h : Settled s t) (p : Phase) :
    Settled { s with phase := p } { t with phase := p } :=
  { h with phase := rfl }

theorem Settled.set_winValid {s t : State} (h : Settled s t) (v : Bool) :
    Settled { s with winValid := v } { t with winValid := v } :=
  { h with winValid := rfl }

/-- A halt does not show the phase it came from. -/
theorem Failed.of_phase {s t : State} {p : Phase} (h : Failed { s with phase := p } t) : Failed s t :=
  { h with }

theorem postDelay_settled (ms : Nat) (s : State) : Settled s (postDelay ms s) := by
  unfold postDelay
  split
  · exact settled_emit _ s
  · exact Settled.refl s

/-- One round of CONFIGURE's loop writes INIT_IDX, then runs a transaction. -/
theorem sendEntry_settled (idx : Nat) (op : Byte) (ps : List Byte) (ms : Nat) (s : State) :
    (sendEntry idx op ps ms s).Post (Settled { s with initIdx := idx }) (Failed { s with initIdx := idx }) :=
  settled_andThen (sendCommand_settled op ps _) fun m _ => postDelay_settled ms m

/-- The loop itself: INIT_IDX is that of an entry of the table where a transfer failed. -/
theorem sendEntries_settled (es : List InitEntry) (idx : Nat) (s : State) :
    (sendEntries idx es s).Post (fun t => ∃ n, Settled { s with initIdx := n } t)
      fun t => ∃ n, n < idx + es.length ∧ Failed { s with initIdx := n } t := by
  induction es generalizing idx s with
  | nil => exact ⟨s.initIdx, Settled.refl s⟩
  | cons e es ih =>
    refine Result.post_andThen (Result.post_mono (sendEntry_settled idx _ _ _ s) (fun _ h => h)
      fun t ht => ⟨idx, ?_, ht⟩) fun m hm => Result.post_mono (ih (idx + 1) m) ?_ ?_
    · simp only [List.length_cons]; omega
    · rintro t ⟨n, ht⟩
      exact ⟨n, (hm.set_initIdx n).trans ht⟩
    · rintro t ⟨n, hn, ht⟩
      refine ⟨n, ?_, (hm.set_initIdx n).toRuns.fail ht⟩
      simp only [List.length_cons]; omega

/-- A check failed before anything changed (60_exceptions.md R167); neither of the two conditions that no check
raises is named. -/
def Checked (s t : State) : Prop :=
  ∃ c info, c ≠ .transferError ∧ c ≠ .resourceUnavailable ∧ t = afterRaise c info s

theorem checked_afterRaise {c : FaultCode} (info : FaultInfo) (s : State)
    (hc : c ≠ .transferError ∧ c ≠ .resourceUnavailable := by decide) : Checked s (afterRaise c info s) :=
  ⟨c, info, hc.1, hc.2, rfl⟩

/-- A check of PHASE before a body known from that phase on. -/
theorem requirePhase_post {ph : Phase} {op : CheckedOp} {body : State → Result} {s : State} {Q R : State → Prop}
    (hb : s.phase = ph → (body s).Post Q R) (hr : ∀ t, Checked s t → R t) : (requirePhase ph op body s).Post Q R := by
  by_cases hp : s.phase = ph
  · rw [requirePhase_of_eq hp]; exact hb hp
  · rw [requirePhase_of_ne hp]; exact hr _ (checked_afterRaise _ s)

theorem requireInBounds_post {w : Window} {body : State → Result} {s : State} {Q R : State → Prop}
    (hb : inBounds s.cfg w = true → (body s).Post Q R) (hr : ∀ t, Checked s t → R t) :
    (requireInBounds w body s).Post Q R := by
  cases h : inBounds s.cfg w with
  | true => rw [requireInBounds_of_in h]; exact hb h
  | false => rw [requireInBounds_of_out h]; exact hr _ (checked_afterRaise _ s)

theorem requireCount_post {given n : Nat} {body : State → Result} {s : State} {Q R : State → Prop}
    (hb : given = n → (body s).Post Q R) (hr : ∀ t, Checked s t → R t) : (requireCount given n body s).Post Q R := by
  by_cases h : given = n
  · rw [requireCount_of_eq h]; exact hb h
  · rw [requireCount_of_ne h]; exact hr _ (checked_afterRaise _ s)

/-- CONFIGURE past its check: the table is sent, and INIT_IDX is its length, or an entry's index after a halt. -/
theorem configure_settled {s : State} (hp : s.phase = .resetting) :
    (configure s).Post (Settled { s with initIdx := s.cfg.initTable.length, phase := .ready })
      fun t => ∃ n, n < s.cfg.initTable.length ∧ Failed { s with initIdx := n } t := by
  rw [configure, requirePhase_of_eq hp]
  refine Result.post_andThen (Result.post_mono (sendEntries_settled s.cfg.initTable 0 _) (fun _ h => h) ?_) ?_
  · rintro t ⟨n, hn, ht⟩
    exact ⟨n, by omega, ht.of_phase⟩
  · rintro t ⟨n, ht⟩
    exact (ht.set_initIdx s.cfg.initTable.length).set_phase .ready

theorem configure_outcome (s : State) :
    (configure s).Post
      (fun t => s.phase = .resetting ∧
        Settled { s with initIdx := s.cfg.initTable.length, phase := .ready } t)
      fun t => Checked s t ∨ ∃ n, n < s.cfg.initTable.length ∧ Failed { s with initIdx := n } t := by
  by_cases hp : s.phase = .resetting
  · exact Result.post_mono (configure_settled hp) (fun _ h => ⟨hp, h⟩) fun _ => .inr
  · rw [configure, requirePhase_of_ne hp]
    exact .inl (checked_afterRaise _ s)

/-- INIT past its check: the reset pulse, then CONFIGURE past its own. -/
theorem initialise_settled {s : State} (hp : s.phase = .uninitialized) :
    (initialise s).Post
      (Settled { afterResetPulse s with initIdx := s.cfg.initTable.length, phase := .ready })
      fun t => ∃ n, n < s.cfg.initTable.length ∧ Failed { afterResetPulse s with initIdx := n } t := by
  rw [initialise, requirePhase_of_eq hp, resetPulse_ok hp, Result.andThen_ok]
  exact configure_settled rfl

theorem initialise_outcome (s : State) :
    (initialise s).Post
      (fun t => s.phase = .uninitialized ∧
        Settled { afterResetPulse s with initIdx := s.cfg.initTable.length, phase := .ready } t)
      fun t => Checked s t ∨ s.phase = .uninitialized ∧
        ∃ n, n < s.cfg.initTable.length ∧ Failed { afterResetPulse s with initIdx := n } t := by
  by_cases hp : s.phase = .uninitialized
  · exact Result.post_mono (initialise_settled hp) (fun _ h => ⟨hp, h⟩) fun _ h => .inr ⟨hp, h⟩
  · rw [initialise, requirePhase_of_ne hp]
    exact .inl (checked_afterRaise _ s)

/-- A drawing operation went on: its window is in WIN, with the flag it leaves. -/
def DrawDone (w : Window) (v : Bool) (s t : State) : Prop :=
  s.phase = .ready ∧ (v = true → inBounds s.cfg w = true) ∧ Settled { s with win := w, winValid := v } t

/-- A drawing operation raised: in a check, or in a transfer with the window not valid. -/
def DrawRaised (w : Window) (s t : State) : Prop :=
  Checked s t ∨ s.phase = .ready ∧ Failed { s with win := w, winValid := false } t

/-- SET_WINDOW's two checks, then its commands (43_window_pixels.md R140). -/
theorem setWindow_outcome (w : Window) (s : State) :
    (setWindow w s).Post (DrawDone w true s) (DrawRaised w s) := by
  refine requirePhase_post (fun hp => requireInBounds_post (fun hb => ?_) fun _ => .inl) fun _ => .inl
  exact Result.post_andThen (Result.post_mono (sendCommands_settled _ _) (fun _ h => h) fun _ h => .inr ⟨hp, h⟩)
    fun t ht => ⟨hp, fun _ => hb, ht.set_winValid true⟩

/-- WRITE_PIXELS' three checks, then its two transactions (43_window_pixels.md R142). -/
theorem writePixels_outcome (px : List U16) (s : State) :
    (writePixels px s).Post (DrawDone s.win false s) (DrawRaised s.win s) := by
  refine requirePhase_post (fun hp => ?_) fun _ => .inl
  refine require_post (fun _ => ?_) fun _ => .inl (checked_afterRaise _ s)
  refine requireCount_post (fun _ => ?_) fun _ => .inl
  exact Result.post_mono (settled_andThen (sendCommand_settled s.cfg.opcMemwr [] { s with winValid := false })
    fun m _ => sendPixels_settled px m) (fun t ht => ⟨hp, nofun, ht⟩) fun t ht => .inr ⟨hp, ht⟩

/-- WRITE_PIXELS past its checks. -/
theorem writePixels_settled {px : List U16} {s : State} (hp : s.phase = .ready) (hw : s.winValid = true)
    (hn : px.length = pixelCount s.win) :
    (writePixels px s).Post (Settled { s with winValid := false }) (Failed { s with winValid := false }) := by
  rw [writePixels, requirePhase_of_eq hp, requireWindow_of_valid hw, requireCount_of_eq hn]
  exact settled_andThen (sendCommand_settled _ [] _) fun m _ => sendPixels_settled px m

/-- SET_PIXELS' three checks; those of its two parts cannot fail then (43_window_pixels.md R144). -/
theorem setPixels_outcome (w : Window) (px : List U16) (s : State) :
    (setPixels w px s).Post (DrawDone w false s) (DrawRaised w s) := by
  refine requirePhase_post (fun hp => requireInBounds_post (fun hb => requireCount_post (fun hn => ?_)
    fun _ => .inl) fun _ => .inl) fun _ => .inl
  refine Result.post_andThen (setWindow_outcome w s) fun m ⟨_, _, hm⟩ => ?_
  have hcount : px.length = pixelCount m.win := by rw [hm.win]; exact hn
  have hm' := hm.set_winValid false
  exact Result.post_mono (writePixels_settled (hm.phase.trans hp) hm.winValid hcount)
    (fun t ht => ⟨hp, nofun, hm'.trans ht⟩) fun t ht => .inr ⟨hp, hm'.toRuns.fail ht⟩

theorem fillRect_outcome (w : Window) (color : U16) (s : State) :
    (fillRect w color s).Post (DrawDone w false s) (DrawRaised w s) :=
  requirePhase_post (fun _ => requireInBounds_post (fun _ => setPixels_outcome w _ s) fun _ => .inl) fun _ => .inl

/-- Past its two checks FILL_RECT raises in a transfer alone: the count of SET_PIXELS is the rectangle's. -/
theorem fillRect_post {w : Window} {s : State} (hp : s.phase = .ready) (hb : inBounds s.cfg w = true) (color : U16) :
    (fillRect w color s).Post (DrawDone w false s) (TransferRaised { s with win := w, winValid := false }) := by
  have hraise := setPixels_post hp hb (List.length_replicate (n := pixelCount w) (a := color))
  have hdone := setPixels_outcome w (List.replicate (pixelCount w) color) s
  rw [fillRect, requirePhase_of_eq hp, requireInBounds_of_in hb]
  exact Result.post_mono (Result.post_and hdone hraise) (fun _ h => h.1) fun _ h => h.2

/-- BOOT: its checks, the claim, and the configuration written (42_controller_init.md R120). -/
theorem boot_outcome (cfg : Cfg) (s : State) :
    (boot cfg s).Post (fun t => s.phase = .powerOn ∧ firstFailingClause cfg = none ∧ t = afterBoot cfg s)
      fun t => Checked s t ∨ ∃ pins, t = afterRaise .resourceUnavailable .transport { s with pins := pins } := by
  by_cases hp : s.phase = .powerOn
  · cases hv : firstFailingClause cfg with
    | some n => rw [boot_of_failingClause hp hv]; exact .inl (checked_afterRaise _ s)
    | none =>
      cases hc : s.env.claimOk with
      | false => rw [boot_of_unavailable hp hv hc]; exact .inr ⟨_, rfl⟩
      | true => rw [boot_ok hp hv hc]; exact ⟨hp, rfl, rfl⟩
  · rw [boot_of_phase_ne hp]; exact .inl (checked_afterRaise _ s)

end Sys2Proof.Machine
end

section
/-! The screen of a valid configuration (42_controller_init.md R120, 43_window_pixels.md R148). -/
namespace Sys2Proof.Machine

/-- valid(cfg), clause by clause (42_controller_init.md R120). -/
theorem firstFailingClause_eq_none_iff (cfg : Cfg) : firstFailingClause cfg = none ↔
    (1 ≤ cfg.width.toNat ∧ 1 ≤ cfg.height.toNat) ∧ (2 ≤ cfg.bufSize ∧ cfg.bufSize % 2 = 0) ∧
      tableOk cfg = true ∧ cfg.pixelBits = 16 := by
  unfold firstFailingClause
  split_ifs <;> simp_all

theorem toNat_sub_one {v : U16} (h : 1 ≤ v.toNat) : (v - 1).toNat = v.toNat - 1 := by
  bv_omega

theorem inBounds_screen {cfg : Cfg} (hw : 1 ≤ cfg.width.toNat) (hh : 1 ≤ cfg.height.toNat) :
    inBounds cfg (screen cfg) = true := by
  simp only [inBounds, screen, toNat_sub_one hw, toNat_sub_one hh, decide_eq_true_eq]
  refine ⟨Nat.zero_le _, ?_, Nat.zero_le _, ?_⟩ <;> omega

theorem pixelCount_screen {cfg : Cfg} (hw : 1 ≤ cfg.width.toNat) (hh : 1 ≤ cfg.height.toNat) :
    pixelCount (screen cfg) = cfg.width.toNat * cfg.height.toNat := by
  simp only [pixelCount, screen, toNat_sub_one hw, toNat_sub_one hh]
  simp [Nat.sub_add_cancel hw, Nat.sub_add_cancel hh]

theorem inBounds_screen_of_valid {cfg : Cfg} (hv : firstFailingClause cfg = none) :
    inBounds cfg (screen cfg) = true := by
  obtain ⟨⟨hw, hh⟩, -⟩ := (firstFailingClause_eq_none_iff cfg).mp hv
  exact inBounds_screen hw hh

/-- FILL_SCREEN when every transfer succeeds (43_window_pixels.md R148). -/
theorem fillScreen_ok {s : State} (hp : s.phase = .ready) (hw : 1 ≤ s.cfg.width.toNat)
    (hh : 1 ≤ s.cfg.height.toNat) (hr : FramerReady s) (he : s.cfg.bufSize % 2 = 0) (hx : AllTransfersOk s)
    (color : U16) : fillScreen color s = .ok (afterSetPixels (screen s.cfg)
      (List.replicate (s.cfg.width.toNat * s.cfg.height.toNat) color) s) := by
  rw [fillScreen, fillRect_ok hp (inBounds_screen hw hh) hr he hx, pixelCount_screen hw hh]

/-- Settles O31: the whole screen is a rectangle in bounds, of width times height pixels. -/
theorem fillScreenFillsTheWholeScreen : Obligations.FillScreenFillsTheWholeScreen := by
  refine fun s color hl hw hh => ⟨?_, fun hp hr he hx => ?_⟩
  · rw [exec_of_live hl, exec_of_live hl, bodyOf, bodyOf, fillScreen, screen]
  · obtain ⟨hphase, hwin, hvalid, htrace⟩ := afterSetPixels_keeps (screen s.cfg)
      (List.replicate (s.cfg.width.toNat * s.cfg.height.toNat) color) s
    refine ⟨_, ?_, hphase.trans hp, hvalid, hwin, htrace⟩
    rw [exec_of_live hl, bodyOf, fillScreen_ok hp hw hh hr he hx, Result.outcome_ok]

end Sys2Proof.Machine
end

section
/-! MAIN (43_window_pixels.md R151). -/
namespace Sys2Proof.Machine

theorem DrawDone.live {w : Window} {v : Bool} {s t : State} (h : DrawDone w v s t) (hs : Live s) : Live t := by
  obtain ⟨-, -, ht⟩ := h
  exact ⟨ht.phase.trans_ne hs.1, ht.idling.trans hs.2⟩

theorem Checked.phase {s t : State} (h : Checked s t) : t.phase = .halted := by
  obtain ⟨_, _, -, -, rfl⟩ := h
  rfl

theorem DrawRaised.phase {w : Window} {s t : State} (h : DrawRaised w s t) : t.phase = .halted := by
  rcases h with h | ⟨-, h⟩
  · exact h.phase
  · exact h.phase

/-- BOOT leaves an accepting block, or a halted one. -/
theorem boot_live {s : State} (hs : Live s) (cfg : Cfg) : (boot cfg s).Post Live fun t => t.phase = .halted := by
  refine Result.post_mono (boot_outcome cfg s) ?_ ?_
  · rintro t ⟨-, -, rfl⟩
    exact ⟨Phase.noConfusion, hs.2⟩
  · rintro t (h | ⟨pins, rfl⟩)
    · exact h.phase
    · rfl

theorem initialise_live {s : State} (hs : Live s) : (initialise s).Post Live fun t => t.phase = .halted := by
  refine Result.post_mono (initialise_outcome s) ?_ ?_
  · rintro t ⟨-, h⟩
    exact ⟨by simp [h.phase], h.idling.trans hs.2⟩
  · rintro t (h | ⟨-, n, -, h⟩)
    · exact h.phase
    · exact h.phase

theorem fillScreen_live {s : State} (hs : Live s) (color : U16) :
    (fillScreen color s).Post Live fun t => t.phase = .halted :=
  Result.post_mono (fillRect_outcome (screen s.cfg) color s) (fun _ h => h.live hs) fun _ h => h.phase

theorem exec_main_of_live {s : State} (hl : Live s) (cfg : Cfg) : exec (.main cfg) s =
    ((((boot cfg s).andThen initialise).andThen (fillScreen cfg.fillColor)).andThen idle).outcome :=
  exec_of_live hl _

/-- MAIN is its four parts: each of the first three leaves an accepting block, or a halted one. -/
theorem exec_main_eq_followedBy {s : State} (hl : Live s) (cfg : Cfg) : exec (.main cfg) s =
    followedBy (followedBy (followedBy (exec (.boot cfg) s) (exec .init)) (exec (.fillScreen cfg.fillColor)))
      (exec .idle) := by
  have boot_post := boot_live hl cfg
  have init_post : ((boot cfg s).andThen initialise).Post Live fun t => t.phase = .halted :=
    Result.post_andThen boot_post fun m hm => initialise_live hm
  have fill_post : (((boot cfg s).andThen initialise).andThen (fillScreen cfg.fillColor)).Post Live
      fun t => t.phase = .halted :=
    Result.post_andThen init_post fun m hm => fillScreen_live hm cfg.fillColor
  calc exec (.main cfg) s
      = ((((boot cfg s).andThen initialise).andThen (fillScreen cfg.fillColor)).andThen idle).outcome :=
        exec_main_of_live hl cfg
    _ = followedBy (((boot cfg s).andThen initialise).andThen (fillScreen cfg.fillColor)).outcome (exec .idle) :=
        outcome_andThen_of_post fill_post idle
    _ = followedBy (followedBy ((boot cfg s).andThen initialise).outcome (exec (.fillScreen cfg.fillColor)))
          (exec .idle) := by rw [outcome_andThen_of_post init_post]; rfl
    _ = followedBy (followedBy (followedBy (boot cfg s).outcome (exec .init))
          (exec (.fillScreen cfg.fillColor))) (exec .idle) := by rw [outcome_andThen_of_post boot_post]; rfl
    _ = _ := by rw [exec_of_live hl (.boot cfg), bodyOf]

/-- The block after BOOT and INIT when nothing fails. -/
def initialised (cfg : Cfg) (s : State) : State := afterConfigure (afterResetPulse (afterBoot cfg s))

theorem initialised_ready {s : State} {cfg : Cfg} (h0 : s.bufLen = 0) (hn : 0 < cfg.bufSize) :
    (initialised cfg s).phase = .ready ∧ (initialised cfg s).cfg = cfg ∧ (initialised cfg s).env = s.env ∧
      FramerReady (initialised cfg s) := by
  have hr : FramerReady (afterResetPulse (afterBoot cfg s)) := ⟨rfl, h0, hn⟩
  obtain ⟨hcfg, henv, -⟩ := afterEntries_keeps cfg.initTable 0 (afterResetPulse (afterBoot cfg s))
  exact ⟨rfl, hcfg, henv, (hr.afterEntries cfg.initTable 0).congr rfl rfl rfl⟩

theorem initialised_trace (cfg : Cfg) (s : State) : (initialised cfg s).trace = s.trace ++ initEvents cfg :=
  afterConfigure_afterResetPulse_trace (afterBoot cfg s)

theorem afterSetPixels_cfg (w : Window) (px : List U16) (s : State) : (afterSetPixels w px s).cfg = s.cfg := by
  obtain ⟨hcfg, -⟩ := afterSetWindow_keeps w s
  exact hcfg

/-- MAIN when nothing fails: each part runs on what the one before leaves (43_window_pixels.md R151). -/
theorem exec_main_of_ok {s : State} {cfg : Cfg} (hl : Live s) (hp : s.phase = .powerOn)
    (hv : firstFailingClause cfg = none) (hc : s.env.claimOk = true) (h0 : s.bufLen = 0) (hx : AllTransfersOk s) :
    exec (.main cfg) s = .next { afterSetPixels (screen cfg)
      (List.replicate (cfg.width.toNat * cfg.height.toNat) cfg.fillColor) (initialised cfg s) with idling := true } := by
  obtain ⟨⟨hw, hh⟩, ⟨hn, he⟩, -⟩ := (firstFailingClause_eq_none_iff cfg).mp hv
  have hn' : 0 < cfg.bufSize := by omega
  obtain ⟨hphase, hcfg, henv, hr⟩ := initialised_ready (s := s) h0 hn'
  have hinit : initialise (afterBoot cfg s) = .ok (initialised cfg s) :=
    initialise_ok rfl ⟨rfl, h0, hn'⟩ (hx.congr rfl)
  have hfill := fillScreen_ok hphase (by rwa [hcfg]) (by rwa [hcfg]) hr (by rwa [hcfg]) (hx.congr henv) cfg.fillColor
  rw [hcfg] at hfill
  obtain ⟨hphase', -⟩ := afterSetPixels_keeps (screen cfg)
    (List.replicate (cfg.width.toNat * cfg.height.toNat) cfg.fillColor) (initialised cfg s)
  rw [exec_main_of_live hl, boot_ok hp hv hc, Result.andThen_ok, hinit, Result.andThen_ok, hfill, Result.andThen_ok,
    idle_ok (hphase'.trans hphase), Result.outcome_ok]

/-- Settles O32: the sequence by its parts, and the completion with the events of each. -/
theorem mainRunsTheWholePath : Obligations.MainRunsTheWholePath := by
  refine fun s cfg hl => ⟨exec_main_eq_followedBy hl cfg, fun hp hv hc h0 hx => ?_⟩
  obtain ⟨-, ⟨hn, -⟩, -⟩ := (firstFailingClause_eq_none_iff cfg).mp hv
  obtain ⟨hphase, hcfg, -, -⟩ := initialised_ready (s := s) (cfg := cfg) h0 (by omega)
  obtain ⟨hphase', -, -, htrace⟩ := afterSetPixels_keeps (screen cfg)
    (List.replicate (cfg.width.toNat * cfg.height.toNat) cfg.fillColor) (initialised cfg s)
  refine ⟨_, exec_main_of_ok hl hp hv hc h0 hx, hphase'.trans hphase, rfl, ?_, ?_⟩
  · exact (afterSetPixels_cfg (screen cfg) (List.replicate (cfg.width.toNat * cfg.height.toNat) cfg.fillColor)
      (initialised cfg s)).trans hcfg
  · rw [hcfg, initialised_trace] at htrace
    exact htrace

end Sys2Proof.Machine
end

section
/-! What every instruction can do: go on, or raise in one of three ways (60_exceptions.md R160, R164, R167). -/
namespace Sys2Proof.Machine

/-- The registers an instruction does not write (10_state.md R12, R13, R16, R17, R20; log 17, log 21). -/
structure Keeps (i : Instr) (s t : State) : Prop where
  cfg : writesCfg i = false → t.cfg = s.cfg
  initIdx : writesInitIdx i = false → t.initIdx = s.initIdx
  idling : startsIdling i = false → t.idling = s.idling
  win : writesWin i = false → t.win = s.win
  winValid : writesWinValid i = false → t.winValid = s.winValid
  rst : writesRst i = false → t.pins.rst = s.pins.rst
  bl : writesBl i = false → t.pins.bl = s.pins.bl

/-- An instruction that writes none of them. -/
theorem Keeps.of_same {i : Instr} {s t : State} (hc : t.cfg = s.cfg := by rfl) (hn : t.initIdx = s.initIdx := by rfl)
    (hi : t.idling = s.idling := by rfl) (hw : t.win = s.win := by rfl) (hv : t.winValid = s.winValid := by rfl)
    (hr : t.pins.rst = s.pins.rst := by rfl) (hb : t.pins.bl = s.pins.bl := by rfl) : Keeps i s t :=
  ⟨fun _ => hc, fun _ => hn, fun _ => hi, fun _ => hw, fun _ => hv, fun _ => hr, fun _ => hb⟩

/-- What a transaction keeps, after what an instruction has written. -/
theorem Keeps.trans_same {i : Instr} {s m t : State} (h : Keeps i s m) (g : SameRegisters m t) : Keeps i s t where
  cfg hc := g.cfg.trans (h.cfg hc)
  initIdx hn := g.initIdx.trans (h.initIdx hn)
  idling hi := g.idling.trans (h.idling hi)
  win hw := g.win.trans (h.win hw)
  winValid hv := g.winValid.trans (h.winValid hv)
  rst hr := g.rst.trans (h.rst hr)
  bl hb := g.bl.trans (h.bl hb)

theorem keeps_initIdx {i : Instr} (h : writesInitIdx i = true) (s : State) (n : Nat) :
    Keeps i s { s with initIdx := n } :=
  { Keeps.of_same (i := i) (s := s) (t := s) with initIdx := fun hf => by simp [h] at hf }

/-- Who writes WIN writes WIN_VALID too. -/
theorem keeps_window {i : Instr} (h : writesWin i = true) (s : State) (w : Window) (v : Bool) :
    Keeps i s { s with win := w, winValid := v } :=
  { Keeps.of_same (i := i) (s := s) (t := s) with
    win := fun hf => by simp [h] at hf
    winValid := fun hf => by simp [writesWinValid, h] at hf }

theorem keeps_winValid {i : Instr} (h : writesWinValid i = true) (s : State) (v : Bool) :
    Keeps i s { s with winValid := v } :=
  { Keeps.of_same (i := i) (s := s) (t := s) with winValid := fun hf => by simp [h] at hf }

/-- The three ways an instruction raises: in a check, in the claim of the transport, or in a transfer. -/
inductive Stops (i : Instr) (s t : State) : Prop
  | checked (h : Checked s t)
  | unavailable (pins : Pins) (hk : Keeps i s { s with pins := pins })
      (h : t = afterRaise .resourceUnavailable .transport { s with pins := pins })
  | transfer (hk : Keeps i s t) (hp : t.phase = .halted)
      (h : ∃ k, t.fault = some (s.fault.getD ⟨.transferError, .transfer k⟩))

/-- An instruction that goes on: its registers, its phase change, chip-select and the buffer's length. -/
structure Completes (i : Instr) (s t : State) : Prop where
  keeps : Keeps i s t
  phase : t.phase = s.phase ∨ t.phase = .halted ∨ movesPhase i = some (s.phase, t.phase)
  cs : movesCs i = false → t.phase ≠ .halted → t.cs = s.cs
  bufLen : s.bufLen = 0 → t.bufLen = 0

theorem Stops.phase {i : Instr} {s t : State} (h : Stops i s t) : t.phase = .halted := by
  cases h with
  | checked h => exact h.phase
  | unavailable pins _ h => rw [h]; rfl
  | transfer _ hp _ => exact hp

theorem Stops.keeps {i : Instr} {s t : State} (h : Stops i s t) : Keeps i s t := by
  cases h with
  | checked h =>
    obtain ⟨_, _, -, -, rfl⟩ := h
    exact .of_same
  | unavailable pins hk h => rw [h]; exact { hk with }
  | transfer hk _ _ => exact hk

theorem Failed.stops {i : Instr} {s m t : State} (h : Failed m t) (hk : Keeps i s m) (hm : m.fault = s.fault) :
    Stops i s t :=
  .transfer (hk.trans_same h.toSameRegisters) h.phase (hm ▸ h.fault)

/-- What settles from a state that differs in the instruction's own registers completes. -/
theorem Settled.completes {i : Instr} {s m t : State} (h : Settled m t) (hk : Keeps i s m)
    (hp : m.phase = s.phase := by rfl) (hc : m.cs = s.cs := by rfl) (hb : m.bufLen = s.bufLen := by rfl) :
    Completes i s t :=
  ⟨hk.trans_same h.toSameRegisters, .inl (h.phase.trans hp), fun _ _ => h.cs.trans hc, fun h0 => h.bufLen (hb.trans h0)⟩

theorem settled_post {i : Instr} {s m : State} {r : Result} (h : r.Post (Settled m) (Failed m))
    (hk : Keeps i s m := by exact .of_same) (hp : m.phase = s.phase := by rfl) (hf : m.fault = s.fault := by rfl)
    (hc : m.cs = s.cs := by rfl) (hb : m.bufLen = s.bufLen := by rfl) : r.Post (Completes i s) (Stops i s) :=
  Result.post_mono h (fun _ ht => ht.completes hk hp hc hb) fun _ ht => ht.stops hk hf

theorem draw_post {i : Instr} {w : Window} {v : Bool} {s : State} {r : Result}
    (h : r.Post (DrawDone w v s) (DrawRaised w s)) (hk : ∀ v, Keeps i s { s with win := w, winValid := v }) :
    r.Post (Completes i s) (Stops i s) := by
  refine Result.post_mono h (fun t ⟨_, _, ht⟩ => ht.completes (hk v)) fun t ht => ?_
  rcases ht with ht | ⟨-, ht⟩
  · exact .checked ht
  · exact ht.stops (hk false) rfl

theorem boot_post (cfg : Cfg) (s : State) : (boot cfg s).Post (Completes (.boot cfg) s) (Stops (.boot cfg) s) := by
  refine Result.post_mono (boot_outcome cfg s) ?_ ?_
  · rintro t ⟨hp, -, rfl⟩
    exact ⟨⟨nofun, fun _ => rfl, fun _ => rfl, fun _ => rfl, fun _ => rfl, nofun, nofun⟩,
      .inr (.inr (by rw [hp]; rfl)), nofun, id⟩
  · rintro t (h | ⟨pins, h⟩)
    · exact .checked h
    · exact .unavailable pins ⟨nofun, fun _ => rfl, fun _ => rfl, fun _ => rfl, fun _ => rfl, nofun, nofun⟩ h

theorem resetPulse_post (s : State) : (resetPulse s).Post (Completes .resetPulse s) (Stops .resetPulse s) := by
  by_cases hp : s.phase = .uninitialized
  · rw [resetPulse_ok hp]
    exact ⟨⟨fun _ => rfl, fun _ => rfl, fun _ => rfl, fun _ => rfl, fun _ => rfl, nofun, fun _ => rfl⟩,
      .inr (.inr (by rw [hp]; rfl)), fun _ _ => rfl, id⟩
  · rw [resetPulse, requirePhase_of_ne hp]
    exact .checked (checked_afterRaise _ s)

theorem configure_post (s : State) : (configure s).Post (Completes .configure s) (Stops .configure s) := by
  refine Result.post_mono (configure_outcome s) ?_ ?_
  · rintro t ⟨hp, h⟩
    exact ⟨(keeps_initIdx rfl s _).trans_same { h with }, .inr (.inr (by rw [hp, h.phase]; rfl)), fun _ _ => h.cs,
      h.bufLen⟩
  · rintro t (h | ⟨n, -, h⟩)
    · exact .checked h
    · exact h.stops (keeps_initIdx rfl s n) rfl

/-- INIT writes INIT_IDX and, with the pulse, PIN[RST]. -/
theorem keeps_afterResetPulse (s : State) (n : Nat) : Keeps .init s { afterResetPulse s with initIdx := n } :=
  ⟨fun _ => rfl, nofun, fun _ => rfl, fun _ => rfl, fun _ => rfl, nofun, fun _ => rfl⟩

theorem initialise_post (s : State) : (initialise s).Post (Completes .init s) (Stops .init s) := by
  refine Result.post_mono (initialise_outcome s) ?_ ?_
  · rintro t ⟨hp, h⟩
    exact ⟨(keeps_afterResetPulse s _).trans_same { h with }, .inr (.inr (by rw [hp, h.phase]; rfl)),
      fun _ _ => h.cs, h.bufLen⟩
  · rintro t (h | ⟨-, n, -, h⟩)
    · exact .checked h
    · exact h.stops (keeps_afterResetPulse s n) rfl

theorem idle_post (s : State) : (idle s).Post (Completes .idle s) (Stops .idle s) := by
  by_cases hp : s.phase = .ready
  · rw [idle_ok hp]
    exact ⟨⟨fun _ => rfl, fun _ => rfl, nofun, fun _ => rfl, fun _ => rfl, fun _ => rfl, fun _ => rfl⟩, .inl rfl,
      fun _ _ => rfl, id⟩
  · rw [idle, requirePhase_of_ne hp]
    exact .checked (checked_afterRaise _ s)

/-- MAIN writes every register there is. -/
theorem keeps_main (cfg : Cfg) (s t : State) : Keeps (.main cfg) s t :=
  ⟨nofun, nofun, nofun, nofun, nofun, nofun, nofun⟩

/-- MAIN after BOOT: no check of INIT, FILL_SCREEN or IDLE can fail, so what raises is a transfer. -/
theorem main_after_boot_post {cfg : Cfg} {s : State} (hv : firstFailingClause cfg = none) :
    (((initialise (afterBoot cfg s)).andThen (fillScreen cfg.fillColor)).andThen idle).Post
      (fun t => t.phase = .ready ∧ (s.bufLen = 0 → t.bufLen = 0)) (Stops (.main cfg) s) := by
  refine Result.post_andThen (Q := fun t => t.phase = .ready ∧ (s.bufLen = 0 → t.bufLen = 0))
    (Result.post_andThen (Result.post_mono (initialise_settled rfl) (fun _ h => h) ?_) ?_) ?_
  · rintro t ⟨n, -, h⟩
    exact h.stops (keeps_main cfg s _) rfl
  · intro m hm
    have hb : inBounds m.cfg (screen m.cfg) = true := by rw [hm.cfg]; exact inBounds_screen_of_valid hv
    refine Result.post_mono (fillRect_post hm.phase hb cfg.fillColor) ?_ fun t ht =>
      .transfer (keeps_main cfg s t) ht.phase ?_
    · rintro t ⟨-, -, ht⟩
      exact ⟨ht.phase.trans hm.phase, fun h0 => ht.bufLen (hm.bufLen h0)⟩
    · obtain ⟨k, hk⟩ := ht.fault
      exact ⟨k, by rw [hk, hm.fault]; rfl⟩
  · rintro m ⟨hp, hlen⟩
    rw [idle_ok hp]
    exact ⟨hp, hlen⟩

/-- MAIN is BOOT, then the rest. -/
theorem bodyOf_main (cfg : Cfg) (s : State) : bodyOf (.main cfg) s =
    (boot cfg s).andThen fun m => ((initialise m).andThen (fillScreen cfg.fillColor)).andThen idle := by
  simp only [bodyOf, Result.andThen_assoc]

theorem main_post (cfg : Cfg) (s : State) :
    (bodyOf (.main cfg) s).Post (Completes (.main cfg) s) (Stops (.main cfg) s) := by
  rw [bodyOf_main]
  refine Result.post_andThen (Q := fun m => s.phase = .powerOn ∧ firstFailingClause cfg = none ∧ m = afterBoot cfg s)
    (Result.post_mono (boot_outcome cfg s) (fun _ h => h) ?_) ?_
  · rintro t (h | ⟨pins, h⟩)
    · exact .checked h
    · exact .unavailable pins (keeps_main cfg s _) h
  · rintro m ⟨hp, hv, rfl⟩
    exact Result.post_mono (main_after_boot_post hv)
      (fun t ⟨hready, hlen⟩ => ⟨keeps_main cfg s t, .inr (.inr (by rw [hp, hready]; rfl)), nofun, hlen⟩) fun _ h => h

/-- A pin written by its construction or its set call is no other pin. -/
theorem keeps_setPins {i : Instr} {s : State} {p : Pin} (hr : writesRst i = decide (p = .rst))
    (hb : writesBl i = decide (p = .bl)) (v : Level) : Keeps i s { s with pins := s.pins.set p v } := by
  cases p with
  | dc => exact .of_same
  | rst => exact { Keeps.of_same (i := i) (s := s) (t := s) with rst := fun hf => by simp [hr] at hf }
  | bl => exact { Keeps.of_same (i := i) (s := s) (t := s) with bl := fun hf => by simp [hb] at hf }

theorem pinConstruct_completes (p : PinRole) (v : Level) (s : State) :
    Completes (.pinConstruct p v) s (constructPin p v s) := by
  cases p with
  | rst => exact ⟨keeps_setPins (p := .rst) rfl rfl v, .inl rfl, fun _ _ => rfl, id⟩
  | dc => exact ⟨keeps_setPins (p := .dc) rfl rfl v, .inl rfl, fun _ _ => rfl, id⟩
  | bl => exact ⟨keeps_setPins (p := .bl) rfl rfl v, .inl rfl, fun _ _ => rfl, id⟩
  | cs => exact ⟨.of_same, .inl rfl, fun _ _ => rfl, id⟩

/-- A set call writes its pin and appends its event. -/
theorem setPin_completes {i : Instr} {p : Pin} (hr : writesRst i = decide (p = .rst))
    (hb : writesBl i = decide (p = .bl)) (v : Level) (s : State) : Completes i s (setPin p v s) :=
  ⟨{ keeps_setPins (s := s) hr hb v with }, .inl rfl, fun _ _ => rfl, id⟩

/-- Every instruction completes, or stops in one of the three ways. -/
theorem bodyOf_post (i : Instr) (s : State) : (bodyOf i s).Post (Completes i s) (Stops i s) := by
  cases i with
  | boot cfg => exact boot_post cfg s
  | init => exact initialise_post s
  | setWindow x0 y0 x1 y1 => exact draw_post (setWindow_outcome ⟨x0, y0, x1, y1⟩ s) (keeps_window rfl s _)
  | writePixels px => exact draw_post (writePixels_outcome px s) (keeps_winValid rfl s)
  | setPixels x0 y0 x1 y1 px => exact draw_post (setPixels_outcome ⟨x0, y0, x1, y1⟩ px s) (keeps_window rfl s _)
  | fillRect x0 y0 x1 y1 c => exact draw_post (fillRect_outcome ⟨x0, y0, x1, y1⟩ c s) (keeps_window rfl s _)
  | fillScreen c => exact draw_post (fillRect_outcome (screen s.cfg) c s) (keeps_window rfl s _)
  | idle => exact idle_post s
  | pinConstruct p v => exact pinConstruct_completes p v s
  | pinSetLow p => exact setPin_completes rfl rfl .low s
  | pinSetHigh p => exact setPin_completes rfl rfl .high s
  | spiConstruct c =>
    cases hc : s.env.claimOk with
    | true => rw [bodyOf, constructSpi_of_claimed hc]; exact ⟨.of_same, .inl rfl, nofun, id⟩
    | false => rw [bodyOf, constructSpi_of_unavailable hc]; exact .unavailable s.pins .of_same rfl
  | spiWrite bytes => exact settled_post (spiWrite_settled bytes s)
  | delayMs n => exact (settled_emit _ s).completes .of_same
  | spiBegin =>
    cases hc : s.cs with
    | asserted => rw [bodyOf, csAssert_of_asserted hc]; trivial
    | deasserted => rw [bodyOf, csAssert_of_deasserted hc]; exact ⟨.of_same, .inl rfl, nofun, id⟩
  | spiXfer bytes => exact settled_post (xfer_settled bytes s)
  | spiEnd =>
    cases hc : s.cs with
    | asserted => rw [bodyOf, csDeassert_of_asserted hc]; exact ⟨.of_same, .inl rfl, nofun, id⟩
    | deasserted => rw [bodyOf, csDeassert_of_deasserted hc]; trivial
  | sendCommand op ps => exact settled_post (sendCommand_settled op ps s)
  | sendPixels px => exact settled_post (sendPixels_settled px s)
  | resetPulse => exact resetPulse_post s
  | configure => exact configure_post s
  | halt => exact ⟨.of_same, .inr (.inl rfl), fun _ h => absurd rfl h, id⟩
  | main cfg => exact main_post cfg s
  | pwrctl idx op ps ms | pixfmt idx op ps ms =>
    exact settled_post (sendEntry_settled idx op ps ms s) (keeps_initIdx rfl s idx)
  | madctl idx op ms => exact settled_post (sendEntry_settled idx op [madctlByte s.cfg] ms s) (keeps_initIdx rfl s idx)
  | slpout idx op ms | dispon idx op ms =>
    exact settled_post (sendEntry_settled idx op [] ms s) (keeps_initIdx rfl s idx)
  | colset op ps | rowset op ps => exact settled_post (sendCommand_settled op ps s)
  | memwr op => exact settled_post (sendCommand_settled op [] s)
  | symCommand b => exact settled_post (sendSymbol_settled .command b s)
  | symData b => exact settled_post (sendSymbol_settled .data b s)

theorem exec_completes_or_stops {i : Instr} {s t : State} (h : exec i s = .next t) :
    Completes i s t ∨ Stops i s t :=
  exec_post h (bodyOf_post i s)

/-- What goes on writes no fault. -/
theorem exec_fault_of_ok {i : Instr} {s t : State} (h : bodyOf i s = .ok t) : t.fault = s.fault := by
  have := bodyRule_fault.body i s
  rwa [h] at this

/-- Settles O38: an instruction that raises has failed a check or the claim, or has failed a transfer. -/
theorem checksArePrecise : Obligations.ChecksArePrecise := by
  intro i s t f hs ht hf hcode
  obtain ⟨-, h | h⟩ := exec_eq_next ht
  · rw [exec_fault_of_ok h, hs] at hf
    cases hf
  · have hstops := bodyOf_post i s
    rw [h] at hstops
    cases hstops with
    | checked h =>
      obtain ⟨c, info, -, -, rfl⟩ := h
      simp only [afterRaise_fault, hs, Option.getD_none, Option.some.injEq] at hf
      exact ⟨by simp [afterRaise, hs, hf], fun _ => rfl⟩
    | unavailable pins _ h =>
      subst h
      simp only [afterRaise_fault, hs, Option.getD_none, Option.some.injEq] at hf
      exact ⟨by simp [afterRaise, hs, hf], fun hc => absurd (hf ▸ rfl) hc⟩
    | transfer _ _ h =>
      obtain ⟨k, hk⟩ := h
      rw [hk, hs, Option.getD_none, Option.some.injEq] at hf
      exact absurd (hf ▸ rfl) hcode

/-- The transitions of PHASE lead forward (10_state.md R11). -/
theorem phaseRank_lt_of_movesPhase {i : Instr} {p q : Phase} (h : movesPhase i = some (p, q)) :
    phaseRank p ≤ phaseRank q := by
  unfold movesPhase at h
  split at h <;> cases h <;> decide

theorem phaseRank_le_halted (p : Phase) : phaseRank p ≤ phaseRank .halted := by
  cases p <;> decide

theorem exec_moves_phase {i : Instr} {s t : State} (h : exec i s = .next t) :
    t.phase = s.phase ∨ t.phase = .halted ∨ movesPhase i = some (s.phase, t.phase) := by
  rcases exec_completes_or_stops h with h | h
  · exact h.phase
  · exact .inr (.inl h.phase)

theorem exec_phaseRank_le {i : Instr} {s t : State} (h : exec i s = .next t) :
    phaseRank s.phase ≤ phaseRank t.phase := by
  rcases exec_moves_phase h with h | h | h
  · rw [h]
  · rw [h]; exact phaseRank_le_halted _
  · exact phaseRank_lt_of_movesPhase h

/-- What a step that is one has done: nothing waits, or the request that waits first has run. -/
theorem step_eq_next {s t : State} (h : step s = .next t) :
    s.requests = [] ∧ t = quiet s ∨
      ∃ r rest i, s.requests = r :: rest ∧ requested r s = .ok i ∧ exec i { s with requests := rest } = .next t := by
  cases hs : s.requests with
  | nil =>
    rw [step_of_no_request hs] at h
    cases h
    exact .inl ⟨rfl, rfl⟩
  | cons r rest =>
    cases hr : requested r s with
    | error why =>
      rw [step_of_not_requested hs hr] at h
      cases h
    | ok i =>
      rw [step_of_requested hs hr] at h
      exact .inr ⟨r, rest, i, rfl, hr, h⟩

theorem quiet_phase (s : State) : (quiet s).phase = s.phase := by
  unfold quiet
  split_ifs <;> rfl

/-- Settles O40: by what each instruction completes, and by what a step does without a request. -/
theorem phasesMoveOnlyForward : Obligations.PhasesMoveOnlyForward := by
  refine ⟨fun i s t h => exec_moves_phase h, fun s t h => ?_⟩
  rcases step_eq_next h with ⟨-, rfl⟩ | ⟨r, rest, i, -, -, hi⟩
  · rw [quiet_phase]
    exact ⟨le_rfl, id⟩
  · obtain ⟨⟨hlive, -⟩, -⟩ := exec_eq_next hi
    exact ⟨exec_phaseRank_le (s := { s with requests := rest }) hi, fun hp => absurd hp hlive⟩

end Sys2Proof.Machine
end

section
/-! The frames: who writes the control registers, the window registers, the lines (10_state.md R12 to R22). -/
namespace Sys2Proof.Machine

theorem exec_keeps {i : Instr} {s t : State} (h : exec i s = .next t) : Keeps i s t := by
  rcases exec_completes_or_stops h with h | h
  · exact h.keeps
  · exact h.keeps

/-- The environment's answers and the queue: no primitive writes them. -/
structure SameInputs (s t : State) : Prop where
  env : t.env = s.env
  requests : t.requests = s.requests

theorem bodyRule_inputs : BodyRule SameInputs SameInputs where
  refl _ := ⟨rfl, rfl⟩
  trans h g := ⟨g.env.trans h.env, g.requests.trans h.requests⟩
  fail h g := ⟨g.env.trans h.env, g.requests.trans h.requests⟩
  dc _ _ := ⟨rfl, rfl⟩
  begins _ _ := ⟨rfl, rfl⟩
  ends _ _ := ⟨rfl, rfl⟩
  store _ _ _ := ⟨rfl, rfl⟩
  drain _ := ⟨rfl, rfl⟩
  moves _ _ _ _ _ _ := ⟨rfl, rfl⟩
  faults _ _ _ _ _ _ _ := ⟨rfl, rfl⟩
  check _ _ _ _ := ⟨rfl, rfl⟩
  pin _ _ _ := ⟨rfl, rfl⟩
  waits _ _ := ⟨rfl, rfl⟩
  phase _ _ := ⟨rfl, rfl⟩
  index _ _ := ⟨rfl, rfl⟩
  window _ _ _ := ⟨rfl, rfl⟩
  idles _ := ⟨rfl, rfl⟩
  builds _ p _ := by cases p <;> exact ⟨rfl, rfl⟩
  claims _ := ⟨rfl, rfl⟩
  configures _ _ := ⟨rfl, rfl⟩

theorem exec_same_inputs {i : Instr} {s t : State} (h : exec i s = .next t) : SameInputs s t := by
  rcases bodyRule_inputs.exec h with h | h <;> exact h

/-- Settles O42: what each operation leaves of the registers it does not own, and of what none writes. -/
theorem controlRegistersFrame : Obligations.ControlRegistersFrame := by
  intro i s t h
  have hk := exec_keeps h
  have hin := exec_same_inputs h
  exact ⟨hk.cfg, hk.initIdx, hin.env, hin.requests, hk.idling⟩

/-- Settles O43: the same frame, of the window registers. -/
theorem windowRegistersFrame : Obligations.WindowRegistersFrame := fun _ _ _ h =>
  ⟨(exec_keeps h).win, (exec_keeps h).winValid⟩

/-- An operation that keeps the pins, whether it goes on or raises. -/
abbrev KeepsPins (s : State) (r : Result) : Prop := r.Post (fun t => t.pins = s.pins) fun t => t.pins = s.pins

theorem csAssert_keepsPins (s : State) : KeepsPins s (csAssert s) := by
  cases hc : s.cs with
  | asserted => rw [csAssert_of_asserted hc]; trivial
  | deasserted => rw [csAssert_of_deasserted hc]; rfl

theorem csDeassert_keepsPins (s : State) : KeepsPins s (csDeassert s) := by
  cases hc : s.cs with
  | asserted => rw [csDeassert_of_asserted hc]; rfl
  | deasserted => rw [csDeassert_of_deasserted hc]; trivial

theorem xfer_keepsPins (bytes : List Byte) (s : State) : KeepsPins s (xfer bytes s) := by
  rcases xfer_cases bytes s with ⟨_, h⟩ | ⟨_, _, h⟩ | ⟨_, _, _, _, h⟩ | ⟨_, _, _, _, _, h⟩ <;> rw [h]
  · trivial
  · trivial
  · rfl
  · rfl

theorem KeepsPins.andThen {s : State} {r : Result} {f : State → Result} (hr : KeepsPins s r)
    (hf : ∀ m, KeepsPins m (f m)) : KeepsPins s (r.andThen f) :=
  Result.post_andThen hr fun m hm => Result.post_mono (hf m) (fun _ ht => ht.trans hm) fun _ ht => ht.trans hm

/-- The DC line is the same. -/
abbrev KeepsDc (s : State) (r : Result) : Prop := r.Post (fun t => t.pins.dc = s.pins.dc) fun t => t.pins.dc = s.pins.dc

theorem KeepsPins.keepsDc {s : State} {r : Result} (h : KeepsPins s r) : KeepsDc s r :=
  Result.post_mono h (fun _ ht => congrArg Pins.dc ht) fun _ ht => congrArg Pins.dc ht

theorem Pins.set_dc_of_ne {p : Pin} (h : p ≠ .dc) (ps : Pins) (v : Level) : (ps.set p v).dc = ps.dc :=
  Pins.get_set_other ps p .dc v h.symm

theorem idle_keepsPins (s : State) : KeepsPins s (idle s) := by
  by_cases hp : s.phase = .ready
  · rw [idle_ok hp]; rfl
  · rw [idle, requirePhase_of_ne hp]; rfl

theorem resetPulse_keepsDc (s : State) : KeepsDc s (resetPulse s) := by
  by_cases hp : s.phase = .uninitialized
  · rw [resetPulse_ok hp]; rfl
  · rw [resetPulse, requirePhase_of_ne hp]; rfl

theorem constructSpi_keepsPins (s : State) : KeepsPins s (constructSpi s) := by
  cases hc : s.env.claimOk with
  | true => rw [constructSpi_of_claimed hc]; rfl
  | false => rw [constructSpi_of_unavailable hc]; rfl

/-- The instructions that write no level to PIN[DC] (10_state.md R20). -/
theorem bodyOf_keepsDc {i : Instr} (hi : leavesDc i = true) (s : State) : KeepsDc s (bodyOf i s) := by
  cases i with
  | pinConstruct p v =>
    have hp : p ≠ .dc := of_decide_eq_true hi
    cases p with
    | dc => exact absurd rfl hp
    | rst | bl | cs => rfl
  | pinSetLow p => exact Pins.set_dc_of_ne (of_decide_eq_true hi) s.pins .low
  | pinSetHigh p => exact Pins.set_dc_of_ne (of_decide_eq_true hi) s.pins .high
  | spiConstruct => exact (constructSpi_keepsPins s).keepsDc
  | spiWrite bytes =>
    exact (((csAssert_keepsPins s).andThen (xfer_keepsPins bytes)).andThen csDeassert_keepsPins).keepsDc
  | delayMs => rfl
  | spiBegin => exact (csAssert_keepsPins s).keepsDc
  | spiXfer bytes => exact (xfer_keepsPins bytes s).keepsDc
  | spiEnd => exact (csDeassert_keepsPins s).keepsDc
  | resetPulse => exact resetPulse_keepsDc s
  | halt => rfl
  | idle => exact (idle_keepsPins s).keepsDc
  | _ => exact Bool.noConfusion hi

/-- Settles O44: the pins by what an instruction keeps, chip-select by what it completes. -/
theorem linesFrame : Obligations.LinesFrame := by
  intro i s t h
  have hk := exec_keeps h
  refine ⟨hk.rst, hk.bl, fun hi => ?_, fun hi hp => ?_⟩
  · rcases exec_post h (bodyOf_keepsDc hi s) with ht | ht <;> exact ht
  · rcases exec_completes_or_stops h with ht | ht
    · exact ht.cs hi hp
    · exact absurd ht.phase hp

end Sys2Proof.Machine
end

section
/-! The buffer's frame: which bytes an instruction can reach (10_state.md R19, 20_memory.md R43). -/
namespace Sys2Proof.Machine

/-- The byte at an address is the same. -/
abbrev SameByte (a : Nat) (s t : State) : Prop := t.buf.read a = s.buf.read a

/-- A part of the framer that reaches no byte at `a`: it goes on with the same configuration. -/
def Misses (a : Nat) (s : State) (r : Result) : Prop :=
  r.Post (fun t => SameByte a s t ∧ t.cfg = s.cfg) (SameByte a s)

/-- A part between transactions that reaches no byte at `a`. -/
def MissesEmpty (a : Nat) (s : State) (r : Result) : Prop :=
  r.Post (fun t => SameByte a s t ∧ t.cfg = s.cfg ∧ t.bufLen = 0) (SameByte a s)

theorem Misses.andThen {a : Nat} {s : State} {r : Result} {f : State → Result} (hr : Misses a s r)
    (hf : ∀ m, m.cfg = s.cfg → Misses a m (f m)) : Misses a s (r.andThen f) :=
  Result.post_andThen hr fun m ⟨hm, hc⟩ => Result.post_mono (hf m hc)
    (fun _ ⟨ht, hc'⟩ => ⟨ht.trans hm, hc'.trans hc⟩) fun _ ht => ht.trans hm

theorem MissesEmpty.andThen {a : Nat} {s : State} {r : Result} {f : State → Result} (hr : MissesEmpty a s r)
    (hf : ∀ m, m.cfg = s.cfg → m.bufLen = 0 → MissesEmpty a m (f m)) : MissesEmpty a s (r.andThen f) :=
  Result.post_andThen hr fun m ⟨hm, hc, h0⟩ => Result.post_mono (hf m hc h0)
    (fun _ ⟨ht, hc', h0'⟩ => ⟨ht.trans hm, hc'.trans hc, h0'⟩) fun _ ht => ht.trans hm

theorem Misses.empty {a : Nat} {s : State} {r : Result} (h : Misses a s r)
    (h0 : r.Post (fun t => t.bufLen = 0) fun _ => True) : MissesEmpty a s r :=
  Result.post_mono (Result.post_and h h0) (fun _ ⟨⟨ht, hc⟩, hl⟩ => ⟨ht, hc, hl⟩) fun _ ht => ht.1

theorem MissesEmpty.misses {a : Nat} {s : State} {r : Result} (h : MissesEmpty a s r) : Misses a s r :=
  Result.post_mono h (fun _ ⟨ht, hc, _⟩ => ⟨ht, hc⟩) fun _ ht => ht

theorem csAssert_misses (a : Nat) (s : State) : Misses a s (csAssert s) := by
  cases hc : s.cs with
  | asserted => rw [csAssert_of_asserted hc]; trivial
  | deasserted => rw [csAssert_of_deasserted hc]; exact ⟨rfl, rfl⟩

theorem csDeassert_misses (a : Nat) (s : State) : Misses a s (csDeassert s) := by
  cases hc : s.cs with
  | asserted => rw [csDeassert_of_asserted hc]; exact ⟨rfl, rfl⟩
  | deasserted => rw [csDeassert_of_deasserted hc]; trivial

theorem xfer_misses (a : Nat) (bytes : List Byte) (s : State) : Misses a s (xfer bytes s) := by
  rcases xfer_cases bytes s with ⟨_, h⟩ | ⟨_, _, h⟩ | ⟨_, _, _, _, h⟩ | ⟨_, _, _, _, _, h⟩ <;> rw [h]
  · trivial
  · trivial
  · exact ⟨rfl, rfl⟩
  · rfl

theorem flush_misses (a : Nat) (s : State) : Misses a s (flush s) :=
  (xfer_misses a _ s).andThen fun _ _ => ⟨rfl, rfl⟩

theorem flushRest_misses (a : Nat) (s : State) : Misses a s (flushRest s) := by
  unfold flushRest
  split
  · exact flush_misses a s
  · exact ⟨rfl, rfl⟩

theorem flushIfFull_misses (a : Nat) (s : State) : Misses a s (flushIfFull s) := by
  unfold flushIfFull
  split
  · exact flush_misses a s
  · exact ⟨rfl, rfl⟩

/-- After a flush or none the buffer holds no more than before. -/
theorem flushIfFull_post_le (a : Nat) (s : State) :
    (flushIfFull s).Post (fun t => SameByte a s t ∧ t.cfg = s.cfg ∧ t.bufLen ≤ s.bufLen) (SameByte a s) := by
  refine Result.post_mono (Result.post_and (flushIfFull_misses a s) (flushIfFull_post s)) ?_ fun _ ht => ht.1
  rintro t ⟨⟨ht, hc⟩, -, hl⟩
  exact ⟨ht, hc, by omega⟩

/-- A store at BUF[BUF_LEN] misses every address at or above BUF_SIZE, and every other address. -/
theorem bufStore_post (a : Nat) (b : Byte) (s : State) (ha : s.cfg.bufSize ≤ a ∨ s.bufLen < a) :
    (bufStore b s).Post (fun t => SameByte a s t ∧ t.cfg = s.cfg ∧ t.bufLen ≤ s.bufLen + 1) (SameByte a s) := by
  by_cases hl : s.bufLen < s.cfg.bufSize
  · rw [bufStore_of_lt hl]
    exact ⟨Memory.read_write_other _ _ _ _ (by omega), rfl, le_rfl⟩
  · rw [bufStore_of_ge hl]; trivial

/-- The chunking loop reaches no address at or above BUF_SIZE, and none past its payload. -/
theorem putBytes_misses (a : Nat) (bs : List Byte) (s : State)
    (ha : s.cfg.bufSize ≤ a ∨ s.bufLen + bs.length ≤ a) : Misses a s (putBytes bs s) := by
  induction bs generalizing s with
  | nil => exact ⟨rfl, rfl⟩
  | cons b bs ih =>
    simp only [List.length_cons] at ha
    refine Result.post_andThen (Q := fun t => SameByte a s t ∧ t.cfg = s.cfg ∧ t.bufLen ≤ s.bufLen + 1)
      (Result.post_andThen (bufStore_post a b s (by omega)) fun m ⟨hm, hc, hl⟩ => ?_) fun m ⟨hm, hc, hl⟩ => ?_
    · exact Result.post_mono (flushIfFull_post_le a m)
        (fun _ ⟨ht, hc', hl'⟩ => ⟨ht.trans hm, hc'.trans hc, hl'.trans hl⟩) fun _ ht => ht.trans hm
    · exact Result.post_mono (ih m (by rw [hc]; omega)) (fun _ ⟨ht, hc'⟩ => ⟨ht.trans hm, hc'.trans hc⟩)
        fun _ ht => ht.trans hm

/-- The same of the pixel loop, at two bytes a pixel. -/
theorem putPixels_misses (a : Nat) (px : List U16) (s : State)
    (ha : s.cfg.bufSize ≤ a ∨ s.bufLen + 2 * px.length ≤ a) : Misses a s (putPixels px s) := by
  induction px generalizing s with
  | nil => exact ⟨rfl, rfl⟩
  | cons p px ih =>
    simp only [List.length_cons] at ha
    refine Result.post_andThen (Q := fun t => SameByte a s t ∧ t.cfg = s.cfg ∧ t.bufLen ≤ s.bufLen + 2)
      (Result.post_andThen (Q := fun t => SameByte a s t ∧ t.cfg = s.cfg ∧ t.bufLen ≤ s.bufLen + 2)
        (Result.post_andThen (bufStore_post a _ s (by omega)) fun m ⟨hm, hc, hl⟩ => ?_) fun m ⟨hm, hc, hl⟩ => ?_)
      fun m ⟨hm, hc, hl⟩ => ?_
    · refine Result.post_mono (bufStore_post a _ m (by rw [hc]; omega)) ?_ fun _ ht => ht.trans hm
      rintro t ⟨ht, hc', hl'⟩
      exact ⟨ht.trans hm, hc'.trans hc, by omega⟩
    · exact Result.post_mono (flushIfFull_post_le a m)
        (fun _ ⟨ht, hc', hl'⟩ => ⟨ht.trans hm, hc'.trans hc, hl'.trans hl⟩) fun _ ht => ht.trans hm
    · exact Result.post_mono (ih m (by rw [hc]; omega)) (fun _ ⟨ht, hc'⟩ => ⟨ht.trans hm, hc'.trans hc⟩)
        fun _ ht => ht.trans hm

theorem streamBytes_misses (a : Nat) (bs : List Byte) (s : State)
    (ha : s.cfg.bufSize ≤ a ∨ s.bufLen + bs.length ≤ a) : MissesEmpty a s (streamBytes bs s) :=
  ((putBytes_misses a bs s ha).andThen fun m _ => flushRest_misses a m).empty (streamBytes_empties bs s)

theorem streamPixels_misses (a : Nat) (px : List U16) (s : State)
    (ha : s.cfg.bufSize ≤ a ∨ s.bufLen + 2 * px.length ≤ a) : MissesEmpty a s (streamPixels px s) :=
  ((putPixels_misses a px s ha).andThen fun m _ => flushRest_misses a m).empty (streamPixels_empties px s)

/-- A command's bytes lie below its reach. -/
theorem streamCommand_misses {a : Nat} (op : Byte) {ps : List Byte} {s : State} (h0 : s.bufLen = 0)
    (ha : min s.cfg.bufSize (commandReach s.cfg ps) ≤ a) : MissesEmpty a s (streamCommand op ps s) := by
  cases hd : s.cfg.paramDc with
  | low =>
    simp only [commandReach, hd] at ha
    rw [streamCommand_of_low hd]
    exact streamBytes_misses a _ s (by simp only [List.length_cons]; omega)
  | high =>
    simp only [commandReach, hd] at ha
    rw [streamCommand_of_high hd]
    refine (streamBytes_misses a [op] s (by simp only [List.length_cons, List.length_nil]; omega)).andThen
      fun m hc h0' => ?_
    unfold streamDataParams
    split
    · exact ⟨rfl, rfl, h0'⟩
    · exact streamBytes_misses a ps (setPin .dc .high m) (by simp only [setPin_cfg, setPin_bufLen, hc, h0']; omega)

theorem csAssert_setPin_misses (a : Nat) (v : Level) {s : State} (h0 : s.bufLen = 0) :
    MissesEmpty a s (csAssert (setPin .dc v s)) := by
  cases hc : s.cs with
  | asserted => rw [csAssert_of_asserted (s := setPin .dc v s) hc]; trivial
  | deasserted => rw [csAssert_setPin_dc hc]; exact ⟨rfl, rfl, h0⟩

theorem csDeassert_missesEmpty (a : Nat) {s : State} (h0 : s.bufLen = 0) : MissesEmpty a s (csDeassert s) := by
  cases hc : s.cs with
  | asserted => rw [csDeassert_of_asserted hc]; exact ⟨rfl, rfl, h0⟩
  | deasserted => rw [csDeassert_of_deasserted hc]; trivial

theorem sendCommand_misses {a : Nat} (op : Byte) {ps : List Byte} {s : State} (h0 : s.bufLen = 0)
    (ha : min s.cfg.bufSize (commandReach s.cfg ps) ≤ a) : MissesEmpty a s (sendCommand op ps s) :=
  ((csAssert_setPin_misses a .low h0).andThen fun _ hc h0' => streamCommand_misses op h0' (by rwa [hc])).andThen
    fun _ _ h0' => csDeassert_missesEmpty a h0'

theorem sendPixels_misses {a : Nat} {px : List U16} {s : State} (h0 : s.bufLen = 0)
    (ha : min s.cfg.bufSize (2 * px.length) ≤ a) : MissesEmpty a s (sendPixels px s) :=
  ((csAssert_setPin_misses a .high h0).andThen fun m hc h0' => streamPixels_misses a px m (by rw [hc]; omega)).andThen
    fun _ _ h0' => csDeassert_missesEmpty a h0'

theorem commandsReach_cons (cfg : Cfg) (c : Cmd) (cmds : List Cmd) :
    commandsReach cfg (c :: cmds) = max (commandReach cfg c.params) (commandsReach cfg cmds) := rfl

theorem sendCommands_misses {a : Nat} (cmds : List Cmd) {s : State} (h0 : s.bufLen = 0)
    (ha : min s.cfg.bufSize (commandsReach s.cfg cmds) ≤ a) : MissesEmpty a s (sendCommands cmds s) := by
  induction cmds generalizing s with
  | nil => exact ⟨rfl, rfl, h0⟩
  | cons c cmds ih =>
    rw [commandsReach_cons] at ha
    exact (sendCommand_misses c.opcode h0 (by omega)).andThen fun m hc h0' => ih h0' (by rw [hc]; omega)

theorem sendEntry_misses {a : Nat} (idx : Nat) (op : Byte) {ps : List Byte} (ms : Nat) {s : State}
    (h0 : s.bufLen = 0) (ha : min s.cfg.bufSize (commandReach s.cfg ps) ≤ a) :
    MissesEmpty a s (sendEntry idx op ps ms s) := by
  refine MissesEmpty.andThen (sendCommand_misses (s := { s with initIdx := idx }) op h0 ha) fun m _ h0' => ?_
  unfold postDelay
  split <;> exact ⟨rfl, rfl, h0'⟩

/-- How far a list of entries reaches: `tableReach` of a table that is this list. -/
def entriesReach (cfg : Cfg) (es : List InitEntry) : Nat := (es.map fun e => commandReach cfg e.params).foldr max 0

theorem entriesReach_cons (cfg : Cfg) (e : InitEntry) (es : List InitEntry) :
    entriesReach cfg (e :: es) = max (commandReach cfg e.params) (entriesReach cfg es) := rfl

theorem tableReach_eq (cfg : Cfg) : tableReach cfg = entriesReach cfg cfg.initTable := rfl

theorem sendEntries_misses {a : Nat} (es : List InitEntry) (idx : Nat) {s : State} (h0 : s.bufLen = 0)
    (ha : min s.cfg.bufSize (entriesReach s.cfg es) ≤ a) : MissesEmpty a s (sendEntries idx es s) := by
  induction es generalizing idx s with
  | nil => exact ⟨rfl, rfl, h0⟩
  | cons e es ih =>
    rw [entriesReach_cons] at ha
    exact (sendEntry_misses idx e.opcode e.postDelayMs h0 (by omega)).andThen
      fun m hc h0' => ih (idx + 1) h0' (by rw [hc]; omega)

/-- A check raises without a store. -/
theorem require_misses {a : Nat} {c : Bool} {code : FaultCode} {info : FaultInfo} {body : State → Result} {s : State}
    (hb : MissesEmpty a s (body s)) : MissesEmpty a s (require c code info body s) :=
  require_post (fun _ => hb) fun _ => rfl

theorem configure_misses {a : Nat} {s : State} (h0 : s.bufLen = 0) (ha : min s.cfg.bufSize (tableReach s.cfg) ≤ a) :
    MissesEmpty a s (configure s) := by
  rw [tableReach_eq] at ha
  unfold configure requirePhase
  refine require_misses ?_
  exact MissesEmpty.andThen (sendEntries_misses (s := { s with phase := .configuringInterface }) s.cfg.initTable 0 h0 ha)
    fun _ _ h0' => ⟨rfl, rfl, h0'⟩

theorem resetPulse_misses (a : Nat) {s : State} (h0 : s.bufLen = 0) : MissesEmpty a s (resetPulse s) := by
  unfold resetPulse requirePhase
  exact require_misses ⟨rfl, rfl, h0⟩

theorem initialise_misses {a : Nat} {s : State} (h0 : s.bufLen = 0) (ha : min s.cfg.bufSize (tableReach s.cfg) ≤ a) :
    MissesEmpty a s (initialise s) := by
  unfold initialise requirePhase
  refine require_misses ?_
  exact (resetPulse_misses a h0).andThen fun m hc h0' => configure_misses h0' (by rwa [hc])

theorem setWindow_misses {a : Nat} {w : Window} {s : State} (h0 : s.bufLen = 0)
    (ha : min s.cfg.bufSize (commandsReach s.cfg (windowCmds s.cfg w)) ≤ a) : MissesEmpty a s (setWindow w s) := by
  refine require_misses (require_misses ?_)
  exact MissesEmpty.andThen (sendCommands_misses (s := { s with winValid := false, win := w }) _ h0 ha)
    fun _ _ h0' => ⟨rfl, rfl, h0'⟩

theorem writePixels_misses {a : Nat} {px : List U16} {s : State} (h0 : s.bufLen = 0)
    (ha : min s.cfg.bufSize (writeReach s.cfg px.length) ≤ a) : MissesEmpty a s (writePixels px s) := by
  unfold writeReach at ha
  refine require_misses (require_misses (require_misses ?_))
  exact MissesEmpty.andThen (sendCommand_misses (s := { s with winValid := false }) _ h0 (by show min s.cfg.bufSize (commandReach s.cfg []) ≤ a; omega))
    fun m hc h0' => sendPixels_misses h0' (by rw [hc]; show min s.cfg.bufSize _ ≤ a; omega)

theorem setPixels_misses {a : Nat} {w : Window} {px : List U16} {s : State} (h0 : s.bufLen = 0)
    (ha : min s.cfg.bufSize (drawReach s.cfg w px.length) ≤ a) : MissesEmpty a s (setPixels w px s) := by
  unfold drawReach at ha
  refine require_misses (require_misses (require_misses ?_))
  exact (setWindow_misses h0 (by omega)).andThen fun m hc h0' => writePixels_misses h0' (by rw [hc]; omega)

theorem fillRect_misses {a : Nat} {w : Window} {s : State} (h0 : s.bufLen = 0) (color : U16)
    (ha : min s.cfg.bufSize (drawReach s.cfg w (pixelCount w)) ≤ a) : MissesEmpty a s (fillRect w color s) :=
  require_misses (require_misses (setPixels_misses h0 (by rwa [List.length_replicate])))

theorem idle_misses (a : Nat) {s : State} (h0 : s.bufLen = 0) : MissesEmpty a s (idle s) := by
  unfold idle requirePhase
  exact require_misses ⟨rfl, rfl, h0⟩

/-- BOOT stores nothing, but writes the configuration. -/
theorem boot_sameByte (a : Nat) (cfg : Cfg) (s : State) :
    (boot cfg s).Post (fun t => SameByte a s t ∧ t.cfg = cfg ∧ t.bufLen = s.bufLen) (SameByte a s) := by
  refine Result.post_mono (boot_outcome cfg s) ?_ ?_
  · rintro t ⟨-, -, rfl⟩
    exact ⟨rfl, rfl, rfl⟩
  · rintro t (⟨_, _, -, -, rfl⟩ | ⟨pins, rfl⟩) <;> rfl

theorem main_sameByte {a : Nat} {cfg : Cfg} {s : State} (h0 : s.bufLen = 0)
    (ha : storeLimit s.cfg (.main cfg) ≤ a) : (bodyOf (.main cfg) s).Post (SameByte a s) (SameByte a s) := by
  simp only [storeLimit] at ha
  rw [bodyOf_main]
  refine Result.post_andThen (boot_sameByte a cfg s) ?_
  rintro m ⟨hm, rfl, hl⟩
  have hrest : MissesEmpty a m (((initialise m).andThen (fillScreen m.cfg.fillColor)).andThen idle) := by
    refine MissesEmpty.andThen (MissesEmpty.andThen (initialise_misses (hl.trans h0) (by omega))
      fun u hc h0' => ?_) fun u _ h0' => idle_misses a h0'
    exact fillRect_misses h0' _ (by rw [hc]; omega)
  exact Result.post_mono hrest (fun _ ⟨ht, _, _⟩ => ht.trans hm) fun _ ht => ht.trans hm

theorem MissesEmpty.sameByte {a : Nat} {s : State} {r : Result} (h : MissesEmpty a s r) :
    r.Post (SameByte a s) (SameByte a s) :=
  Result.post_mono h (fun _ ht => ht.1) fun _ ht => ht

theorem Misses.sameByte {a : Nat} {s : State} {r : Result} (h : Misses a s r) :
    r.Post (SameByte a s) (SameByte a s) :=
  Result.post_mono h (fun _ ht => ht.1) fun _ ht => ht

/-- No instruction reaches a byte at or above its store limit. -/
theorem bodyOf_sameByte {i : Instr} {s : State} {a : Nat} (h0 : s.bufLen = 0) (ha : storeLimit s.cfg i ≤ a) :
    (bodyOf i s).Post (SameByte a s) (SameByte a s) := by
  cases i with
  | boot cfg => exact Result.post_mono (boot_sameByte a cfg s) (fun _ ht => ht.1) fun _ ht => ht
  | init => exact (initialise_misses h0 ha).sameByte
  | setWindow => exact (setWindow_misses h0 ha).sameByte
  | writePixels => exact (writePixels_misses h0 ha).sameByte
  | setPixels => exact (setPixels_misses h0 ha).sameByte
  | fillRect x0 y0 x1 y1 c => exact (fillRect_misses h0 c ha).sameByte
  | fillScreen c => exact (fillRect_misses h0 c ha).sameByte
  | idle => exact (idle_misses a h0).sameByte
  | pinConstruct p v => cases p <;> rfl
  | pinSetLow | pinSetHigh | delayMs | halt => rfl
  | spiConstruct =>
    cases hc : s.env.claimOk with
    | true => rw [bodyOf, constructSpi_of_claimed hc]; rfl
    | false => rw [bodyOf, constructSpi_of_unavailable hc]; rfl
  | spiWrite bytes =>
    exact Misses.sameByte (((csAssert_misses a s).andThen fun m _ => xfer_misses a bytes m).andThen
      fun m _ => csDeassert_misses a m)
  | spiBegin => exact (csAssert_misses a s).sameByte
  | spiXfer bytes => exact (xfer_misses a bytes s).sameByte
  | spiEnd => exact (csDeassert_misses a s).sameByte
  | sendCommand op ps | colset op ps | rowset op ps => exact (sendCommand_misses op h0 ha).sameByte
  | memwr op => exact (sendCommand_misses op h0 ha).sameByte
  | sendPixels => exact (sendPixels_misses h0 ha).sameByte
  | resetPulse => exact (resetPulse_misses a h0).sameByte
  | configure => exact (configure_misses h0 ha).sameByte
  | main cfg => exact main_sameByte h0 ha
  | pwrctl i op ps d | pixfmt i op ps d => exact (sendEntry_misses i op d h0 ha).sameByte
  | madctl i op d | slpout i op d | dispon i op d => exact (sendEntry_misses i op d h0 ha).sameByte
  | symCommand b => exact Misses.sameByte (s := s) (xfer_misses a [b] (setPin .dc .low s))
  | symData b => exact Misses.sameByte (s := s) (xfer_misses a [b] (setPin .dc .high s))

/-- Settles O45: the bytes by the reach of the payloads, the length by what an instruction completes. -/
theorem bufferFrame : Obligations.BufferFrame := by
  refine fun i s t h0 h => ⟨fun a ha => ?_, fun hp => ?_⟩
  · rcases exec_post h (bodyOf_sameByte h0 ha) with ht | ht <;> exact ht
  · rcases exec_completes_or_stops h with ht | ht
    · exact ht.bufLen h0
    · exact absurd ht.phase hp

end Sys2Proof.Machine
end

section
/-! Well-formedness from its parts: what does not depend on PHASE, and the two phases an operation rests in
(10_state.md R33). -/
namespace Sys2Proof.Machine

/-- The part of well-formedness that does not speak of PHASE. -/
structure Sound (s : State) : Prop where
  window : s.winValid = true → inBounds s.cfg s.win = true
  index : s.initIdx ≤ s.cfg.initTable.length
  buffer : BufferOk s.cfg.bufSize s.buf s.bufLen
  lawful : s.cfg.windowCmds.lawful = true

theorem WellFormedState.sound {s : State} (h : WellFormedState s) : Sound s where
  window hw := (h.window_valid hw).2
  index := h.index_in_table
  buffer := ⟨h.buffer_canonical, h.buffer_in_range, h.length_in_buffer⟩
  lawful := h.window_cmds_lawful

theorem Sound.of_same {s t : State} (h : Sound s) (g : SameRegisters s t) : Sound t where
  window hw := by
    rw [g.cfg, g.win]
    exact h.window (g.winValid ▸ hw)
  index := by rw [g.cfg, g.initIdx]; exact h.index
  buffer := g.buffer h.buffer
  lawful := by rw [g.cfg]; exact h.lawful

/-- A halted state with a fault. -/
theorem Sound.halted {s : State} (h : Sound s) (hp : s.phase = .halted) (hf : s.fault ≠ none)
    (hi : s.idling = false) : WellFormedState s where
  fault_iff_halted := ⟨fun _ => hp, fun _ => hf⟩
  booted_cfg_valid _ hn := absurd hp hn
  window_valid hw := ⟨.inr hp, h.window hw⟩
  at_rest hn := absurd hp hn
  index_in_table := h.index
  index_when_ready hr := by simp [hp] at hr
  index_at_power_on hr := by simp [hp] at hr
  rests := by simp [hp]
  idle_is_ready ht := by simp [hi] at ht
  length_in_buffer := h.buffer.length
  buffer_canonical := h.buffer.canonical
  buffer_in_range := h.buffer.inRange
  buffer_at_power_on hr := by simp [hp] at hr
  window_cmds_lawful := h.lawful

/-- A state in Ready, between transactions, the table sent. -/
theorem Sound.ready {s : State} (h : Sound s) (hp : s.phase = .ready) (hf : s.fault = none)
    (hv : firstFailingClause s.cfg = none) (h0 : s.bufLen = 0) (hc : s.cs = .deasserted)
    (hn : s.initIdx = s.cfg.initTable.length) : WellFormedState s where
  fault_iff_halted := by simp [hp, hf]
  booted_cfg_valid _ _ := hv
  window_valid hw := ⟨.inl hp, h.window hw⟩
  at_rest _ := ⟨h0, hc⟩
  index_in_table := h.index
  index_when_ready _ := hn
  index_at_power_on hr := by simp [hp] at hr
  rests := by simp [hp]
  idle_is_ready _ := hp
  length_in_buffer := h.buffer.length
  buffer_canonical := h.buffer.canonical
  buffer_in_range := h.buffer.inRange
  buffer_at_power_on hr := by simp [hp] at hr
  window_cmds_lawful := h.lawful

theorem WellFormedState.fault_none {s : State} (h : WellFormedState s) (hl : Live s) : s.fault = none :=
  not_not.mp fun hf => hl.1 (h.fault_iff_halted.mp hf)

/-- Before INIT has run no window is valid. -/
theorem WellFormedState.winValid_of_not_ready {s : State} (h : WellFormedState s) (hl : Live s)
    (hp : s.phase ≠ .ready) : s.winValid = false := by
  cases hw : s.winValid with
  | false => rfl
  | true =>
    obtain ⟨hready | hhalted, -⟩ := h.window_valid hw
    · exact absurd hready hp
    · exact absurd hhalted hl.1

/-- A booted block that accepts operations may begin a transaction, of pixels too. -/
theorem WellFormedState.framerReady {s : State} (h : WellFormedState s) (hl : Live s) (hp : s.phase ≠ .powerOn) :
    FramerReady s ∧ s.cfg.bufSize % 2 = 0 := by
  obtain ⟨h0, hc⟩ := h.at_rest hl.1
  obtain ⟨-, ⟨hn, he⟩, -⟩ := (firstFailingClause_eq_none_iff _).mp (h.booted_cfg_valid hp hl.1)
  exact ⟨⟨hc, h0, by omega⟩, he⟩

end Sys2Proof.Machine
end

section
/-! Every operation of the host keeps well-formedness (10_state.md R33). -/
namespace Sys2Proof.Machine

/-- A well-formed block that accepts operations. -/
structure WellAndLive (s : State) : Prop where
  wf : WellFormedState s
  live : Live s

theorem WellAndLive.raise {s : State} (h : WellAndLive s) (pins : Pins) (c : FaultCode) (info : FaultInfo) :
    WellFormedState (afterRaise c info { s with pins := pins }) :=
  Sound.halted (s := afterRaise c info { s with pins := pins }) { h.wf.sound with } rfl (by simp) h.live.2

theorem Checked.wellFormed {s t : State} (ht : Checked s t) (h : WellAndLive s) : WellFormedState t := by
  obtain ⟨c, info, -, -, rfl⟩ := ht
  exact h.raise s.pins c info

theorem Failed.wellFormed {m t : State} (ht : Failed m t) (h : Sound m) (hi : m.idling = false) :
    WellFormedState t := by
  obtain ⟨k, hk⟩ := ht.fault
  exact (h.of_same ht.toSameRegisters).halted ht.phase (by simp [hk]) (ht.idling.trans hi)

/-- What a drawing operation's window needs to be sound. -/
theorem Sound.set_window {s : State} (h : Sound s) {w : Window} {v : Bool}
    (hw : v = true → inBounds s.cfg w = true) : Sound { s with win := w, winValid := v } :=
  { h with window := hw }

theorem draw_keepsWell {w : Window} {v : Bool} {s : State} {r : Result} (h : WellAndLive s)
    (hr : r.Post (DrawDone w v s) (DrawRaised w s)) : r.Post WellAndLive WellFormedState := by
  refine Result.post_mono hr (fun t ht => ?_) fun t ht => ?_
  · have hlive := ht.live h.live
    obtain ⟨hp, hw, ht⟩ := ht
    obtain ⟨h0, hc⟩ := h.wf.at_rest h.live.1
    have hsound := (h.wf.sound.set_window hw).of_same ht.toSameRegisters
    refine ⟨hsound.ready (ht.phase.trans hp) (ht.fault.trans (h.wf.fault_none h.live)) ?_ (ht.bufLen h0)
      (ht.cs.trans hc) ?_, hlive⟩
    · rw [ht.cfg]; exact h.wf.booted_cfg_valid (by simp [hp]) h.live.1
    · rw [ht.cfg, ht.initIdx]; exact h.wf.index_when_ready hp
  · rcases ht with ht | ⟨-, ht⟩
    · exact ht.wellFormed h
    · exact ht.wellFormed (h.wf.sound.set_window nofun) h.live.2

theorem boot_keepsWell {cfg : Cfg} {s : State} (h : WellAndLive s) (hlaw : cfg.windowCmds.lawful = true) :
    (boot cfg s).Post WellAndLive WellFormedState := by
  refine Result.post_mono (boot_outcome cfg s) ?_ ?_
  · rintro t ⟨hp, hv, rfl⟩
    obtain ⟨h0, -⟩ := h.wf.at_rest h.live.1
    have hbuf : s.buf = [] := h.wf.buffer_at_power_on hp
    refine ⟨?_, Phase.noConfusion, h.live.2⟩
    exact
      { fault_iff_halted := by simp [h.wf.fault_none h.live]
        booted_cfg_valid := fun _ _ => hv
        window_valid := by simp [h.wf.winValid_of_not_ready h.live (by simp [hp])]
        at_rest := fun _ => ⟨h0, rfl⟩
        index_in_table := by simp [h.wf.index_at_power_on hp]
        index_when_ready := nofun
        index_at_power_on := nofun
        rests := by simp
        idle_is_ready := by simp [h.live.2]
        length_in_buffer := by simp [h0]
        buffer_canonical := h.wf.buffer_canonical
        buffer_in_range := by simp [hbuf]
        buffer_at_power_on := nofun
        window_cmds_lawful := hlaw }
  · rintro t (ht | ⟨pins, rfl⟩)
    · exact ht.wellFormed h
    · exact h.raise pins _ _

theorem initialise_keepsWell {s : State} (h : WellAndLive s) : (initialise s).Post WellAndLive WellFormedState := by
  refine Result.post_mono (initialise_outcome s) ?_ ?_
  · rintro t ⟨hp, ht⟩
    obtain ⟨h0, hc⟩ := h.wf.at_rest h.live.1
    have hsound : Sound { afterResetPulse s with initIdx := s.cfg.initTable.length, phase := .ready } :=
      { h.wf.sound with index := le_rfl }
    refine ⟨(hsound.of_same ht.toSameRegisters).ready ht.phase (ht.fault.trans (h.wf.fault_none h.live)) ?_
      (ht.bufLen h0) (ht.cs.trans hc) ?_, by simp [ht.phase], ht.idling.trans h.live.2⟩
    · rw [ht.cfg]; exact h.wf.booted_cfg_valid (by simp [hp]) h.live.1
    · rw [ht.cfg, ht.initIdx]; rfl
  · rintro t (ht | ⟨-, n, hn, ht⟩)
    · exact ht.wellFormed h
    · have hsound : Sound { afterResetPulse s with initIdx := n } := { h.wf.sound with index := hn.le }
      exact ht.wellFormed hsound h.live.2

theorem idle_keepsWell {s : State} (h : WellAndLive s) : (idle s).Post WellFormedState WellFormedState := by
  by_cases hp : s.phase = .ready
  · rw [idle_ok hp]
    exact { h.wf with idle_is_ready := fun _ => hp }
  · rw [idle, requirePhase_of_ne hp]
    exact (checked_afterRaise _ s).wellFormed h

theorem setPin_keepsWell {s : State} (h : WellAndLive s) (p : Pin) (v : Level) : WellFormedState (setPin p v s) :=
  { h.wf with }

/-- Every operation the host may ask for keeps well-formedness. -/
theorem hostVisible_keepsWell {i : Instr} {s : State} {n : Nat} (h : WellAndLive s) (hv : hostVisible i = true)
    (hw : i.wellFormed n = true) : (bodyOf i s).Post WellFormedState WellFormedState := by
  have forget {r : Result} (hr : r.Post WellAndLive WellFormedState) : r.Post WellFormedState WellFormedState :=
    Result.post_mono hr (fun _ ht => ht.wf) fun _ ht => ht
  cases i with
  | boot cfg => exact forget (boot_keepsWell h hw)
  | init => exact forget (initialise_keepsWell h)
  | setWindow => exact forget (draw_keepsWell h (setWindow_outcome _ s))
  | writePixels px => exact forget (draw_keepsWell h (writePixels_outcome px s))
  | setPixels x0 y0 x1 y1 px => exact forget (draw_keepsWell h (setPixels_outcome _ px s))
  | fillRect x0 y0 x1 y1 c => exact forget (draw_keepsWell h (fillRect_outcome _ c s))
  | fillScreen c => exact forget (draw_keepsWell h (fillRect_outcome (screen s.cfg) c s))
  | idle => exact idle_keepsWell h
  | pinSetLow p => exact setPin_keepsWell h p .low
  | pinSetHigh p => exact setPin_keepsWell h p .high
  | main cfg =>
    exact Result.post_andThen (Result.post_andThen (Result.post_andThen (boot_keepsWell h hw)
      fun m hm => initialise_keepsWell hm) fun m hm => draw_keepsWell hm (fillRect_outcome _ cfg.fillColor m))
      fun m hm => idle_keepsWell hm
  | _ => exact Bool.noConfusion hv

/-- What the interface lets through: the packet's instruction, well-formed, and one the host may ask for. -/
theorem requested_eq_ok {r : Request} {s : State} {i : Instr} (h : requested r s = .ok i) :
    i.wellFormed s.cfg.bufSize = true ∧ (r.issuer = .host → hostVisible i = true) := by
  unfold requested at h
  split at h
  · cases h
  · split_ifs at h with hw hv
    cases h
    exact ⟨by simpa using hw, fun hh => by simpa [hh] using hv⟩

theorem quiet_keepsWell {s : State} (h : WellFormedState s) : WellFormedState (quiet s) := by
  unfold quiet
  split_ifs
  · exact h
  · exact { h with }
  · exact h

theorem quiet_requests (s : State) : (quiet s).requests = s.requests := by
  unfold quiet
  split_ifs <;> rfl

/-- The request of the host that a step runs, on a state that is well-formed without it. -/
theorem host_request {s : State} {r : Request} {rest : List Request} {i : Instr} (h : WellFormedState s)
    (hh : HostOnly s) (hs : s.requests = r :: rest) (hr : requested r s = .ok i) :
    WellFormedState { s with requests := rest } ∧ HostOnly { s with requests := rest } ∧
      hostVisible i = true ∧ i.wellFormed s.cfg.bufSize = true := by
  obtain ⟨hw, hv⟩ := requested_eq_ok hr
  have hissuers : r.issuer = .host ∧ ∀ q ∈ rest, q.issuer = .host := by simpa [HostOnly, hs] using hh
  exact ⟨{ h with }, hissuers.2, hv hissuers.1, hw⟩

/-- Settles O58: a step is quiet, or runs one operation of the host. -/
theorem stepKeepsWellFormed : Obligations.StepKeepsWellFormed := by
  intro s t h hh ht
  rcases step_eq_next ht with ⟨hs, rfl⟩ | ⟨r, rest, i, hs, hr, hi⟩
  · refine ⟨quiet_keepsWell h, fun q hq => ?_⟩
    rw [quiet_requests, hs] at hq
    cases hq
  · obtain ⟨hwf, hhost, hv, hw⟩ := host_request h hh hs hr
    obtain ⟨hl, -⟩ := exec_eq_next hi
    refine ⟨?_, ?_⟩
    · exact (exec_post hi (hostVisible_keepsWell ⟨hwf, hl⟩ hv hw)).elim id id
    · have hin := exec_same_inputs hi
      intro q hq
      exact hhost q (hin.requests ▸ hq)

end Sys2Proof.Machine
end

section
/-! TransferError is the first transfer the environment fails (60_exceptions.md R163, R164). -/
namespace Sys2Proof.Machine

/-- The transfers from one counter value up to another all succeed. -/
def SucceedsBetween (env : Env) (a b : Nat) : Prop := ∀ k, a ≤ k → k < b → env.xferFault k = none

/-- An operation that went on has made transfers that succeeded. -/
structure TransfersMade (s t : State) : Prop where
  env : t.env = s.env
  fault : t.fault = s.fault
  count : s.xferCount ≤ t.xferCount
  ok : SucceedsBetween s.env s.xferCount t.xferCount

/-- What a TransferError says: the failing transfer is counted, and those before it succeeded (log 11). -/
def FirstFailure (s t : State) (info : FaultInfo) : Prop :=
  ∃ k, info = .transfer k ∧ s.xferCount ≤ k ∧ t.xferCount = k + 1 ∧ s.env.xferFault k ≠ none ∧
    SucceedsBetween s.env s.xferCount k

/-- An operation that raised: the block is halted, and a TransferError is the first failure. -/
structure RaisedFirst (s t : State) : Prop where
  phase : t.phase = .halted
  fault : ∃ c info, t.fault = some (s.fault.getD ⟨c, info⟩) ∧ (c = .transferError → FirstFailure s t info)

theorem SucceedsBetween.trans {env : Env} {a b c : Nat} (h : SucceedsBetween env a b) (g : SucceedsBetween env b c) :
    SucceedsBetween env a c := fun k ha hc =>
  (Nat.lt_or_ge k b).elim (h k ha) fun hb => g k hb hc

theorem SucceedsBetween.refl (env : Env) (a : Nat) : SucceedsBetween env a a := fun _ h1 h2 => by omega

theorem TransfersMade.of_same {s t : State} (he : t.env = s.env := by rfl) (hf : t.fault = s.fault := by rfl)
    (hk : t.xferCount = s.xferCount := by rfl) : TransfersMade s t :=
  ⟨he, hf, hk.ge, hk ▸ .refl _ _⟩

theorem TransfersMade.trans {s m t : State} (h : TransfersMade s m) (g : TransfersMade m t) : TransfersMade s t where
  env := g.env.trans h.env
  fault := g.fault.trans h.fault
  count := h.count.trans g.count
  ok := h.ok.trans (h.env ▸ g.ok)

theorem TransfersMade.raised {s m t : State} (h : TransfersMade s m) (g : RaisedFirst m t) : RaisedFirst s t := by
  obtain ⟨c, info, hf, hc⟩ := g.fault
  refine ⟨g.phase, c, info, h.fault ▸ hf, fun ht => ?_⟩
  obtain ⟨k, hk, hle, hcount, hfail, hok⟩ := hc ht
  rw [h.env] at hfail hok
  exact ⟨k, hk, h.count.trans hle, hcount, hfail, h.ok.trans hok⟩

/-- A transfer that succeeds is one more of those made. -/
theorem transfersMade_xfer {s : State} (bytes : List Byte) (hx : s.env.xferFault s.xferCount = none) :
    TransfersMade s (emit (.xfer s.pins.dc bytes) { s with xferCount := s.xferCount + 1 }) where
  env := rfl
  fault := rfl
  count := Nat.le_succ _
  ok k h1 h2 := by
    have hk : k < s.xferCount + 1 := h2
    obtain rfl : k = s.xferCount := by omega
    exact hx

theorem raisedFirst_xfer {s : State} (bytes : List Byte) {j : Nat} (hx : s.env.xferFault s.xferCount = some j) :
    RaisedFirst s (afterTransferFault bytes j s) :=
  ⟨rfl, _, _, rfl, fun _ => ⟨s.xferCount, rfl, le_rfl, rfl, by simp [hx], .refl _ _⟩⟩

theorem raisedFirst_afterRaise {c : FaultCode} (info : FaultInfo) (s : State) (hc : c ≠ .transferError) :
    RaisedFirst s (afterRaise c info s) :=
  ⟨rfl, c, info, rfl, fun h => absurd h hc⟩

/-- Of the block's primitives a transfer alone counts, and a failing one alone raises TransferError. -/
theorem bodyRule_transfers : BodyRule TransfersMade RaisedFirst where
  refl _ := .of_same
  trans := .trans
  fail := TransfersMade.raised
  dc _ _ := .of_same
  begins _ _ := .of_same
  ends _ _ := .of_same
  store _ _ _ := .of_same
  drain _ := .of_same
  moves _ bytes _ _ _ hx := transfersMade_xfer bytes hx
  faults _ bytes _ _ _ _ hx := raisedFirst_xfer bytes hx
  check s _ info hc := raisedFirst_afterRaise info s hc
  pin _ _ _ := .of_same
  waits _ _ := .of_same
  phase _ _ := .of_same
  index _ _ := .of_same
  window _ _ _ := .of_same
  idles _ := .of_same
  builds _ p _ := by cases p <;> exact .of_same
  claims _ := .of_same
  configures _ _ := .of_same

/-- An instruction whose fault is a TransferError has raised it, at its first failing transfer. -/
theorem exec_firstFailure {i : Instr} {s t : State} {info : FaultInfo} (hs : s.fault = none)
    (h : exec i s = .next t) (hf : t.fault = some ⟨.transferError, info⟩) :
    t.phase = .halted ∧ FirstFailure s t info := by
  rcases bodyRule_transfers.exec h with ht | ht
  · rw [ht.fault, hs] at hf
    cases hf
  · obtain ⟨c, info', hf', hc⟩ := ht.fault
    rw [hf', hs, Option.getD_none, Option.some.injEq, FaultRecord.mk.injEq] at hf
    obtain ⟨rfl, rfl⟩ := hf
    exact ⟨ht.phase, hc rfl⟩

/-- A TransferError leaves no valid window (43_window_pixels.md R140, R142). -/
def NoWindowAfterFault (t : State) : Prop := ∀ info, t.fault = some ⟨.transferError, info⟩ → t.winValid = false

/-- A raise of another code, from a state without a fault. -/
theorem noWindow_afterRaise {s : State} {c : FaultCode} (info : FaultInfo) (hs : s.fault = none)
    (hc : c ≠ .transferError) : NoWindowAfterFault (afterRaise c info s) := by
  intro i hi
  simp only [afterRaise_fault, hs, Option.getD_none, Option.some.injEq, FaultRecord.mk.injEq] at hi
  exact absurd hi.1 hc

theorem Checked.noWindow {s t : State} (h : Checked s t) (hs : s.fault = none) : NoWindowAfterFault t := by
  obtain ⟨c, info, hc, -, rfl⟩ := h
  exact noWindow_afterRaise info hs hc

theorem DrawRaised.noWindow {w : Window} {s t : State} (h : DrawRaised w s t) (hs : s.fault = none) :
    NoWindowAfterFault t := by
  rcases h with h | ⟨-, h⟩
  · exact h.noWindow hs
  · exact fun _ _ => h.winValid

theorem boot_noWindow {cfg : Cfg} {s : State} (hs : s.fault = none) :
    (boot cfg s).Post (fun t => s.phase = .powerOn ∧ t = afterBoot cfg s) NoWindowAfterFault := by
  refine Result.post_mono (boot_outcome cfg s) (fun t ⟨hp, _, ht⟩ => ⟨hp, ht⟩) ?_
  rintro t (h | ⟨pins, rfl⟩)
  · exact h.noWindow hs
  · exact noWindow_afterRaise (s := { s with pins := pins }) _ hs (by decide)

/-- INIT runs where no window is valid, and writes none. -/
theorem initialise_noWindow {s : State} (hs : s.fault = none) (hw : s.phase = .uninitialized → s.winValid = false) :
    (initialise s).Post (fun t => t.fault = none) NoWindowAfterFault := by
  refine Result.post_mono (initialise_outcome s) (fun t ⟨_, ht⟩ => ht.fault.trans hs) ?_
  rintro t (h | ⟨hp, n, -, h⟩)
  · exact h.noWindow hs
  · exact fun _ _ => h.winValid.trans (hw hp)

theorem idle_noWindow {s : State} (hs : s.fault = none) : (idle s).Post (fun _ => True) NoWindowAfterFault := by
  by_cases hp : s.phase = .ready
  · rw [idle_ok hp]; trivial
  · rw [idle, requirePhase_of_ne hp]; exact (checked_afterRaise _ s).noWindow hs

theorem main_noWindow {cfg : Cfg} {s : State} (hs : s.fault = none) (hw : s.phase = .powerOn → s.winValid = false) :
    (bodyOf (.main cfg) s).Post (fun _ => True) NoWindowAfterFault := by
  rw [bodyOf_main]
  refine Result.post_andThen (boot_noWindow hs) ?_
  rintro m ⟨hp, rfl⟩
  refine Result.post_andThen (Q := fun t => t.fault = none) (Result.post_andThen
    (initialise_noWindow (s := afterBoot cfg s) hs fun _ => hw hp) fun m hm => ?_) fun m hm => idle_noWindow hm
  exact Result.post_mono (fillRect_outcome _ cfg.fillColor m) (fun t ⟨_, _, ht⟩ => ht.fault.trans hm)
    fun t ht => ht.noWindow hm

/-- A TransferError in an operation of the host leaves no valid window. -/
theorem hostVisible_noWindow {i : Instr} {s : State} (h : WellAndLive s) (hv : hostVisible i = true) :
    (bodyOf i s).Post (fun _ => True) NoWindowAfterFault := by
  have hs := h.wf.fault_none h.live
  have hw {p : Phase} (hne : p ≠ .ready) (hp : s.phase = p) : s.winValid = false :=
    h.wf.winValid_of_not_ready h.live (hp ▸ hne)
  have draw {w : Window} {v : Bool} {r : Result} (hr : r.Post (DrawDone w v s) (DrawRaised w s)) :
      r.Post (fun _ => True) NoWindowAfterFault :=
    Result.post_mono hr (fun _ _ => trivial) fun _ ht => ht.noWindow hs
  cases i with
  | boot cfg => exact Result.post_mono (boot_noWindow hs) (fun _ _ => trivial) fun _ ht => ht
  | init => exact Result.post_mono (initialise_noWindow hs (hw (by decide))) (fun _ _ => trivial) fun _ ht => ht
  | setWindow => exact draw (setWindow_outcome _ s)
  | writePixels px => exact draw (writePixels_outcome px s)
  | setPixels x0 y0 x1 y1 px => exact draw (setPixels_outcome _ px s)
  | fillRect x0 y0 x1 y1 c => exact draw (fillRect_outcome _ c s)
  | fillScreen c => exact draw (fillRect_outcome (screen s.cfg) c s)
  | idle => exact idle_noWindow hs
  | pinSetLow | pinSetHigh => trivial
  | main cfg => exact main_noWindow hs (hw (by decide))
  | _ => exact Bool.noConfusion hv

/-- Settles O39: the first failure by the transfers made, the window by the operations of the host. -/
theorem transferErrorIsTheFirstFailure : Obligations.TransferErrorIsTheFirstFailure := by
  intro i s t info hs h hf
  obtain ⟨hphase, hfirst⟩ := exec_firstFailure hs h hf
  refine ⟨hphase, hfirst, fun hwf hv => ?_⟩
  obtain ⟨hl, hok | hraised⟩ := exec_eq_next h
  · rw [exec_fault_of_ok hok, hs] at hf
    cases hf
  · have hwindow := hostVisible_noWindow ⟨hwf, hl⟩ hv
    rw [hraised] at hwindow
    exact hwindow info hf

end Sys2Proof.Machine
end

section
/-! No operation of the host breaks an assert (40_pin_spi_delay.md R84 to R87; log 24). -/
namespace Sys2Proof.Machine

/-- The result is no broken assert. -/
def Result.Unbroken (r : Result) : Prop := ∀ e, r ≠ .broken e

theorem Result.unbroken_ok (s : State) : (Result.ok s).Unbroken := nofun

theorem Result.unbroken_raised (s : State) : (Result.raised s).Unbroken := nofun

theorem Result.Unbroken.andThen {r : Result} {f : State → Result} {Q R : State → Prop} (hr : r.Unbroken)
    (hp : r.Post Q R) (hf : ∀ m, Q m → (f m).Unbroken) : (r.andThen f).Unbroken := by
  intro e h
  rcases Result.andThen_eq_broken h with h | ⟨m, hm, h⟩
  · exact hr e h
  · rw [hm] at hp
    exact hf m hp e h

theorem require_unbroken {c : Bool} {code : FaultCode} {info : FaultInfo} {body : State → Result} {s : State}
    (hb : c = true → (body s).Unbroken) : (require c code info body s).Unbroken := by
  cases hc : c with
  | true => rw [require_of_true rfl]; exact hb hc
  | false => rw [require_of_false rfl]; exact Result.unbroken_raised _

theorem requirePhase_unbroken {ph : Phase} {op : CheckedOp} {body : State → Result} {s : State}
    (hb : s.phase = ph → (body s).Unbroken) : (requirePhase ph op body s).Unbroken :=
  require_unbroken fun h => hb (of_decide_eq_true h)

/-- The next transfers all succeed, or one is the first to fail. -/
theorem transfersOk_or_first_fault (s : State) (n : Nat) :
    TransfersOk s n ∨ ∃ j p, j < n ∧ TransfersOk s j ∧ s.env.xferFault (s.xferCount + j) = some p := by
  induction n with
  | zero => exact .inl nofun
  | succ n ih =>
    rcases ih with hok | ⟨j, p, hj, hx, hp⟩
    · cases hn : s.env.xferFault (s.xferCount + n) with
      | some p => exact .inr ⟨n, p, Nat.lt_succ_self n, hok, hn⟩
      | none =>
        refine .inl fun j hj => ?_
        rcases Nat.lt_succ_iff_lt_or_eq.mp hj with hlt | rfl
        · exact hok j hlt
        · exact hn
    · exact .inr ⟨j, p, Nat.lt_succ_of_lt hj, hx, hp⟩

/-- From a ready framer SEND_COMMAND completes or raises. -/
theorem sendCommand_unbroken {s : State} (hr : FramerReady s) (op : Byte) (ps : List Byte) :
    (sendCommand op ps s).Unbroken := by
  rcases transfersOk_or_first_fault s (commandTransfers s.cfg ps) with hx | ⟨j, p, hj, hx, hp⟩
  · rw [sendCommand_ok op ps s hr hx]; exact Result.unbroken_ok _
  · obtain ⟨t, ht, -⟩ := sendCommand_fails hr hj hx hp op
    rw [ht]; exact Result.unbroken_raised _

theorem sendPixels_unbroken {s : State} (hr : FramerReady s) (he : s.cfg.bufSize % 2 = 0) (px : List U16) :
    (sendPixels px s).Unbroken := by
  rcases transfersOk_or_first_fault s (chunkCount s.cfg.bufSize (2 * px.length)) with hx | ⟨j, p, hj, hx, hp⟩
  · rw [sendPixels_ok px s hr he hx]; exact Result.unbroken_ok _
  · obtain ⟨m, -, ht⟩ := sendPixels_fault hr he hj hx hp
    rw [ht]; exact Result.unbroken_raised _

theorem Settled.framerReady {s t : State} (h : Settled s t) (hr : FramerReady s) : FramerReady t := by
  obtain ⟨hc, h0, hn⟩ := hr
  exact ⟨h.cs.trans hc, h.bufLen h0, by rw [h.cfg]; exact hn⟩

theorem sendCommands_unbroken (cmds : List Cmd) {s : State} (hr : FramerReady s) : (sendCommands cmds s).Unbroken := by
  induction cmds generalizing s with
  | nil => exact Result.unbroken_ok s
  | cons c cmds ih =>
    exact (sendCommand_unbroken hr c.opcode c.params).andThen (sendCommand_settled c.opcode c.params s)
      fun m hm => ih (hm.framerReady hr)

theorem sendEntry_unbroken {s : State} (hr : FramerReady s) (idx : Nat) (op : Byte) (ps : List Byte) (ms : Nat) :
    (sendEntry idx op ps ms s).Unbroken :=
  Result.Unbroken.andThen (sendCommand_unbroken (s := { s with initIdx := idx }) hr op ps) (Result.post_true _)
    fun _ _ => Result.unbroken_ok _

theorem sendEntries_unbroken (es : List InitEntry) (idx : Nat) {s : State} (hr : FramerReady s) :
    (sendEntries idx es s).Unbroken := by
  induction es generalizing idx s with
  | nil => exact Result.unbroken_ok s
  | cons e es ih =>
    exact (sendEntry_unbroken hr idx e.opcode e.params e.postDelayMs).andThen
      (sendEntry_settled idx e.opcode e.params e.postDelayMs s)
      fun m hm => ih (idx + 1) (hm.framerReady (s := { s with initIdx := idx }) hr)

theorem configure_unbroken {s : State} (hr : FramerReady s) : (configure s).Unbroken :=
  requirePhase_unbroken fun _ =>
    Result.Unbroken.andThen (sendEntries_unbroken s.cfg.initTable 0 (s := { s with phase := .configuringInterface }) hr)
      (Result.post_true _) fun _ _ => Result.unbroken_ok _

theorem initialise_unbroken {s : State} (hr : s.phase = .uninitialized → FramerReady s) : (initialise s).Unbroken := by
  refine requirePhase_unbroken fun hp => ?_
  rw [resetPulse_ok hp, Result.andThen_ok]
  exact configure_unbroken (s := afterResetPulse s) (hr hp)

theorem setWindow_unbroken {s : State} (hr : s.phase = .ready → FramerReady s) (w : Window) :
    (setWindow w s).Unbroken :=
  requirePhase_unbroken fun hp => require_unbroken fun _ =>
    Result.Unbroken.andThen (sendCommands_unbroken _ (s := { s with winValid := false, win := w }) (hr hp))
      (Result.post_true _) fun _ _ => Result.unbroken_ok _

theorem writePixels_unbroken {s : State} (hr : s.phase = .ready → FramerReady s ∧ s.cfg.bufSize % 2 = 0)
    (px : List U16) : (writePixels px s).Unbroken := by
  refine requirePhase_unbroken fun hp => require_unbroken fun _ => require_unbroken fun _ => ?_
  obtain ⟨hr, he⟩ := hr hp
  exact Result.Unbroken.andThen (sendCommand_unbroken (s := { s with winValid := false }) hr _ _)
    (sendCommand_settled _ _ _) fun m hm => sendPixels_unbroken (hm.framerReady hr) (by rw [hm.cfg]; exact he) px

theorem setPixels_unbroken {s : State} (hr : s.phase = .ready → FramerReady s ∧ s.cfg.bufSize % 2 = 0) (w : Window)
    (px : List U16) : (setPixels w px s).Unbroken := by
  refine requirePhase_unbroken fun hp => require_unbroken fun _ => require_unbroken fun _ => ?_
  obtain ⟨hr, he⟩ := hr hp
  refine (setWindow_unbroken (fun _ => hr) w).andThen (setWindow_outcome w s) fun m ⟨_, _, hm⟩ => ?_
  exact writePixels_unbroken (fun _ => ⟨hm.framerReady (s := { s with win := w, winValid := true }) hr,
    by rw [hm.cfg]; exact he⟩) px

theorem fillRect_unbroken {s : State} (hr : s.phase = .ready → FramerReady s ∧ s.cfg.bufSize % 2 = 0) (w : Window)
    (color : U16) : (fillRect w color s).Unbroken :=
  requirePhase_unbroken fun _ => require_unbroken fun _ => setPixels_unbroken hr w _

theorem idle_unbroken (s : State) : (idle s).Unbroken :=
  requirePhase_unbroken fun _ => Result.unbroken_ok _

theorem boot_unbroken (cfg : Cfg) (s : State) : (boot cfg s).Unbroken := by
  by_cases hp : s.phase = .powerOn
  · cases hv : firstFailingClause cfg with
    | some n => rw [boot_of_failingClause hp hv]; exact Result.unbroken_raised _
    | none =>
      cases hc : s.env.claimOk with
      | false => rw [boot_of_unavailable hp hv hc]; exact Result.unbroken_raised _
      | true => rw [boot_ok hp hv hc]; exact Result.unbroken_ok _
  · rw [boot_of_phase_ne hp]; exact Result.unbroken_raised _

theorem WellAndLive.framerReady {s : State} (h : WellAndLive s) {p : Phase} (hne : p ≠ .powerOn) (hp : s.phase = p) :
    FramerReady s ∧ s.cfg.bufSize % 2 = 0 :=
  h.wf.framerReady h.live (hp ▸ hne)

/-- No operation the host may ask for breaks an assert. -/
theorem hostVisible_unbroken {i : Instr} {s : State} {n : Nat} (h : WellAndLive s) (hv : hostVisible i = true)
    (hw : i.wellFormed n = true) : (bodyOf i s).Unbroken := by
  have ready {m : State} (hm : WellAndLive m) : m.phase = .ready → FramerReady m ∧ m.cfg.bufSize % 2 = 0 :=
    hm.framerReady (by decide)
  have booted {m : State} (hm : WellAndLive m) (hp : m.phase = .uninitialized) : FramerReady m :=
    (hm.framerReady (by decide) hp).1
  cases i with
  | boot cfg => exact boot_unbroken cfg s
  | init => exact initialise_unbroken (booted h)
  | setWindow => exact setWindow_unbroken (fun hp => (ready h hp).1) _
  | writePixels px => exact writePixels_unbroken (ready h) px
  | setPixels x0 y0 x1 y1 px => exact setPixels_unbroken (ready h) _ px
  | fillRect x0 y0 x1 y1 c => exact fillRect_unbroken (ready h) _ c
  | fillScreen c => exact fillRect_unbroken (ready h) _ c
  | idle => exact idle_unbroken s
  | pinSetLow | pinSetHigh => exact Result.unbroken_ok _
  | main cfg =>
    rw [bodyOf_main]
    refine (boot_unbroken cfg s).andThen (boot_keepsWell h hw) fun m hm => ?_
    refine Result.Unbroken.andThen ((initialise_unbroken (booted hm)).andThen (initialise_keepsWell hm)
      fun u hu => fillRect_unbroken (ready hu) _ _) (Result.post_true _) fun u _ => idle_unbroken u
  | _ => exact Bool.noConfusion hv

/-- An instruction that ends in a fault of the model was accepted, and its body broke an assert. -/
theorem exec_eq_fault {i : Instr} {s : State} {e : Fault} (h : exec i s = .fault e) :
    Live s ∧ bodyOf i s = .broken e := by
  by_cases hp : s.phase = .halted
  · rw [exec_of_halted hp] at h
    cases h
  · cases hi : s.idling with
    | true =>
      rw [exec_of_idling hp hi] at h
      cases h
    | false =>
      have hl : Live s := ⟨hp, hi⟩
      rw [exec_of_live hl] at h
      exact ⟨hl, Result.outcome_eq_fault h⟩

/-- A step that ends in a fault of the model ran a request. -/
theorem step_eq_fault {s : State} {e : Fault} (h : step s = .fault e) :
    ∃ r rest i, s.requests = r :: rest ∧ requested r s = .ok i ∧ exec i { s with requests := rest } = .fault e := by
  cases hs : s.requests with
  | nil =>
    rw [step_of_no_request hs] at h
    cases h
  | cons r rest =>
    cases hr : requested r s with
    | error why =>
      rw [step_of_not_requested hs hr] at h
      cases h
    | ok i =>
      rw [step_of_requested hs hr] at h
      exact ⟨r, rest, i, rfl, hr, h⟩

/-- Settles O59: from a well-formed state the framer is ready wherever an operation of the host uses it. -/
theorem hostRequestsNeverBreakAnAssert : Obligations.HostRequestsNeverBreakAnAssert := by
  intro s e h hh he
  obtain ⟨r, rest, i, hs, hr, hi⟩ := step_eq_fault he
  obtain ⟨hwf, -, hv, hw⟩ := host_request h hh hs hr
  obtain ⟨hl, hbroken⟩ := exec_eq_fault hi
  exact hostVisible_unbroken ⟨hwf, hl⟩ hv hw e hbroken

end Sys2Proof.Machine
end
